-- ==== Sys2Proof/Word.lean ====
section
/-! DEFINITION. The plain data types of the model: bytes, blocks, registers and bus words (00_scope.md R9 to R11).

Every register of this core is a string of bits that the host reads and writes in 32-bit lanes, so registers are
bit vectors.  Byte `X[j]` of a block, of the key or of the S-box is bits `8·j+7 : 8·j` (20_memory.md R52, R53).
-/

namespace Sys2Proof

/-- An unsigned 8-bit value (R10). -/
abbrev Byte := BitVec 8

/-- A bus word and a command word: 32 bits (R9, R80). -/
abbrev Word := BitVec 32

/-- Eight bytes: half a block, or a sub-key (R9, R10). -/
abbrev Half := BitVec 64

/-- Sixteen bytes `X[0..15]`; byte `j` is bits `8·j+7 : 8·j` (R10, R52). -/
abbrev Block := BitVec 128

/-- The register KEY: 32 bytes, byte `j` in bits `8·j+7 : 8·j` (R23, R53). -/
abbrev KeyReg := BitVec 256

/-- A 256-entry byte table: entry `x` is bits `8·x+7 : 8·x` (R41, R111). -/
abbrev SboxTable := BitVec 2048

/-- What a Z register holds.  The largest legal `MODW` is 2048 (R8); a machine with a smaller `MODW` keeps the
bits at and above `MODW` zero (R54; `Safety.ZFits`; DESIGN CHOICE,
assumption log 4). -/
abbrev ZValue := BitVec 2048

/-- A byte offset of the 4 KiB register window (R50). -/
abbrev Offset := BitVec 12

/-- The number of one of the eight big-integer registers Z0..Z7 (R22). -/
abbrev ZReg := Fin 8

end Sys2Proof
end

