-- ==== Sys2Proof/Syntax.lean ====
section
/-! DEFINITION. The abstract syntax: the 17 commands of the opcode map (30_encoding.md R85, R90) and the operations of a
host program (R91, R92).
-/

namespace Sys2Proof

/-- A command of RMC1: one constructor for each row of the opcode map (R85).  Operand order is that of the assembler
forms of R90. -/
inductive Instr where
  /-- `NOP` (44_control.md R220). -/
  | nop
  /-- `ENC` (40_cipher.md R125). -/
  | enc
  /-- `DEC` (40_cipher.md R126). -/
  | dec
  /-- `HINIT` (41_hash.md R144). -/
  | hinit
  /-- `HBLK` (41_hash.md R145). -/
  | hblk
  /-- `HFIN nb` (41_hash.md R146). -/
  | hfin (nb : Fin 16)
  /-- `CINIT` (42_codec.md R161). -/
  | cinit
  /-- `CENC` (42_codec.md R162). -/
  | cenc
  /-- `CENCF nb` (42_codec.md R163). -/
  | cencf (nb : Fin 16)
  /-- `CDEC` (42_codec.md R164). -/
  | cdec
  /-- `CDECF` (42_codec.md R165). -/
  | cdecf
  /-- `MEXP zd, za, zb, zm` (43_modarith.md R192). -/
  | mexp (zd za zb zm : ZReg)
  /-- `MMUL zd, za, zb, zm` (43_modarith.md R194). -/
  | mmul (zd za zb zm : ZReg)
  /-- `MSUB zd, za, zb, zm` (43_modarith.md R195). -/
  | msub (zd za zb zm : ZReg)
  /-- `MRED zd, za, zm` (43_modarith.md R197). -/
  | mred (zd za zm : ZReg)
  /-- `ZLDB zd` (43_modarith.md R196). -/
  | zldb (zd : ZReg)
  /-- `ZCMP za, zb` (43_modarith.md R198). -/
  | zcmp (za zb : ZReg)
  deriving DecidableEq, Repr

/-- A value the host writes: a number, or a name that an earlier read of the program gave a value (R91).  Names are
numbered. -/
inductive HostVal where
  | lit (v : Word)
  | var (name : Nat)
  deriving DecidableEq, Repr

/-- One operation of the host (R91, R92), or the platform's reset (R260).  `width` is the width of the bus access in
bits; the core answers only width 32 at a multiple of 4 (R56, R57). -/
inductive HostOp where
  /-- A bus write of `v` at byte offset `off`. -/
  | write (width : Nat) (off : Offset) (v : HostVal)
  /-- A bus read at byte offset `off`; its value gets the name `name`. -/
  | read (width : Nat) (off : Offset) (name : Nat)
  /-- The `wait` of R92: read STATUS into `name`, again and again, until its bit 0 is 0. -/
  | wait (name : Nat)
  /-- The platform asserts and releases the reset input (R260). -/
  | reset
  deriving DecidableEq, Repr

/-- `wr OFF, V` of R91. -/
abbrev HostOp.wr (off : Offset) (v : Word) : HostOp := .write 32 off (.lit v)

/-- `rd OFF -> name` of R91. -/
abbrev HostOp.rd (off : Offset) (name : Nat) : HostOp := .read 32 off name

end Sys2Proof
end

