-- ==== Sys2Proof/WellFormed.lean ====
section
/-! DEFINITION. What a legal command word and a proper bus access are: the opcode map with its match and mask columns
(30_encoding.md R85), and the access rule of 20_memory.md R56.  An `Instr` needs no check of its own: its operands range
over exactly the values of their fields (`Fin 16` for NB, `Fin 8` for a register number; R82, R83).
-/

namespace Sys2Proof

/-- One row of the opcode map: a word `w` is this command when `w AND mask = pattern` (R85). -/
structure OpcodeRow where
  mnemonic : String
  pattern : Word
  mask : Word
  deriving DecidableEq, Repr

/-- The word is of this row (R85). -/
def OpcodeRow.covers (r : OpcodeRow) (w : Word) : Bool := w &&& r.mask == r.pattern

/-- The opcode map (R85), row by row. -/
def opcodeMap : List OpcodeRow :=
  [{ mnemonic := "NOP", pattern := 0x00000000, mask := 0xFFFFFFFF },
   { mnemonic := "ENC", pattern := 0x00000001, mask := 0xFFFFFFFF },
   { mnemonic := "DEC", pattern := 0x00000002, mask := 0xFFFFFFFF },
   { mnemonic := "HINIT", pattern := 0x00000010, mask := 0xFFFFFFFF },
   { mnemonic := "HBLK", pattern := 0x00000011, mask := 0xFFFFFFFF },
   { mnemonic := "HFIN", pattern := 0x00000012, mask := 0xFFFFF0FF },
   { mnemonic := "CINIT", pattern := 0x00000020, mask := 0xFFFFFFFF },
   { mnemonic := "CENC", pattern := 0x00000021, mask := 0xFFFFFFFF },
   { mnemonic := "CENCF", pattern := 0x00000022, mask := 0xFFFFF0FF },
   { mnemonic := "CDEC", pattern := 0x00000023, mask := 0xFFFFFFFF },
   { mnemonic := "CDECF", pattern := 0x00000024, mask := 0xFFFFFFFF },
   { mnemonic := "MEXP", pattern := 0x00000030, mask := 0xFF000FFF },
   { mnemonic := "MMUL", pattern := 0x00000031, mask := 0xFF000FFF },
   { mnemonic := "MSUB", pattern := 0x00000032, mask := 0xFF000FFF },
   { mnemonic := "MRED", pattern := 0x00000033, mask := 0xFF1C0FFF },
   { mnemonic := "ZLDB", pattern := 0x00000034, mask := 0xFFFF8FFF },
   { mnemonic := "ZCMP", pattern := 0x00000035, mask := 0xFFE07FFF } ]

/-- The mnemonic of a command, as the opcode map spells it (R85, R90). -/
def Instr.mnemonic : Instr → String
  | .nop => "NOP"
  | .enc => "ENC"
  | .dec => "DEC"
  | .hinit => "HINIT"
  | .hblk => "HBLK"
  | .hfin _ => "HFIN"
  | .cinit => "CINIT"
  | .cenc => "CENC"
  | .cencf _ => "CENCF"
  | .cdec => "CDEC"
  | .cdecf => "CDECF"
  | .mexp _ _ _ _ => "MEXP"
  | .mmul _ _ _ _ => "MMUL"
  | .msub _ _ _ _ => "MSUB"
  | .mred _ _ _ => "MRED"
  | .zldb _ => "ZLDB"
  | .zcmp _ _ => "ZCMP"

/-- A word is legal when some row of the opcode map covers it; every other word is illegal (R86). -/
def legalWord (w : Word) : Bool := opcodeMap.any (fun r => r.covers w)

/-- The offset is a multiple of 4 (R56). -/
def aligned (off : Offset) : Bool := off.toNat % 4 == 0

/-- A host operation the core answers: every access is 32 bits wide at a multiple of 4 (R56).  Any other access ends
with a bus error (R57). -/
def HostOp.wellFormed : HostOp → Bool
  | .write width off _ => width == 32 && aligned off
  | .read width off _ => width == 32 && aligned off
  | .wait _ => true
  | .reset => true

end Sys2Proof
end

