-- ==== Sys2Proof/Decode.lean ====
section
/-! DEFINITION. The decoder of command words, total and rejecting by name, and the encoder (30_encoding.md R80 to R86,
R90).
-/

namespace Sys2Proof

/-- A field of the command word other than OPC and RSV (R81). -/
inductive Field where
  | nb | zd | za | zb | zm
  deriving DecidableEq, Repr

/-- Why a word is illegal (R86). -/
inductive DecodeError where
  /-- Bits 31:24 are not all 0. -/
  | reservedBits
  /-- OPC is none of the 17 values of R85. -/
  | unassignedOpcode (opc : BitVec 8)
  /-- A field that the opcode does not use is not 0. -/
  | unusedField (f : Field)
  deriving DecidableEq, Repr

/-- OPC, bits 7:0 (R81). -/
def opcOf (w : Word) : BitVec 8 := w.extractLsb' 0 8

/-- RSV, bits 31:24 (R81). -/
def rsvOf (w : Word) : BitVec 8 := w.extractLsb' 24 8

/-- NB, bits 11:8, an unsigned count (R81, R82). -/
def nbOf (w : Word) : Fin 16 := (w.extractLsb' 8 4).toFin

/-- ZD, bits 14:12 (R81, R83). -/
def zdOf (w : Word) : ZReg := (w.extractLsb' 12 3).toFin

/-- ZA, bits 17:15 (R81, R83). -/
def zaOf (w : Word) : ZReg := (w.extractLsb' 15 3).toFin

/-- ZB, bits 20:18 (R81, R83). -/
def zbOf (w : Word) : ZReg := (w.extractLsb' 18 3).toFin

/-- ZM, bits 23:21 (R81, R83). -/
def zmOf (w : Word) : ZReg := (w.extractLsb' 21 3).toFin

/-- The field is 0 in the word. -/
def fieldIsZero (w : Word) : Field → Bool
  | .nb => nbOf w == 0
  | .zd => zdOf w == 0
  | .za => zaOf w == 0
  | .zb => zbOf w == 0
  | .zm => zmOf w == 0

/-- The instruction, if every field listed as unused is 0 (R84). -/
def checked (w : Word) (unused : List Field) (i : Instr) : Except DecodeError Instr :=
  match unused.find? (fun f => !fieldIsZero w f) with
  | some f => .error (.unusedField f)
  | none => .ok i

/-- The command that a word encodes, or why it is illegal (R85, R86, R89). -/
def decode (w : Word) : Except DecodeError Instr :=
  if rsvOf w ≠ 0 then .error .reservedBits
  else
    match (opcOf w).toNat with
    | 0x00 => checked w [.nb, .zd, .za, .zb, .zm] .nop
    | 0x01 => checked w [.nb, .zd, .za, .zb, .zm] .enc
    | 0x02 => checked w [.nb, .zd, .za, .zb, .zm] .dec
    | 0x10 => checked w [.nb, .zd, .za, .zb, .zm] .hinit
    | 0x11 => checked w [.nb, .zd, .za, .zb, .zm] .hblk
    | 0x12 => checked w [.zd, .za, .zb, .zm] (.hfin (nbOf w))
    | 0x20 => checked w [.nb, .zd, .za, .zb, .zm] .cinit
    | 0x21 => checked w [.nb, .zd, .za, .zb, .zm] .cenc
    | 0x22 => checked w [.zd, .za, .zb, .zm] (.cencf (nbOf w))
    | 0x23 => checked w [.nb, .zd, .za, .zb, .zm] .cdec
    | 0x24 => checked w [.nb, .zd, .za, .zb, .zm] .cdecf
    | 0x30 => checked w [.nb] (.mexp (zdOf w) (zaOf w) (zbOf w) (zmOf w))
    | 0x31 => checked w [.nb] (.mmul (zdOf w) (zaOf w) (zbOf w) (zmOf w))
    | 0x32 => checked w [.nb] (.msub (zdOf w) (zaOf w) (zbOf w) (zmOf w))
    | 0x33 => checked w [.nb, .zb] (.mred (zdOf w) (zaOf w) (zmOf w))
    | 0x34 => checked w [.nb, .za, .zb, .zm] (.zldb (zdOf w))
    | 0x35 => checked w [.nb, .zd, .zm] (.zcmp (zaOf w) (zbOf w))
    | _ => .error (.unassignedOpcode (opcOf w))

/-- `OPC | NB<<8 | ZD<<12 | ZA<<15 | ZB<<18 | ZM<<21` (R90). -/
def assemble (opc : Word) (nb : Fin 16) (zd za zb zm : ZReg) : Word :=
  opc ||| BitVec.ofNat 32 nb.val <<< 8 ||| BitVec.ofNat 32 zd.val <<< 12 ||| BitVec.ofNat 32 za.val <<< 15
    ||| BitVec.ofNat 32 zb.val <<< 18 ||| BitVec.ofNat 32 zm.val <<< 21

/-- The word of a command (R85, R90): fields it does not use are 0 (R84). -/
def encode : Instr → Word
  | .nop => assemble 0x00 0 0 0 0 0
  | .enc => assemble 0x01 0 0 0 0 0
  | .dec => assemble 0x02 0 0 0 0 0
  | .hinit => assemble 0x10 0 0 0 0 0
  | .hblk => assemble 0x11 0 0 0 0 0
  | .hfin nb => assemble 0x12 nb 0 0 0 0
  | .cinit => assemble 0x20 0 0 0 0 0
  | .cenc => assemble 0x21 0 0 0 0 0
  | .cencf nb => assemble 0x22 nb 0 0 0 0
  | .cdec => assemble 0x23 0 0 0 0 0
  | .cdecf => assemble 0x24 0 0 0 0 0
  | .mexp zd za zb zm => assemble 0x30 0 zd za zb zm
  | .mmul zd za zb zm => assemble 0x31 0 zd za zb zm
  | .msub zd za zb zm => assemble 0x32 0 zd za zb zm
  | .mred zd za zm => assemble 0x33 0 zd za 0 zm
  | .zldb zd => assemble 0x34 0 zd 0 0 0
  | .zcmp za zb => assemble 0x35 0 0 za zb 0

/-- The command word whose `nbits` bits are `w`, every bit above them 0.  A command word is one 32-bit bus word (R80),
so the opcode table's bit numbering is the word's own. -/
def wordOfTable (nbits w : Nat) : Word := BitVec.ofNat 32 (w % 2 ^ nbits)

/-- The instruction the decoder reads from the bits `w`, numbered as spec/opcode_table.json numbers them. -/
def decodeTableWord (nbits w : Nat) : Option Instr := (decode (wordOfTable nbits w)).toOption

end Sys2Proof
end

