-- ==== Sys2Proof/Config.lean ====
section
/-! DEFINITION. What the spec leaves open: the parameters of 00_scope.md R8 that have no value, and the two free values
of the interface (the draws of R60 and the latency of R272).  None has a body, so nothing can be proved of the value.
The parameter `SBOX` has a default in the spec; it is the data of `Machine/Sbox.lean` and a field of State.
The parameter `DOMAIN` is held by no register (R8, R20): it appears only as an argument in `Machine/Signature.lean`.
-/

namespace Sys2Proof.Config

/-- The parameter `MODW` of R8, as an index: `MODW / 32 = 4 + zSize`, so that every legal value (a multiple of 32
from 128 to 2048) and no other is possible.  OPEN in the spec (DESIGN CHOICE, assumption log 3). -/
opaque zSize : Fin 61

/-- The parameter `CORE_BASE` of R8, as the number of its 4 KiB page.  OPEN in the spec (DESIGN CHOICE, assumption
log 13). -/
opaque corePage : Nat

/-- How many host steps pass between the acceptance of the `n`-th accepted command and its completion: finite and
otherwise unspecified (R272; 93_implementation_defined.md U2).  DESIGN CHOICE, assumption log 7. -/
opaque latency : Nat → Nat

/-- The `n`-th `draw`: the value of a register read while the core is busy (R13, R60; U1).  DESIGN CHOICE,
assumption log 8. -/
opaque draw : Nat → Word

end Sys2Proof.Config
end

