-- ==== Sys2Proof/Machine/Bytes.lean ====
section
/-! DEFINITION. Byte and word lanes of registers, and the integer views of byte sequences (00_scope.md R10 to R12;
20_memory.md R52 to R55).
-/

namespace Sys2Proof.Machine

/-- Byte `j` of a register: bits `8·j+7 : 8·j` (R52, R53). -/
def byteAt {n : Nat} (x : BitVec n) (j : Nat) : Byte := x.extractLsb' (8 * j) 8

/-- Word `i` of a register, at its base offset plus `4·i`: bits `32·i+31 : 32·i` (R51, R52, R54, R55). -/
def wordAt {n : Nat} (x : BitVec n) (i : Nat) : Word := x.extractLsb' (32 * i) 32

/-- The register with word `i` replaced and every other bit kept (R54, R56, R63). -/
def setWordAt {n : Nat} (x : BitVec n) (i : Nat) (v : Word) : BitVec n :=
  (x &&& ~~~((BitVec.allOnes 32).setWidth n <<< (32 * i))) ||| (v.setWidth n <<< (32 * i))

/-- The number whose byte `j`, counted from the least significant, is `f j`, for `j < n`. -/
def natOfBytes (f : Nat → Byte) : Nat → Nat
  | 0 => 0
  | n + 1 => natOfBytes f n + (f n).toNat * 256 ^ n

/-- The block whose byte `j` is `f j` (R10, R52). -/
def blockOf (f : Nat → Byte) : Block := BitVec.ofNat 128 (natOfBytes f 16)

/-- The eight bytes `f 0 .. f 7` (R10). -/
def halfOf (f : Nat → Byte) : Half := BitVec.ofNat 64 (natOfBytes f 8)

/-- `X[0..7]`, which R10 calls `hi(X)` and the source `x1`. -/
def hi (x : Block) : Half := x.extractLsb' 0 64

/-- `X[8..15]`, which R10 calls `lo(X)` and the source `x2`. -/
def lo (x : Block) : Half := x.extractLsb' 64 64

/-- `a ‖ b`, the bytes of `a` first (R10). -/
def cat (a b : Half) : Block := b ++ a

/-- `be64(n)`: byte 0 holds bits 63:56 and byte 7 bits 7:0 (R12). -/
def be64 (n : BitVec 64) : Half := halfOf fun j => byteAt n (7 - j)

/-- `uint_be(b[0..k-1])`: byte 0 is the most significant (R12). -/
def uintBe (b : Nat → Byte) : Nat → Nat
  | 0 => 0
  | k + 1 => uintBe b k * 256 + (b k).toNat

/-- The bytes of a list, the first least significant. -/
def packBytes : List Byte → Nat
  | [] => 0
  | b :: bs => b.toNat + 256 * packBytes bs

/-- The block of the first 16 bytes of a stream, missing bytes 0 (R10, R52). -/
def blockFrom (bytes : List Byte) : Block := BitVec.ofNat 128 (packBytes (bytes.take 16))

/-- The sixteen bytes of a block, byte 0 first (R10). -/
def bytesOf (x : Block) : List Byte := (List.range 16).map (byteAt x)

end Sys2Proof.Machine
end

