-- ==== Sys2Proof/Machine/Sbox.lean ====
section
/-! DEFINITION. The default value of the parameter `SBOX` (40_cipher.md R111; 93_implementation_defined.md G1).  The spec
keeps `SBOX` a parameter: in this model it is the field `sbox` of State, and only `State.reset` names this table
(DESIGN CHOICE, assumption log 2).
-/

namespace Sys2Proof.Machine

/-- The table of R111, row by row: row = high hex digit of `x`, column = low hex digit. -/
def defaultSboxBytes : List Byte :=
  [0x01, 0x02, 0x04, 0x08, 0x10, 0x20, 0x40, 0x80, 0x65, 0xCA, 0xF1, 0x87, 0x6B, 0xD6, 0xC9, 0xF7] ++
  [0x8B, 0x73, 0xE6, 0xA9, 0x37, 0x6E, 0xDC, 0xDD, 0xDF, 0xDB, 0xD3, 0xC3, 0xE3, 0xA3, 0x23, 0x46] ++
  [0x8C, 0x7D, 0xFA, 0x91, 0x47, 0x8E, 0x79, 0xF2, 0x81, 0x67, 0xCE, 0xF9, 0x97, 0x4B, 0x96, 0x49] ++
  [0x92, 0x41, 0x82, 0x61, 0xC2, 0xE1, 0xA7, 0x2B, 0x56, 0xAC, 0x3D, 0x7A, 0xF4, 0x8D, 0x7F, 0xFE] ++
  [0x99, 0x57, 0xAE, 0x39, 0x72, 0xE4, 0xAD, 0x3F, 0x7E, 0xFC, 0x9D, 0x5F, 0xBE, 0x19, 0x32, 0x64] ++
  [0xC8, 0xF5, 0x8F, 0x7B, 0xF6, 0x89, 0x77, 0xEE, 0xB9, 0x17, 0x2E, 0x5C, 0xB8, 0x15, 0x2A, 0x54] ++
  [0xA8, 0x35, 0x6A, 0xD4, 0xCD, 0xFF, 0x9B, 0x53, 0xA6, 0x29, 0x52, 0xA4, 0x2D, 0x5A, 0xB4, 0x0D] ++
  [0x1A, 0x34, 0x68, 0xD0, 0xC5, 0xEF, 0xBB, 0x13, 0x26, 0x4C, 0x98, 0x55, 0xAA, 0x31, 0x62, 0xC4] ++
  [0xED, 0xBF, 0x1B, 0x36, 0x6C, 0xD8, 0xD5, 0xCF, 0xFB, 0x93, 0x43, 0x86, 0x69, 0xD2, 0xC1, 0xE7] ++
  [0xAB, 0x33, 0x66, 0xCC, 0xFD, 0x9F, 0x5B, 0xB6, 0x09, 0x12, 0x24, 0x48, 0x90, 0x45, 0x8A, 0x71] ++
  [0xE2, 0xA1, 0x27, 0x4E, 0x9C, 0x5D, 0xBA, 0x11, 0x22, 0x44, 0x88, 0x75, 0xEA, 0xB1, 0x07, 0x0E] ++
  [0x1C, 0x38, 0x70, 0xE0, 0xA5, 0x2F, 0x5E, 0xBC, 0x1D, 0x3A, 0x74, 0xE8, 0xB5, 0x0F, 0x1E, 0x3C] ++
  [0x78, 0xF0, 0x85, 0x6F, 0xDE, 0xD9, 0xD7, 0xCB, 0xF3, 0x83, 0x63, 0xC6, 0xE9, 0xB7, 0x0B, 0x16] ++
  [0x2C, 0x58, 0xB0, 0x05, 0x0A, 0x14, 0x28, 0x50, 0xA0, 0x25, 0x4A, 0x94, 0x4D, 0x9A, 0x51, 0xA2] ++
  [0x21, 0x42, 0x84, 0x6D, 0xDA, 0xD1, 0xC7, 0xEB, 0xB3, 0x03, 0x06, 0x0C, 0x18, 0x30, 0x60, 0xC0] ++
  [0xE5, 0xAF, 0x3B, 0x76, 0xEC, 0xBD, 0x1F, 0x3E, 0x7C, 0xF8, 0x95, 0x4F, 0x9E, 0x59, 0xB2, 0x00]

/-- The table of R111 as the read-only register SBOX: entry `x` in byte `x` (R41). -/
def defaultSbox : SboxTable := BitVec.ofNat 2048 (packBytes defaultSboxBytes)

end Sys2Proof.Machine
end

