-- ==== Sys2Proof/Machine/State.lean ====
section
/-! DEFINITION. The state of the machine: the registers of 10_state.md R20, the hidden PEND of R42, and, as the model's own
fields, the host's remaining operations and the counters behind the two free values.  STATUS, CTRL and KEEP are held as
the fields of R30, R32 and R34; their words are computed in `Machine/Flags.lean`, so a reserved bit has no place to be
anything but 0.  STATUS.BUSY and IRQ are computed from what they are defined by (R42, R43).
-/

namespace Sys2Proof.Machine

/-- Why the machine stops.  Only a host program can cause a stop: no command of the core does (60_exceptions.md R230). -/
inductive Fault where
  /-- A bus access whose width is not 32 bits, or whose offset is no multiple of 4, was answered with a bus error
  (20_memory.md R57: "A model treats such an access as a fault of the host program"; U3).  Raised by the host's step
  alone.  Safe: nothing is claimed of what the host does next. -/
  | busError (width : Nat) (off : Offset)
  /-- The host program writes a name that no earlier read of it has given a value (30_encoding.md R91 gives such a
  program no meaning).  Raised by the host's step alone.  Safe: the core takes no part in it. -/
  | unboundName (name : Nat)
  deriving DecidableEq, Repr

/-- Why an instruction has no meaning. -/
inductive Refusal where
  /-- The instruction has no meaning in this model yet.  Raised by an arm of `exec` alone, and no arm does.  Safe. -/
  | notModelled (mnemonic : String)
  deriving DecidableEq, Repr

/-- The state of the core (R20, R42), and of the host that drives it (R6, R91). -/
structure State where
  /-- KEY, 32 bytes (R23). -/
  key : KeyReg
  /-- DIN, the input block (R24). -/
  din : Block
  /-- OUT0, the first output block (R25). -/
  out0 : Block
  /-- OUT1, the second output block (R26). -/
  out1 : Block
  /-- CHAIN, the chaining value (R27). -/
  chain : Block
  /-- LEN, the byte count of the stream (R28). -/
  len : BitVec 64
  /-- TLEN, the length the last CDECF recovered (R29). -/
  tlen : BitVec 64
  /-- KEEP.KEEPP, bits 4:0 of KEEP (R30). -/
  keepp : BitVec 5
  /-- KEEP.KEEPL, bits 11:8 of KEEP (R30). -/
  keepl : BitVec 4
  /-- CMD, the last accepted command word (R31). -/
  cmd : Word
  /-- CTRL.IE, bit 0 of CTRL (R32). -/
  ie : Bool
  /-- CTRL.KSIZE, bits 5:4 of CTRL (R32, R33). -/
  ksize : BitVec 2
  /-- STATUS.DONE, bit 1 of STATUS (R34, R36). -/
  done : Bool
  /-- STATUS.ERR, bit 2 of STATUS (R34, R37). -/
  err : Bool
  /-- STATUS.EQ, bit 3 of STATUS (R34, R38). -/
  eq : Bool
  /-- STATUS.NOUT, bits 5:4 of STATUS (R34, R39). -/
  nout : BitVec 2
  /-- STATUS.ECODE, bits 11:8 of STATUS (R34, R37). -/
  ecode : BitVec 4
  /-- The big-integer registers Z0..Z7 (R22). -/
  z : Vector ZValue 8
  /-- The constant behind ZCFG: `MODW / 32 - 4` (R8, R40). -/
  zsize : Fin 61
  /-- The read-only table SBOX (R41). -/
  sbox : SboxTable
  /-- PEND: the command word in flight, if one is (R42). -/
  pend : Option Word
  /-- The model's own: the operations the host has still to perform, in its program order (R6, R91). -/
  hostOps : List HostOp
  /-- The model's own: the values the host's reads have named, names rising (R91). -/
  hostVars : List (Nat × Word)
  /-- The model's own: how many more host steps pass before the command in flight completes (R272). -/
  delay : Nat
  /-- The model's own: how many commands have been accepted, the argument of the free value `Config.latency`. -/
  accepted : Nat
  /-- The model's own: how many draws have been made, the argument of the free value `Config.draw`. -/
  draws : Nat
  deriving DecidableEq, Repr

/-- The machine right after reset (R44): every register 0, ZCFG and SBOX the parameters, PEND none.  No host program is
given: one is loaded from outside the machine (DESIGN CHOICE, assumption log 9); the values
of the model's own fields are DESIGN CHOICE (log 14). -/
def State.reset : State where
  key := 0
  din := 0
  out0 := 0
  out1 := 0
  chain := 0
  len := 0
  tlen := 0
  keepp := 0
  keepl := 0
  cmd := 0
  ie := false
  ksize := 0
  done := false
  err := false
  eq := false
  nout := 0
  ecode := 0
  z := Vector.replicate 8 0
  zsize := Config.zSize
  sbox := defaultSbox
  pend := none
  hostOps := []
  hostVars := []
  delay := 0
  accepted := 0
  draws := 0

end Sys2Proof.Machine
end

