-- ==== Sys2Proof/Machine/Flags.lean ====
section
/-! DEFINITION. The words of the control and status registers, the error codes, the condition flag and the interrupt
output (10_state.md R30 to R43; 60_exceptions.md R231, R237).
-/

namespace Sys2Proof.Machine

/-- The errors of R231. -/
inductive ErrorCode where
  /-- An illegal command word (R86). -/
  | illegal
  /-- A host write while busy, to neither STATUS nor a reserved offset (R235). -/
  | busy
  /-- CTRL.KSIZE = 3 in a key-using command (R33). -/
  | ksize
  /-- The modulus register holds 0 (R191). -/
  | zeroMod
  /-- The trailer does not fit the block count (R166). -/
  | trailer
  deriving DecidableEq, Repr

/-- The number of an error in STATUS.ECODE (R231). -/
def ErrorCode.code : ErrorCode → BitVec 4
  | .illegal => 1
  | .busy => 2
  | .ksize => 3
  | .zeroMod => 4
  | .trailer => 5

/-- STATUS.BUSY: a command is in flight (R35, R42). -/
def State.busy (s : State) : Bool := s.pend.isSome

/-- IRQ, the interrupt request line: `CTRL.IE AND (STATUS.DONE OR STATUS.ERR)` (R43, R237). -/
def State.irq (s : State) : Bool := s.ie && (s.done || s.err)

/-- `MODW / 32`, the number of words of a Z register (R40, R54). -/
def State.zWords (s : State) : Nat := 4 + s.zsize.val

/-- `MODW` (R8, R40). -/
def State.modw (s : State) : Nat := 32 * s.zWords

/-- The layout of STATUS, most significant field first: ECODE in 11:8, NOUT in 5:4, EQ, ERR, DONE and BUSY in 3 to 0,
every other bit 0 (R34). -/
def packStatus (ecode : BitVec 4) (nout : BitVec 2) (eq err done busy : Bool) : Word :=
  0#20 ++ ecode ++ 0#2 ++ nout ++ BitVec.ofBool eq ++ BitVec.ofBool err ++ BitVec.ofBool done ++ BitVec.ofBool busy

/-- The word STATUS (R34). -/
def State.statusWord (s : State) : Word := packStatus s.ecode s.nout s.eq s.err s.done s.busy

/-- What a read of STATUS gives while busy: EQ and NOUT are drawn, the other bits exact (R60). -/
def State.statusWordDrawn (s : State) (draw : Word) : Word :=
  packStatus s.ecode (draw.extractLsb' 4 2) (draw.getLsbD 3) s.err s.done s.busy

/-- The word CTRL: KSIZE in 5:4, IE in 0, every other bit 0 (R32). -/
def State.ctrlWord (s : State) : Word := 0#26 ++ s.ksize ++ 0#3 ++ BitVec.ofBool s.ie

/-- The word KEEP: KEEPL in 11:8, KEEPP in 4:0, every other bit 0 (R30). -/
def State.keepWord (s : State) : Word := 0#20 ++ s.keepl ++ 0#3 ++ s.keepp

/-- The word ZCFG: `MODW / 32` (R40). -/
def State.zcfgWord (s : State) : Word := BitVec.ofNat 32 s.zWords

/-- The write of a word to STATUS: a 1 in bit 1 clears DONE; a 1 in bit 2 clears ERR and sets ECODE to 0; every other
bit is ignored (R34, R62, R238). -/
def State.writeStatus (s : State) (v : Word) : State :=
  { s with
    done := s.done && !v.getLsbD 1
    err := s.err && !v.getLsbD 2
    ecode := if v.getLsbD 2 then 0 else s.ecode }

/-- The write of a word to CTRL: bits 0 and 5:4 are held, every other bit is ignored (R32, R59). -/
def State.writeCtrl (s : State) (v : Word) : State :=
  { s with ie := v.getLsbD 0, ksize := v.extractLsb' 4 2 }

end Sys2Proof.Machine
end

