-- ==== Sys2Proof/Machine/Window.lean ====
section
/-! DEFINITION. The register window: which register word stands at which offset, and the plain read and write of one word
(20_memory.md R50 to R59).
-/

namespace Sys2Proof.Machine

/-- A register word of the map of R51. -/
inductive RegWord where
  | cmd | status | ctrl | keep | lenLo | lenHi | tlenLo | tlenHi | zcfg
  | key (w : Fin 8)
  | din (w : Fin 4)
  | out0 (w : Fin 4)
  | out1 (w : Fin 4)
  | chain (w : Fin 4)
  | z (n : ZReg) (w : Fin 64)
  /-- An offset that R51 lists as reserved. -/
  | reserved
  deriving DecidableEq, Repr

/-- `CORE_BASE`, a multiple of 4096 (R8, R50). -/
def coreBase : Nat := 4096 * Config.corePage

/-- The bus address of an offset (R50). -/
def busAddress (off : Offset) : Nat := coreBase + off.toNat

/-- The offset of a bus address, if it lies in the window (R50). -/
def windowOffset (addr : Nat) : Option Offset :=
  if coreBase ≤ addr ∧ addr < coreBase + 4096 then some (BitVec.ofNat 12 (addr - coreBase)) else none

/-- The register word at an offset (R51), which is a multiple of 4 at every use (R56). -/
def regAt (off : Offset) : RegWord :=
  let a := off.toNat
  if a < 0x004 then .cmd
  else if a < 0x008 then .status
  else if a < 0x00C then .ctrl
  else if a < 0x010 then .keep
  else if a < 0x014 then .lenLo
  else if a < 0x018 then .lenHi
  else if a < 0x01C then .tlenLo
  else if a < 0x020 then .tlenHi
  else if a < 0x024 then .zcfg
  else if a < 0x040 then .reserved
  else if a < 0x060 then .key (Fin.ofNat 8 ((a - 0x040) / 4))
  else if a < 0x070 then .din (Fin.ofNat 4 ((a - 0x060) / 4))
  else if a < 0x080 then .out0 (Fin.ofNat 4 ((a - 0x070) / 4))
  else if a < 0x090 then .out1 (Fin.ofNat 4 ((a - 0x080) / 4))
  else if a < 0x0A0 then .chain (Fin.ofNat 4 ((a - 0x090) / 4))
  else if a < 0x100 then .reserved
  else if a < 0x900 then .z (Fin.ofNat 8 ((a - 0x100) / 0x100)) (Fin.ofNat 64 ((a - 0x100) % 0x100 / 4))
  else .reserved

/-- The offset of a register word (R51); of the reserved ones, the first. -/
def RegWord.offset : RegWord → Offset
  | .cmd => 0x000
  | .status => 0x004
  | .ctrl => 0x008
  | .keep => 0x00C
  | .lenLo => 0x010
  | .lenHi => 0x014
  | .tlenLo => 0x018
  | .tlenHi => 0x01C
  | .zcfg => 0x020
  | .key w => BitVec.ofNat 12 (0x040 + 4 * w.val)
  | .din w => BitVec.ofNat 12 (0x060 + 4 * w.val)
  | .out0 w => BitVec.ofNat 12 (0x070 + 4 * w.val)
  | .out1 w => BitVec.ofNat 12 (0x080 + 4 * w.val)
  | .chain w => BitVec.ofNat 12 (0x090 + 4 * w.val)
  | .z n w => BitVec.ofNat 12 (0x100 + 0x100 * n.val + 4 * w.val)
  | .reserved => 0x024

/-- The register word reads 0 and ignores writes without an error: a reserved offset (R58), or a word of a Z register at
or above `MODW / 32` (R54; DEDUCED for such a word while busy, assumption log 5). -/
def RegWord.isReserved (s : State) : RegWord → Bool
  | .reserved => true
  | .z _ w => s.zWords ≤ w.val
  | _ => false

/-- The value of a register word in a core that is not busy (R51 to R55, R58). -/
def readWord (s : State) : RegWord → Word
  | .cmd => s.cmd
  | .status => s.statusWord
  | .ctrl => s.ctrlWord
  | .keep => s.keepWord
  | .lenLo => wordAt s.len 0
  | .lenHi => wordAt s.len 1
  | .tlenLo => wordAt s.tlen 0
  | .tlenHi => wordAt s.tlen 1
  | .zcfg => s.zcfgWord
  | .key w => wordAt s.key w
  | .din w => wordAt s.din w
  | .out0 w => wordAt s.out0 w
  | .out1 w => wordAt s.out1 w
  | .chain w => wordAt s.chain w
  | .z n w => if w.val < s.zWords then wordAt s.z[n] w else 0
  | .reserved => 0

/-- The write of a register word other than CMD and STATUS in a core that is not busy: it replaces the word of a
read-write register and is ignored elsewhere (R54, R58, R59, R63). -/
def writeWord (s : State) (v : Word) : RegWord → State
  | .cmd => s
  | .status => s
  | .ctrl => s.writeCtrl v
  | .keep => s
  | .lenLo => { s with len := setWordAt s.len 0 v }
  | .lenHi => { s with len := setWordAt s.len 1 v }
  | .tlenLo => s
  | .tlenHi => s
  | .zcfg => s
  | .key w => { s with key := setWordAt s.key w v }
  | .din w => { s with din := setWordAt s.din w v }
  | .out0 _ => s
  | .out1 _ => s
  | .chain w => { s with chain := setWordAt s.chain w v }
  | .z n w => if w.val < s.zWords then { s with z := s.z.set n (setWordAt s.z[n] w v) } else s
  | .reserved => s

end Sys2Proof.Machine
end

