-- ==== Sys2Proof/Machine/Ops.lean ====
section
/-! DEFINITION. The shared operations of the machine: accepting and completing a command (30_encoding.md R87, R88), recording
an error, the command error and its clearing (60_exceptions.md R230 to R241), the host's bus accesses (20_memory.md R56 to
R63), its operations (R91, R92) and the reset (70_reset_and_hazards.md R260 to R262).
-/

namespace Sys2Proof.Machine

open Host

/-! ## Commands -/

/-- Acceptance of a command word by an idle core (R87): CMD, PEND and with it BUSY are set, DONE is cleared and nothing
else of the core changes.  How many host steps pass before the completion is a free value (R272). -/
def accept (w : Word) (s : State) : State :=
  { s with
    cmd := w
    pend := some w
    done := false
    delay := Config.latency s.accepted
    accepted := s.accepted + 1 }

/-- Completion of a command that raised no error (R88): `s` already holds the command's register writes. -/
def finish (nout : BitVec 2) (s : State) : State :=
  { s with nout := nout, pend := none, done := true, delay := 0 }

/-- Recording an error: the first one since the last clear is kept (R37, R234). -/
def recordError (e : ErrorCode) (s : State) : State :=
  if s.err then s else { s with err := true, ecode := e.code }

/-- A command error (R88, R233): the completion writes STATUS alone.  This is the core's whole exception entry: it saves
nothing, changes no mode and redirects nothing (R240). -/
def raise (e : ErrorCode) (s : State) : State := recordError e (finish 0 s)

/-- The "return" from an error: the host's write of 1 to STATUS bit 2 clears ERR and ECODE and restores nothing (R241). -/
def clearError (s : State) : State := s.writeStatus 0x4

/-! ## The host's bus accesses -/

/-- The host's 32-bit write at an aligned offset (R56, R61 to R63).  A write to STATUS always acts; a reserved word
ignores it; any other write to a busy core changes no register and records E_BUSY (R61, R235); a write to CMD of an idle
core starts a command (R87). -/
def busWrite (off : Offset) (v : Word) (s : State) : State :=
  let r := regAt off
  if r = .status then s.writeStatus v
  else if r.isReserved s then s
  else if s.busy then recordError .busy s
  else if r = .cmd then accept v s
  else writeWord s v r

/-- One draw: a free value, and the counter that makes the next draw another one (R13, R60). -/
def drawWord (s : State) : Word × State := (Config.draw s.draws, { s with draws := s.draws + 1 })

/-- The host's 32-bit read at an aligned offset (R56, R58, R60): exact in an idle core; in a busy one CMD, CTRL and ZCFG
are exact, a reserved word reads 0, STATUS has its bits EQ and NOUT drawn, and any other register is a draw. -/
def busRead (off : Offset) (s : State) : Word × State :=
  let r := regAt off
  if !s.busy || r.isReserved s || r == .cmd || r == .ctrl || r == .zcfg then (readWord s r, s)
  else if r = .status then (s.statusWordDrawn (drawWord s).1, (drawWord s).2)
  else drawWord s

/-! ## The host and the platform -/

/-- The event reset (R260, R261): every register takes its reset value at one instant, a command in flight is discarded,
and the constants ZCFG and SBOX stay (R262).  The host, its program and the counters of the free values are no registers
of the core and stay (DESIGN CHOICE, assumption log 12). -/
def resetEvent (s : State) : State :=
  { State.reset with
    zsize := s.zsize
    sbox := s.sbox
    hostOps := s.hostOps
    hostVars := s.hostVars
    accepted := s.accepted
    draws := s.draws }

/-- The value of a name of the host program (R91). -/
def lookupVar (name : Nat) : List (Nat × Word) → Option Word
  | [] => none
  | (n, v) :: rest => if n = name then some v else lookupVar name rest

/-- The names with one given a value, in rising order (R91). -/
def setVar (name : Nat) (v : Word) : List (Nat × Word) → List (Nat × Word)
  | [] => [(name, v)]
  | (n, u) :: rest =>
    if name < n then (name, v) :: (n, u) :: rest
    else if name = n then (name, v) :: rest
    else (n, u) :: setVar name v rest

/-- The value a host operation writes: a number, or the value of a name, which an earlier read must have given (R91). -/
def hostValue (s : State) : HostVal → Except Fault Word
  | .lit v => .ok v
  | .var n =>
    match lookupVar n s.hostVars with
    | some v => .ok v
    | none => .error (.unboundName n)

/-- `rd OFF -> name` at an aligned offset (R91). -/
def hostRead (off : Offset) (name : Nat) (s : State) : State :=
  { (busRead off s).2 with hostVars := setVar name (busRead off s).1 (busRead off s).2.hostVars }

/-- One step of the host (R6, R91, R92), in a state from whose list the operation is already taken.  An access that is
not 32 bits wide and aligned ends with a bus error (R57).  A `wait` that reads BUSY = 1 stays the next operation (DESIGN
CHOICE, assumption log 10). -/
def hostStep (op : HostOp) (s : State) : Outcome State Fault Refusal :=
  match op with
  | .write width off v =>
    if op.wellFormed then
      match hostValue s v with
      | .ok x => .next (busWrite off x s)
      | .error f => .fault f
    else .fault (.busError width off)
  | .read width off name =>
    if op.wellFormed then .next (hostRead off name s) else .fault (.busError width off)
  | .wait name =>
    let t := hostRead RegWord.status.offset name s
    .next (if s.busy then { t with hostOps := .wait name :: t.hostOps } else t)
  | .reset => .next (resetEvent s)

end Sys2Proof.Machine
end

