-- ==== Sys2Proof/Machine/Operands.lean ====
section
/-! DEFINITION. The operands of the commands: the key size, the Z registers, and the two checks that come before any
computation (10_state.md R22, R33; 43_modarith.md R190, R191; 60_exceptions.md R236).
-/

namespace Sys2Proof.Machine

open Host

/-- The three cipher variants (R33). -/
inductive KeySize where
  | k128 | k192 | k256
  deriving DecidableEq, Repr

/-- The variant that CTRL.KSIZE selects; 3 is reserved (R33). -/
def selectKey (ksize : BitVec 2) : Option KeySize :=
  match ksize.toNat with
  | 0 => some .k128
  | 1 => some .k192
  | 2 => some .k256
  | _ => none

/-- A key-using command: E_KSIZE when KSIZE is reserved, before any cipher computation (R33, R236), else the next state
the command gives for the variant. -/
def withKeySize (s : State) (f : KeySize → State) : Outcome State Fault Refusal :=
  .next (match selectKey s.ksize with
    | none => raise .ksize s
    | some ks => f ks)

/-- The integer that a Z register holds (R22). -/
def zval (s : State) (r : ZReg) : Nat := s.z[r].toNat

/-- The Z registers with one replaced by an integer (R22, R190). -/
def setZ (s : State) (r : ZReg) (v : Nat) : State := { s with z := s.z.set r (BitVec.ofNat 2048 v) }

/-- A command with a modulus register: E_ZEROMOD when it holds 0, before any modular computation (R191, R236), else the
next state the command gives for the modulus. -/
def withModulus (s : State) (zm : ZReg) (f : Nat → State) : Outcome State Fault Refusal :=
  .next (if zval s zm = 0 then raise .zeroMod s else f (zval s zm))

end Sys2Proof.Machine
end

