-- ==== Sys2Proof/Machine/Cipher.lean ====
section
/-! DEFINITION. The block cipher engine (40_cipher.md).  The functions carry the rules' names in their comments; each takes
the S-box as an argument, since the spec keeps it a parameter (R111).
-/

namespace Sys2Proof.Machine

open Host

/-! ## The cipher functions -/

/-- `S[x]` (R111). -/
def sub (S : SboxTable) (x : Byte) : Byte := byteAt S x.toNat

/-- `A(x, y) = S[x XOR S[y]]` (R112). -/
def combine (S : SboxTable) (x y : Byte) : Byte := sub S (x ^^^ sub S y)

/-- `PE(x, y) = (A(x, y), A(y, x))` (R113). -/
def pairTransform (S : SboxTable) (x y : Byte) : Byte × Byte := (combine S x y, combine S y x)

/-- `Π` (R114): the pair `(X[i], X[i+8])` gives bytes `2i` and `2i+1`. -/
def permute (S : SboxTable) (X : Block) : Block :=
  blockOf fun j =>
    let pair := pairTransform S (byteAt X (j / 2)) (byteAt X (j / 2 + 8))
    if j % 2 = 0 then pair.1 else pair.2

/-- `T`: four applications of `Π` (R115). -/
def mix (S : SboxTable) (X : Block) : Block := permute S (permute S (permute S (permute S X)))

/-- `SPLIT`: the even-indexed bytes, then the odd-indexed ones (R116). -/
def split (X : Block) : Block :=
  blockOf fun j => if j < 8 then byteAt X (2 * j) else byteAt X (2 * (j - 8) + 1)

/-- `C(n + 1, W)`: `C(1, W) = T(W)`, and `C(j, W) = T(W ⊕ SPLIT(C(j-1, W)))` for `j > 1` (R117). -/
def mixDeep (S : SboxTable) (W : Block) : Nat → Block
  | 0 => mix S W
  | n + 1 => mix S (W ^^^ split (mixDeep S W n))

/-- `F(x2, SK) = SPLIT(C(3, x2 ‖ SK))[0..7]` (R118). -/
def roundFunction (S : SboxTable) (x2 sk : Half) : Half := hi (split (mixDeep S (cat x2 sk) 2))

/-- `ROUND(X, SK) = x2 ‖ (x1 ⊕ F(x2, SK))` (R119). -/
def feistelRound (S : SboxTable) (X : Block) (sk : Half) : Block :=
  cat (lo X) (hi X ^^^ roundFunction S (lo X) sk)

/-- `K_i = K[8(i-1) .. 8i-1]`, numbered from 1 (R120). -/
def subKey (key : KeyReg) (i : Nat) : Half := key.extractLsb' (64 * (i - 1)) 64

/-- The sub-key numbers, one per round (R121). -/
def schedule : KeySize → List Nat
  | .k128 => [1, 1, 2, 2, 1, 1]
  | .k192 => [1, 2, 3, 3, 2, 1]
  | .k256 => [1, 2, 3, 4, 4, 3, 2, 1]

/-- `ENCRYPT(X, K)` (R122): no swap is undone after the last round.  `K` is the first 16, 24 or 32 bytes of `key` (R23). -/
def encrypt (S : SboxTable) (ks : KeySize) (key : KeyReg) (X : Block) : Block :=
  (schedule ks).foldl (fun x i => feistelRound S x (subKey key i)) X

/-- `V`: the halves exchanged (R123). -/
def swapHalves (X : Block) : Block := cat (lo X) (hi X)

/-- `DECRYPT(X, K) = V(ENCRYPT(V(X), K))` (R124). -/
def decrypt (S : SboxTable) (ks : KeySize) (key : KeyReg) (X : Block) : Block :=
  swapHalves (encrypt S ks key (swapHalves X))

/-! ## The commands -/

/-- `ENC` (R125). -/
def execEnc (s : State) : Outcome State Fault Refusal :=
  withKeySize s fun ks => finish 1 { s with out0 := encrypt s.sbox ks s.key s.din }

/-- `DEC` (R126). -/
def execDec (s : State) : Outcome State Fault Refusal :=
  withKeySize s fun ks => finish 1 { s with out0 := decrypt s.sbox ks s.key s.din }

end Sys2Proof.Machine
end

