-- ==== Sys2Proof/Machine/Hash.lean ====
section
/-! DEFINITION. The compression hash (41_hash.md).  The padding serves the codec as well (42_codec.md R160).
-/

namespace Sys2Proof.Machine

open Host

/-! ## The functions -/

/-- The block of PAD before any trailer: `D[0 .. r-1] ‖ 0x40 ‖ 0^(15-r)` (R142). -/
def markerBlock (D : Block) (r : Fin 16) : Block :=
  blockOf fun j => if j < r.val then byteAt D j else if j = r.val then 0x40 else 0

/-- A block with the length trailer in its bytes 8 to 15 (R141). -/
def withTrailer (B : Block) (L : BitVec 64) : Block := cat (hi B) (be64 L)

/-- `PAD(D, r, L)` (R142): the first terminal block, and the second one when the first has no room for the trailer.  At
`r = 8` the trailer overwrites the marker. -/
def pad (D : Block) (r : Fin 16) (L : BitVec 64) : Block × Option Block :=
  if 16 - r.val < 8 then (markerBlock D r, some (withTrailer 0 L))
  else (withTrailer (markerBlock D r) L, none)

/-- `COMPRESS(h, M)` (R143): `h ⊕ M` encrypted under the 16-byte key `M`, XORed with `h ⊕ M`. -/
def compress (S : SboxTable) (h M : Block) : Block :=
  encrypt S .k128 (M.setWidth 256) (h ^^^ M) ^^^ (h ^^^ M)

/-- The terminal blocks compressed in order (R146). -/
def compressPadded (S : SboxTable) (h : Block) (B : Block × Option Block) : Block :=
  match B.2 with
  | none => compress S h B.1
  | some B' => compress S (compress S h B.1) B'

/-- The `i`-th full 16-byte block of a stream (R147). -/
def streamBlock (stream : List Byte) (i : Nat) : Block := blockFrom (stream.drop (16 * i))

/-- The bytes of a stream after its last full block (R147). -/
def streamTail (stream : List Byte) : List Byte := stream.drop (16 * (stream.length / 16))

/-- PAD of a stream's last partial block (R147, R160). -/
def padStream (stream : List Byte) : Block × Option Block :=
  pad (blockFrom (streamTail stream)) (Fin.ofNat 16 stream.length) (BitVec.ofNat 64 stream.length)

/-- `HASH(s)`: the fold of COMPRESS from `0^16` over the padded stream (R140, R147). -/
def hashStream (S : SboxTable) (stream : List Byte) : Block :=
  compressPadded S
    ((List.range (stream.length / 16)).foldl (fun h i => compress S h (streamBlock stream i)) 0)
    (padStream stream)

/-! ## The commands -/

/-- `HINIT` (R144). -/
def execHinit (s : State) : Outcome State Fault Refusal := .next (finish 0 { s with chain := 0, len := 0 })

/-- `HBLK` (R145).  KEY and KSIZE play no part. -/
def execHblk (s : State) : Outcome State Fault Refusal :=
  .next (finish 0 { s with chain := compress s.sbox s.chain s.din, len := s.len + 16 })

/-- `HFIN nb` (R146): the digest goes to CHAIN and to OUT0. -/
def execHfin (nb : Fin 16) (s : State) : Outcome State Fault Refusal :=
  let L := s.len + BitVec.ofNat 64 nb.val
  let h := compressPadded s.sbox s.chain (pad s.din nb L)
  .next (finish 1 { s with len := L, chain := h, out0 := h })

end Sys2Proof.Machine
end

