-- ==== Sys2Proof/Machine/Codec.lean ====
section
/-! DEFINITION. The chained file codec (42_codec.md): plaintext-feedback chaining with the hash's padding.
-/

namespace Sys2Proof.Machine

open Host

/-! ## The functions -/

/-- `c_i = ENCRYPT(p_i, K) ⊕ p_{i-1}` (R160). -/
def chainEncrypt (S : SboxTable) (ks : KeySize) (key : KeyReg) (prev p : Block) : Block :=
  encrypt S ks key p ^^^ prev

/-- `p_i = DECRYPT(c_i ⊕ p_{i-1}, K)` (R160). -/
def chainDecrypt (S : SboxTable) (ks : KeySize) (key : KeyReg) (prev c : Block) : Block :=
  decrypt S ks key (c ^^^ prev)

/-- `TRAILER_LEN(P) = uint_be(P[8..15])` (R167). -/
def trailerLen (P : Block) : BitVec 64 := BitVec.ofNat 64 (uintBe (fun j => byteAt P (8 + j)) 8)

/-- `TAIL(L, base)` (R166): how many bytes of the previous and of the final decoded block are stream data, or none for
E_TRAILER.  The differences are exact; in the second case `L + 16 - base` is `L - (base - 16)` where that is not
negative, and 0, which is out of range, where it is. -/
def tail (L base : BitVec 64) : Option (BitVec 5 × BitVec 4) :=
  if base.toNat ≤ L.toNat ∧ L.toNat - base.toNat ≤ 8 then
    some (if 16 ≤ base.toNat then 16 else 0, BitVec.ofNat 4 (L.toNat - base.toNat))
  else if L.toNat < base.toNat ∧ 16 ≤ base.toNat ∧ 9 ≤ L.toNat + 16 - base.toNat ∧ L.toNat + 16 - base.toNat ≤ 15 then
    some (BitVec.ofNat 5 (L.toNat + 16 - base.toNat), 0)
  else none

/-! ## Whole streams (R160, R168, R169) -/

/-- The padded plaintext blocks `p_1 .. p_n` (R160). -/
def paddedBlocks (stream : List Byte) : List Block :=
  (List.range (stream.length / 16)).map (streamBlock stream) ++
    (padStream stream).1 :: (padStream stream).2.toList

/-- The ciphertext blocks `c_1 .. c_n` with `p_0 = 0^16` (R160, R168). -/
def encodeStream (S : SboxTable) (ks : KeySize) (key : KeyReg) (stream : List Byte) : List Block :=
  List.zipWith (chainEncrypt S ks key) (0 :: paddedBlocks stream) (paddedBlocks stream)

/-- The decoded blocks after the plaintext block `prev` (R160). -/
def decodeBlocks (S : SboxTable) (ks : KeySize) (key : KeyReg) : Block → List Block → List Block
  | _, [] => []
  | prev, c :: cs => chainDecrypt S ks key prev c :: decodeBlocks S ks key (chainDecrypt S ks key prev c) cs

/-- What the host of R169 outputs of the decoded blocks: all of them but the last two, KEEPP bytes of the second-to-last
(the held one) and KEEPL bytes of the last. -/
def keptBytes (ps : List Block) (keepp keepl : Nat) : List Byte :=
  ps.dropLast.dropLast.flatMap bytesOf ++
    (ps.dropLast.getLast?.toList.flatMap bytesOf).take keepp ++
    (ps.getLast?.toList.flatMap bytesOf).take keepl

/-- The stream that the host of R169 recovers from `n ≥ 1` ciphertext blocks; none on E_TRAILER and for a stream of no
block (DESIGN CHOICE, assumption log 19). -/
def decodeStream (S : SboxTable) (ks : KeySize) (key : KeyReg) (cipher : List Block) : Option (List Byte) :=
  let ps := decodeBlocks S ks key 0 cipher
  match ps.getLast? with
  | none => none
  | some P =>
    (tail (trailerLen P) (BitVec.ofNat 64 (16 * (ps.length - 1)))).map fun (kp, kl) => keptBytes ps kp.toNat kl.toNat

/-! ## The commands -/

/-- `CINIT` (R161): the all-zero IV. -/
def execCinit (s : State) : Outcome State Fault Refusal := .next (finish 0 { s with chain := 0, len := 0 })

/-- `CENC` (R162). -/
def execCenc (s : State) : Outcome State Fault Refusal :=
  withKeySize s fun ks =>
    finish 1 { s with out0 := chainEncrypt s.sbox ks s.key s.chain s.din, chain := s.din, len := s.len + 16 }

/-- `CENCF nb` (R163): one output block, or two when the padding fills two blocks; OUT1 is written only then. -/
def execCencf (nb : Fin 16) (s : State) : Outcome State Fault Refusal :=
  withKeySize s fun ks =>
    let L := s.len + BitVec.ofNat 64 nb.val
    let B := pad s.din nb L
    let c := chainEncrypt s.sbox ks s.key s.chain B.1
    match B.2 with
    | none => finish 1 { s with out0 := c, chain := B.1, len := L }
    | some B' => finish 2 { s with out0 := c, out1 := chainEncrypt s.sbox ks s.key B.1 B', chain := B', len := L }

/-- `CDEC` (R164). -/
def execCdec (s : State) : Outcome State Fault Refusal :=
  withKeySize s fun ks =>
    let P := chainDecrypt s.sbox ks s.key s.chain s.din
    finish 1 { s with out0 := P, chain := P, len := s.len + 16 }

/-- `CDECF` (R165): E_TRAILER, with none of its effects, when the trailer fits no padding shape. -/
def execCdecf (s : State) : Outcome State Fault Refusal :=
  withKeySize s fun ks =>
    let P := chainDecrypt s.sbox ks s.key s.chain s.din
    match tail (trailerLen P) s.len with
    | none => raise .trailer s
    | some (kp, kl) =>
      finish 1
        { s with out0 := P, chain := P, tlen := trailerLen P, keepp := kp, keepl := kl, len := s.len + 16 }

end Sys2Proof.Machine
end

