-- ==== Sys2Proof/Machine/Control.lean ====
section
/-! DEFINITION. The control command (44_control.md R220).  There is no other: no control transfer and no privileged command
(R221, R222).
-/

namespace Sys2Proof.Machine

open Host

/-- `NOP` (R220): no register is written; the completion sets NOUT to 0 and DONE to 1. -/
def execNop (s : State) : Outcome State Fault Refusal := .next (finish 0 s)

end Sys2Proof.Machine
end

