-- ==== Sys2Proof/Machine/Modular.lean ====
section
/-! DEFINITION. The modular arithmetic unit (43_modarith.md).  Every result is exact over the integers and then reduced
(R190); a command reads its sources before it writes ZD, so any registers may be the same (R203).
-/

namespace Sys2Proof.Machine

open Host

/-! ## The functions -/

/-- The loop of R193 over the exponent's bits, least significant first, at most `n` of them. -/
def powLoop (m : Nat) : (n b e r : Nat) → Nat
  | 0, _, _, r => r
  | n + 1, b, e, r =>
    if e = 0 then r
    else powLoop m n (b * b % m) (e / 2) (if e % 2 = 1 then r * b % m else r)

/-- `(a ^ e) mod m` by square-and-multiply (R192, R193), with `a ^ 0 = 1` for every `a`.  The loop covers the bits of `e`;
bits above them are 0 and change nothing (DEDUCED, assumption log 16). -/
def powMod (a e m : Nat) : Nat := powLoop m (e.log2 + 1) (a % m) e (1 % m)

/-- `(a · b) mod m` (R194). -/
def mulMod (a b m : Nat) : Nat := a * b % m

/-- `(a - b) mod m` for the integer difference, in `[0, m)` (R195). -/
def subMod (a b m : Nat) : Nat := (((a : Int) - (b : Int)) % (m : Int)).toNat

/-! ## The commands -/

/-- `MEXP zd, za, zb, zm` (R192). -/
def execMexp (zd za zb zm : ZReg) (s : State) : Outcome State Fault Refusal :=
  withModulus s zm fun m => finish 0 (setZ s zd (powMod (zval s za) (zval s zb) m))

/-- `MMUL zd, za, zb, zm` (R194). -/
def execMmul (zd za zb zm : ZReg) (s : State) : Outcome State Fault Refusal :=
  withModulus s zm fun m => finish 0 (setZ s zd (mulMod (zval s za) (zval s zb) m))

/-- `MSUB zd, za, zb, zm` (R195). -/
def execMsub (zd za zb zm : ZReg) (s : State) : Outcome State Fault Refusal :=
  withModulus s zm fun m => finish 0 (setZ s zd (subMod (zval s za) (zval s zb) m))

/-- `MRED zd, za, zm` (R197). -/
def execMred (zd za zm : ZReg) (s : State) : Outcome State Fault Refusal :=
  withModulus s zm fun m => finish 0 (setZ s zd (zval s za % m))

/-- `ZLDB zd` (R196): OUT0 as an integer, byte 0 most significant. -/
def execZldb (zd : ZReg) (s : State) : Outcome State Fault Refusal :=
  .next (finish 0 (setZ s zd (uintBe (byteAt s.out0) 16)))

/-- `ZCMP za, zb` (R198): the only command that writes EQ (R38). -/
def execZcmp (za zb : ZReg) (s : State) : Outcome State Fault Refusal :=
  .next (finish 0 { s with eq := zval s za == zval s zb })

end Sys2Proof.Machine
end

