-- ==== Sys2Proof/Machine/Dispatch.lean ====
section
/-! DEFINITION. EXECUTE and completion of a legal command (30_encoding.md R88, R89): one arm per constructor. -/

namespace Sys2Proof.Machine

open Host

def exec (i : Instr) (s : State) : Host.Outcome State Fault Refusal :=
  match i with
  | .nop => Sys2Proof.Machine.execNop s
  | .enc => Sys2Proof.Machine.execEnc s
  | .dec => Sys2Proof.Machine.execDec s
  | .hinit => Sys2Proof.Machine.execHinit s
  | .hblk => Sys2Proof.Machine.execHblk s
  | .hfin nb => Sys2Proof.Machine.execHfin nb s
  | .cinit => Sys2Proof.Machine.execCinit s
  | .cenc => Sys2Proof.Machine.execCenc s
  | .cencf nb => Sys2Proof.Machine.execCencf nb s
  | .cdec => Sys2Proof.Machine.execCdec s
  | .cdecf => Sys2Proof.Machine.execCdecf s
  | .mexp zd za zb zm => Sys2Proof.Machine.execMexp zd za zb zm s
  | .mmul zd za zb zm => Sys2Proof.Machine.execMmul zd za zb zm s
  | .msub zd za zb zm => Sys2Proof.Machine.execMsub zd za zb zm s
  | .mred zd za zm => Sys2Proof.Machine.execMred zd za zm s
  | .zldb zd => Sys2Proof.Machine.execZldb zd s
  | .zcmp za zb => Sys2Proof.Machine.execZcmp za zb s

end Sys2Proof.Machine
end

