-- ==== Sys2Proof/Machine/Engine.lean ====
section
/-! DEFINITION. The engine's one step: the completion of the command in flight (30_encoding.md R88, R89). -/

namespace Sys2Proof.Machine

open Host

/-- The completion of a command word: a legal one has its meaning, an illegal one completes with E_ILLEGAL (R86, R88,
R89, R231). -/
def engineStep (w : Word) (s : State) : Outcome State Fault Refusal :=
  match decode w with
  | .ok i => exec i s
  | .error _ => .next (raise .illegal s)

/-- A command word put where the engine finds its next command: in flight, with no host step before its completion.
CMD and DONE are as its acceptance leaves them (R87). -/
def placeCommand (w : Word) (s : State) : State :=
  { s with cmd := w, pend := some w, done := false, delay := 0 }

/-- One step of the machine: the host's next operation, or the engine's completion (R6, R7, R65).  The engine completes a
command when the free number of host steps has passed, and at once when the host has no operation left (R272); an idle
core whose host has none does nothing (R263; DESIGN CHOICE, assumption log 7). -/
def machineStep (s : State) : Outcome State Fault Refusal :=
  match s.pend, s.delay, s.hostOps with
  | none, _, [] => .next s
  | none, _, op :: ops => hostStep op { s with hostOps := ops }
  | some w, 0, _ => engineStep w s
  | some w, _ + 1, [] => engineStep w s
  | some _, d + 1, op :: ops => hostStep op { s with hostOps := ops, delay := d }

end Sys2Proof.Machine
end

