-- ==== Sys2Proof/Machine/Step.lean ====
section
/-! DEFINITION. The step of the machine, and where it finds its next instruction. -/

namespace Sys2Proof.Machine

/-- One step of the machine (`machineStep`). -/
def step (s : State) : Host.Outcome State Fault Refusal := machineStep s

/-- The state in which the command word of the bits `w` is in flight and completes with the very next step.  This core
fetches nothing (R21, R68): it stands for the host's write of the word to CMD (R87; DESIGN CHOICE, assumption
log 9). -/
def State.withFetchWord (s : State) (nbits w : Nat) : State := placeCommand (wordOfTable nbits w) s

end Sys2Proof.Machine
end

