-- ==== Sys2Proof/Machine/Signature.lean ====
section
/-! DEFINITION. The signature scheme of the source (43_modarith.md R199, R200), on the functions of the modular commands.
-/

namespace Sys2Proof.Machine

/-- The parameter `DOMAIN`: `(p, q, g)`, held by the host and by no register of the core (R8, R20). -/
structure Domain where
  p : Nat
  q : Nat
  g : Nat
  deriving DecidableEq, Repr

/-- The legal values of the parameter `DOMAIN` (R8, R201). -/
def Domain.legal (d : Domain) : Prop :=
  d.p.Prime ∧ d.q.Prime ∧ d.q ∣ d.p - 1 ∧ 1 < d.g ∧ d.g < d.p ∧ d.g ^ d.q % d.p = 1

/-- The ranges of the private key and of the ephemeral number, a duty of the host that no command checks (R201). -/
def Domain.keysInRange (d : Domain) (x k : Nat) : Bool := decide (2 ≤ x ∧ x < d.q ∧ 1 ≤ k ∧ k < d.q)

/-- `MODW` holds the modulus `p`, and so every value below it (R202). -/
def Domain.fits (d : Domain) (modw : Nat) : Bool := decide (d.p < 2 ^ modw)

/-- What Sign returns: the public key `y` and the signature `(r, s)` (R199). -/
structure Signed where
  y : Nat
  r : Nat
  s : Nat
  deriving DecidableEq, Repr

/-- Sign (R199): `r = g^k mod p`, `rho = r mod q`, `s = (h·k - rho·x) mod q`, `y = g^x mod p`, computed as the sequence
of commands of R199 computes them. -/
def sign (d : Domain) (x k h : Nat) : Signed where
  y := powMod d.g x d.p
  r := powMod d.g k d.p
  s := subMod (mulMod h k d.q) (mulMod (powMod d.g k d.p % d.q) x d.q) d.q

/-- Verify (R200): `r^h mod p = (g^s mod p)·(y^rho mod p) mod p` with `rho = r mod q`. -/
def verify (d : Domain) (y r s h : Nat) : Bool :=
  powMod r h d.p == mulMod (powMod d.g s d.p) (powMod y (r % d.q) d.p) d.p

end Sys2Proof.Machine
end

