-- ==== Sys2Proof/Machine/HostPrograms.lean ====
section
/-! DEFINITION. The host's pseudo-operations and the host programs of the rules, as lists of host operations (30_encoding.md
R91, R92; 41_hash.md R147; 42_codec.md R168, R169; 43_modarith.md R199, R200).  Names of values are numbers; name 0 is the
`t` of `wait`.
-/

namespace Sys2Proof.Machine

/-- A multi-word register as the pseudo-operations name it (R92). -/
inductive BlockReg where
  | din | chain | out0 | out1
  deriving DecidableEq, Repr

/-- Word `i` of a block register in the map (R51). -/
def BlockReg.word : BlockReg → Fin 4 → RegWord
  | .din, i => .din i
  | .chain, i => .chain i
  | .out0, i => .out0 i
  | .out1, i => .out1 i

/-- `exec CMDTEXT` (R92): write CMD, then wait. -/
def execOps (i : Instr) : List HostOp := [.wr RegWord.cmd.offset (encode i), .wait 0]

/-- What a block register holds (R24 to R27). -/
def BlockReg.value (s : State) : BlockReg → Block
  | .din => s.din
  | .chain => s.chain
  | .out0 => s.out0
  | .out1 => s.out1

/-- `ldblk R, b0 .. b15` (R92). -/
def ldblk (r : BlockReg) (x : Block) : List HostOp :=
  (List.finRange 4).map fun i => .wr (r.word i).offset (wordAt x i)

/-- `ldkey b0 .. b(n-1)` (R92): the words of the first `n` bytes of the key, for `n` = 16, 24 or 32. -/
def ldkey (n : Nat) (k : KeyReg) : List HostOp :=
  ((List.finRange 8).take ((n + 3) / 4)).map fun i => .wr (RegWord.key i).offset (wordAt k i)

/-- `ldz zn, V` (R92), for a core whose Z registers have `words` words. -/
def ldz (words : Nat) (n : ZReg) (v : Nat) : List HostOp :=
  ((List.finRange 64).take words).map fun i => .wr (RegWord.z n i).offset (wordAt (BitVec.ofNat 2048 v) i)

/-- Reads of register words in order, into the names from `name` on (R91). -/
def readWords : List RegWord → (name : Nat) → List HostOp
  | [], _ => []
  | r :: rs, name => .rd r.offset name :: readWords rs (name + 1)

/-- Writes of the values of the names from `name` on to register words in order (R91). -/
def writeNames : List RegWord → (name : Nat) → List HostOp
  | [], _ => []
  | r :: rs, name => .write 32 r.offset (.var name) :: writeNames rs (name + 1)

/-- The four words of a block register (R51, R52). -/
def BlockReg.words (r : BlockReg) : List RegWord := (List.finRange 4).map r.word

/-- The words of a Z register of `words` words (R51, R54). -/
def zRegWords (words : Nat) (n : ZReg) : List RegWord := ((List.finRange 64).take words).map fun i => .z n i

/-- The four reads of `rdblk R -> name` (R92), into the names from `name` on; the value of `name` is `namedBlock`. -/
def rdblk (r : BlockReg) (name : Nat) : List HostOp := readWords r.words name

/-- The reads of `rdz zn -> name` (R92), into the names from `name` on; the value of `name` is `namedInt`. -/
def rdz (words : Nat) (n : ZReg) (name : Nat) : List HostOp := readWords (zRegWords words n) name

/-- The words read into the `count` names from `name` on, the first one least significant: none if a name has no value. -/
def joinWords (vars : List (Nat × Word)) (name : Nat) : (count : Nat) → Option Nat
  | 0 => some 0
  | count + 1 =>
    match lookupVar name vars, joinWords vars (name + 1) count with
    | some v, some rest => some (v.toNat + 2 ^ 32 * rest)
    | _, _ => none

/-- The block that `rdblk R -> name` gives `name`: the bytes of its four words recombined by R52 (R92). -/
def namedBlock (vars : List (Nat × Word)) (name : Nat) : Option Block :=
  (joinWords vars name 4).map (BitVec.ofNat 128)

/-- The integer that `rdz zn -> name` gives `name`: its words recombined by R54 (R92), for a core whose Z registers have
`words` words. -/
def namedInt (words : Nat) (vars : List (Nat × Word)) (name : Nat) : Option Nat := joinWords vars name words

/-- `clr` (R92): clears DONE, ERR and ECODE. -/
def clr : List HostOp := [.wr RegWord.status.offset 0x6]

/-! ## Commands in sequence -/

/-- One line of the host sequences of R147, R168 and R169: what the host puts into DIN, if it puts anything, and the
command. -/
abbrev Feed := Option Block × Instr

/-- The host operations of one line: `ldblk DIN`, then `exec` (R92). -/
def feedOps (f : Feed) : List HostOp :=
  (match f.1 with
    | some D => ldblk .din D
    | none => []) ++ execOps f.2

/-- The output blocks of a completed command, as NOUT counts them (R39). -/
def outBlocks (t : State) : List Block :=
  match t.nout.toNat with
  | 0 => []
  | 1 => [t.out0]
  | _ => [t.out0, t.out1]

/-- What a sequence of lines computes: the output blocks of its commands in order, and the state after them.  It is the
fold of `exec`; none if a command answered no next state, which no command does. -/
def runFeeds : List Feed → State → Option (List Block × State)
  | [], s => some ([], s)
  | (D, i) :: fs, s =>
    match exec i { s with din := D.getD s.din } with
    | .next t => (runFeeds fs t).map fun (bs, u) => (outBlocks t ++ bs, u)
    | .fault _ => none
    | .refused _ => none

/-- The lines that hash a stream (R147).  The rule writes only `DIN[0 .. r-1]` before HFIN; the line here puts a whole block
into DIN, zeros from byte `r` on, for `r = 0` too (DESIGN CHOICE, assumption log 21). -/
def hashFeeds (stream : List Byte) : List Feed :=
  (none, .hinit) ::
    (List.range (stream.length / 16)).map (fun i => (some (streamBlock stream i), .hblk)) ++
    [(some (blockFrom (streamTail stream)), .hfin (Fin.ofNat 16 stream.length))]

/-- The lines that encrypt a stream (R168).  The last one puts the remaining bytes into DIN with zeros after them (DESIGN
CHOICE, assumption log 21). -/
def encodeFeeds (stream : List Byte) : List Feed :=
  (none, .cinit) ::
    (List.range (stream.length / 16)).map (fun i => (some (streamBlock stream i), .cenc)) ++
    [(some (blockFrom (streamTail stream)), .cencf (Fin.ofNat 16 stream.length))]

/-- The lines that decrypt ciphertext blocks (R169): CDEC for every block but the last, CDECF for that one. -/
def decodeFeeds (cipher : List Block) : List Feed :=
  (none, .cinit) ::
    cipher.dropLast.map (fun c => (some c, .cdec)) ++ cipher.getLast?.toList.map (fun c => (some c, .cdecf))

/-- The host program whose digest is left in OUT0 (R147), with the whole-block writes of `hashFeeds` (DESIGN CHOICE,
assumption log 21). -/
def hashProgram (stream : List Byte) : List HostOp := (hashFeeds stream).flatMap feedOps

/-- The host program that encrypts a stream (R168): the ciphertext blocks go to the names `4·k + 1 ..` in order, and the
last one read, OUT1, is stream data only where NOUT is 2 (DESIGN CHOICE, assumption log 21). -/
def encodeProgram (stream : List Byte) : List HostOp :=
  execOps .cinit ++
    ((encodeFeeds stream).tail.zipIdx.flatMap fun (f, k) => feedOps f ++ rdblk .out0 (4 * k + 1)) ++
    rdblk .out1 (4 * (stream.length / 16) + 5)

/-- The ciphertext of a stream of `len` bytes after `encodeProgram`: as many blocks as R168 says. -/
def encodeOutput (len : Nat) (vars : List (Nat × Word)) : Option (List Block) :=
  (List.range (len / 16 + if len % 16 ≤ 8 then 1 else 2)).mapM fun k => namedBlock vars (4 * k + 1)

/-- The host program that decrypts ciphertext blocks (R169): the decoded blocks go to the names `4·k + 2 ..` in order,
and KEEP to the name 1, all read whether or not CDECF ended with an error (DESIGN CHOICE, assumption log 21). -/
def decodeProgram (cipher : List Block) : List HostOp :=
  execOps .cinit ++
    ((decodeFeeds cipher).tail.zipIdx.flatMap fun (f, k) => feedOps f ++ rdblk .out0 (4 * k + 2)) ++
    [.rd RegWord.keep.offset 1]

/-- What the host outputs after `decodeProgram` of `n` blocks (R169): nothing when CDECF ended with an error, which its
NOUT of 0 tells (R39), in the STATUS that the last `wait` read. -/
def decodeOutput (n : Nat) (vars : List (Nat × Word)) : Option (List Byte) :=
  match lookupVar 0 vars, lookupVar 1 vars, (List.range n).mapM (fun k => namedBlock vars (4 * k + 2)) with
  | some status, some keep, some ps =>
    if status.extractLsb' 4 2 = 0 then none
    else some (keptBytes ps (keep.extractLsb' 0 5).toNat (keep.extractLsb' 8 4).toNat)
  | _, _, _ => none

/-! ## Suspending a stream -/

/-- The register words that a host saves of a hash stream it suspends, CHAIN and LEN, and of a codec stream KEY and CTRL,
which holds KSIZE, as well (70_reset_and_hazards.md R268). -/
def streamWords (codec : Bool) : List RegWord :=
  (List.finRange 4).map .chain ++ [.lenLo, .lenHi] ++
    (if codec then (List.finRange 8).map .key ++ [.ctrl] else [])

/-- The host saves a stream it suspends, word by word into the names from `name` on (R268). -/
def saveStream (codec : Bool) (name : Nat) : List HostOp := readWords (streamWords codec) name

/-- The host resumes the stream it saved in the names from `name` on (R268). -/
def restoreStream (codec : Bool) (name : Nat) : List HostOp := writeNames (streamWords codec) name

/-! ## The signature programs -/

/-- The commands of Sign (R199), with `p, q, g, x, k` in Z0 to Z4 and the digest in OUT0: `r` in Z6, `s` in Z5, `y` in
Z4. -/
def signCommands : List Instr :=
  [.zldb 5, .mexp 6 2 4 0, .mred 7 6 1, .mmul 5 5 4 1, .mmul 7 7 3 1, .msub 5 5 7 1, .mexp 4 2 3 0]

/-- The commands of Verify (R200), with `p, q, g, y, r, s` in Z0 to Z5 and the digest in OUT0: EQ = 1 exactly when the
signature is accepted. -/
def verifyCommands : List Instr :=
  [.zldb 6, .mred 7 4 1, .mexp 6 4 6 0, .mexp 5 2 5 0, .mexp 7 3 7 0, .mmul 5 5 7 0, .zcmp 6 5]

/-- Sign as a host program (R199), after a hash. -/
def signProgram (words : Nat) (d : Domain) (x k : Nat) : List HostOp :=
  ldz words 0 d.p ++ ldz words 1 d.q ++ ldz words 2 d.g ++ ldz words 3 x ++ ldz words 4 k ++
    signCommands.flatMap execOps

/-- Verify as a host program (R200), after a hash. -/
def verifyProgram (words : Nat) (d : Domain) (y r s : Nat) : List HostOp :=
  ldz words 0 d.p ++ ldz words 1 d.q ++ ldz words 2 d.g ++ ldz words 3 y ++ ldz words 4 r ++ ldz words 5 s ++
    verifyCommands.flatMap execOps ++ [.rd RegWord.status.offset 0]

end Sys2Proof.Machine
end

