-- ==== Sys2Proof/Safety.lean ====
section
/-! DEFINITION. What the spec promises of every state the machine reaches, in the terms the statements use: the legal field
values, the agreement of PEND with CMD and DONE, of ERR with ECODE, and the width of the Z registers; and what a safe step
and the end of a run are.
-/

namespace Sys2Proof.Safety

open Sys2Proof.Machine

/-- Every Z register holds a value of `MODW` bits (R22, R190). -/
abbrev ZFits (s : State) : Prop := ∀ r : ZReg, zval s r < 2 ^ s.modw

/-- A command in flight is the one CMD holds, and DONE is 0 while it is: acceptance clears DONE and only a completion sets
it (R31, R36, R42). -/
abbrev PendAgrees (s : State) : Prop := ∀ w, s.pend = some w → s.cmd = w ∧ s.done = false

/-- ERR is 1 exactly when an error code is recorded, and the codes 6 to 15 never are (R37, R231). -/
abbrev ErrAgrees (s : State) : Prop := (s.err = false ↔ s.ecode = 0) ∧ s.ecode.toNat ≤ 5

/-- NOUT is never 3 (R39); KEEPP is 0 or 9 to 16 and KEEPL at most 8 (R30). -/
abbrev FieldsLegal (s : State) : Prop :=
  s.nout.toNat ≤ 2 ∧ (s.keepp = 0 ∨ (9 ≤ s.keepp.toNat ∧ s.keepp.toNat ≤ 16)) ∧ s.keepl.toNat ≤ 8

/-- The invariant of the machine. -/
structure Inv (s : State) : Prop where
  zFits : ZFits s
  pendAgrees : PendAgrees s
  errAgrees : ErrAgrees s
  fieldsLegal : FieldsLegal s

/-! ## The encoding in the words of R85 and R86 -/

/-- The fields that an opcode uses, none for an unassigned opcode: the columns OPC and "fields used" of R85. -/
def usedFields (opc : BitVec 8) : Option (List Field) :=
  if opc ∈ [0x00, 0x01, 0x02, 0x10, 0x11, 0x20, 0x21, 0x23, 0x24] then some []
  else if opc ∈ [0x12, 0x22] then some [.nb]
  else if opc ∈ [0x30, 0x31, 0x32] then some [.zd, .za, .zb, .zm]
  else if opc = 0x33 then some [.zd, .za, .zm]
  else if opc = 0x34 then some [.zd]
  else if opc = 0x35 then some [.za, .zb]
  else none

/-- The word is illegal as R86 defines it: RSV is not 0, the opcode is unassigned, or a field the opcode does not use is
not 0. -/
def Illegal (w : Word) : Prop :=
  rsvOf w ≠ 0 ∨ usedFields (opcOf w) = none ∨
    ∃ used f, usedFields (opcOf w) = some used ∧ f ∉ used ∧ fieldIsZero w f = false

/-! ## The command groups of the rules -/

/-- The key-using commands (R33). -/
def keyUsing : Instr → Bool
  | .enc | .dec | .cenc | .cencf _ | .cdec | .cdecf => true
  | .nop | .hinit | .hblk | .hfin _ | .cinit | .mexp .. | .mmul .. | .msub .. | .mred .. | .zldb _ | .zcmp .. => false

/-- How many bytes of KEY a variant uses (R33). -/
def keyBytes : KeySize → Nat
  | .k128 => 16
  | .k192 => 24
  | .k256 => 32

/-- The modulus register of a command that has one (R191). -/
def modulusOf : Instr → Option ZReg
  | .mexp _ _ _ zm | .mmul _ _ _ zm | .msub _ _ _ zm | .mred _ _ zm => some zm
  | .nop | .enc | .dec | .hinit | .hblk | .hfin _ | .cinit | .cenc | .cencf _ | .cdec | .cdecf | .zldb _
  | .zcmp .. => none

/-- The Z register a command writes, if it writes one (R22). -/
def zWritten : Instr → Option ZReg
  | .mexp zd _ _ _ | .mmul zd _ _ _ | .msub zd _ _ _ | .mred zd _ _ | .zldb zd => some zd
  | .nop | .enc | .dec | .hinit | .hblk | .hfin _ | .cinit | .cenc | .cencf _ | .cdec | .cdecf | .zcmp .. => none

/-- A step outcome: the command completed without error with NOUT = 0, wrote one Z register with a value of which `P`
holds, and changed nothing else (R88, R190). -/
def WritesZ (s : State) (zd : ZReg) (P : Nat → Prop) (o : Host.Outcome State Fault Refusal) : Prop :=
  ∃ t, o = .next t ∧ P (zval t zd) ∧ (∀ r, r ≠ zd → t.z[r] = s.z[r]) ∧
    t = { s with z := t.z, nout := 0, pend := none, done := true, delay := 0 }

/-- The state after a command error with the given code: the completion writes STATUS alone, and ECODE only when no error
is recorded yet (R233, R234). -/
def erred (s : State) (code : BitVec 4) : State :=
  { s with
    nout := 0
    pend := none
    done := true
    delay := 0
    err := true
    ecode := if s.err then s.ecode else code }

/-- It is the engine's turn: the free number of host steps has passed, or the host has none left (R272). -/
def engineTurn (s : State) : Prop := s.delay = 0 ∨ s.hostOps = []

/-- A register word that a host write replaces (column "access" of R51), other than CMD, STATUS and CTRL, whose writes
have rules of their own. -/
def readWrite (s : State) : RegWord → Bool
  | .lenLo | .lenHi | .key _ | .din _ | .chain _ => true
  | .z _ w => w.val < s.zWords
  | .cmd | .status | .ctrl | .keep | .tlenLo | .tlenHi | .zcfg | .out0 _ | .out1 _ | .reserved => false

/-- A read-only register word (R59). -/
def readOnly : RegWord → Bool
  | .keep | .tlenLo | .tlenHi | .zcfg | .out0 _ | .out1 _ => true
  | .cmd | .status | .ctrl | .lenLo | .lenHi | .key _ | .din _ | .chain _ | .z _ _ | .reserved => false

/-! ## Safe steps and the end of a run -/

/-- The host operation is one the core answers: its access is proper and the name it writes has a value (R56, R91). -/
def opAnswered (s : State) (op : HostOp) : Bool :=
  op.wellFormed && (match op with
    | .write _ _ v => (hostValue s v).toBool
    | _ => true)

/-- A step that stops neither with a fault nor with a refusal. -/
def safeStep (s : State) : Prop := ∃ t, step s = .next t

/-- The run has ended: the host has performed its last operation and the core is idle (R276). -/
def ended (s : State) : Bool := s.hostOps.isEmpty && !s.busy

end Sys2Proof.Safety
end

