-- ==== Sys2Proof/Certificates/Slice0/Obligations.lean ====
section
/-! DEFINITION. The statements for the provers.  Each docstring says which rules of spec/ the statement formalises. -/

open Sys2Proof Sys2Proof.Machine Sys2Proof.Safety

/-- For every command, with every operand at every value its field admits, the decoder reads from the encoded word
exactly that command. (30_encoding.md R81, 30_encoding.md R85, 30_encoding.md R90.) -/
def Obligations.DecodeInvertsEncode : Prop :=
  ∀ i : Instr, decode (encode i) = .ok i

/-- Whenever a 32-bit word decodes to a command, encoding that command gives the same word: no bit of a legal word is
ignored. (30_encoding.md R81, 30_encoding.md R84, 30_encoding.md R86.) -/
def Obligations.EncodeInvertsDecode : Prop :=
  ∀ (w : Word) (i : Instr), decode w = .ok i → encode i = w

/-- For every word and every row of the opcode map, w AND mask = match holds exactly when the word decodes to a command
with the mnemonic of the row. (30_encoding.md R85, 30_encoding.md R89.) -/
def Obligations.OpcodeMapRowsAreDecoded : Prop :=
  ∀ (w : Word) (row : OpcodeRow), row ∈ opcodeMap →
    (row.covers w = true ↔ ∃ i, decode w = .ok i ∧ i.mnemonic = row.mnemonic)

/-- A word matches no row of the opcode map exactly when RSV is not 0, its opcode is unassigned, or a field the opcode
does not use is not 0. Such a word is accepted by an idle core like any other, and when the engine completes it the
next state differs only in STATUS: NOUT 0, BUSY 0, DONE 1, ERR 1, and ECODE 1 unless an earlier error is still
recorded (and in the model's own delay counter). (R86.) -/
def Obligations.IllegalWordRecordsEIllegal : Prop :=
  ∀ w : Word,
    (legalWord w = true ↔ ¬ Illegal w) ∧
    (Illegal w →
      (∀ s : State, s.busy = false →
        (busWrite 0x000 w s).pend = some w ∧ (busWrite 0x000 w s).cmd = w) ∧
      (∀ s : State, s.pend = some w → engineTurn s → step s = .next (erred s 1)))

/-- One word of each family, with its bits as R81 lays them out, decodes to the command it stands for. (30_encoding.md
R81, 30_encoding.md R85, 30_encoding.md R90, 95_test_vectors.md section 6.1.) -/
def Obligations.SampleWordsDecode : Prop :=
  decode 0x00000000 = .ok .nop ∧ decode 0x00000002 = .ok .dec ∧ decode 0x00000F12 = .ok (.hfin 15) ∧
    decode 0x00000922 = .ok (.cencf 9) ∧ decode 0x00116030 = .ok (.mexp 6 2 4 0) ∧
    decode 0x00237033 = .ok (.mred 7 6 1) ∧ decode 0x00005034 = .ok (.zldb 5) ∧ decode 0x00170035 = .ok (.zcmp 6 5)

/-- When the host's next operation writes a word to CMD and no command is in flight, the step sets CMD and PEND to the
word, BUSY to 1 and DONE to 0 and changes nothing else of the core (the model's own counters: the operation leaves
the host's list, the free latency is loaded). When a command is in flight and it is the host's turn, CMD, PEND and
DONE keep their values. (R87.) -/
def Obligations.CommandWriteIsAccepted : Prop :=
  ∀ (s : State) (w : Word) (ops : List HostOp), s.hostOps = .wr 0x000 w :: ops →
    (s.pend = none →
      ∃ t, step s = .next t ∧ t.statusWord.getLsbD 0 = true ∧
        t = { s with cmd := w, pend := some w, done := false, hostOps := ops,
                     delay := Config.latency s.accepted, accepted := s.accepted + 1 }) ∧
    (∀ w' d, s.pend = some w' → s.delay = d + 1 →
      ∃ t, step s = .next t ∧ t.cmd = s.cmd ∧ t.pend = s.pend ∧ t.done = s.done)

/-- If a command word is in flight, it decodes to a command i, and it is the engine's turn (the free number of host
steps has passed, or the host has no operation left), then the step of the machine is exec of i at that same state.
(30_encoding.md R88, 30_encoding.md R89.) -/
def Obligations.StepRunsTheCommandInFlight : Prop :=
  ∀ (s : State) (w : Word) (i : Instr),
    s.pend = some w → decode w = .ok i → engineTurn s → step s = exec i s

/-- With a next host operation and no command in flight, or with a command in flight whose free number of host steps has
not passed, the step takes the operation from the list and performs it (in the second case the number of steps left
goes down by one). With no command in flight and no operation left, the step changes nothing. (00_scope.md R6,
00_scope.md R7, 20_memory.md R65, 70_reset_and_hazards.md R263.) -/
def Obligations.StepPerformsTheHostOperation : Prop :=
  ∀ s : State,
    (∀ op ops, s.hostOps = op :: ops → s.pend = none → step s = hostStep op { s with hostOps := ops }) ∧
    (∀ op ops w d, s.hostOps = op :: ops → s.pend = some w → s.delay = d + 1 →
      step s = hostStep op { s with hostOps := ops, delay := d }) ∧
    (s.pend = none → s.hostOps = [] → step s = .next s)

/-- For every command and every state exec answers a next state, with DONE 1 and no command in flight, in which KEY,
DIN, CMD, CTRL, the constants ZCFG and SBOX and the host's own program and values are unchanged: no command stops
the core, with an error or without. (30_encoding.md R88, 10_state.md R36, 10_state.md R23, 10_state.md R24,
60_exceptions.md R230.) -/
def Obligations.EveryCommandCompletes : Prop :=
  ∀ (i : Instr) (s : State), ∃ t, exec i s = .next t ∧ t.done = true ∧ t.busy = false ∧
    t.key = s.key ∧ t.din = s.din ∧ t.cmd = s.cmd ∧ t.ie = s.ie ∧ t.ksize = s.ksize ∧
    t.zsize = s.zsize ∧ t.sbox = s.sbox ∧ t.hostOps = s.hostOps ∧ t.hostVars = s.hostVars ∧
    t.accepted = s.accepted ∧ t.draws = s.draws

/-- In every state NOP completes, and the next state differs only in NOUT 0, DONE 1, BUSY 0 (and the model's delay
counter). (44_control.md R220, 30_encoding.md R88.) -/
def Obligations.NopResult : Prop :=
  ∀ s : State, exec .nop s = .next { s with nout := 0, pend := none, done := true, delay := 0 }

/-- For each of the three key sizes that CTRL.KSIZE selects, ENC writes ENCRYPT(DIN, K) to OUT0, NOUT 1, DONE 1, BUSY 0,
and changes nothing else. ENCRYPT is the rounds of the schedules 1 1 2 2 1 1, 1 2 3 3 2 1 and 1 2 3 4 4 3 2 1 in
order, with K_i the bytes 8(i-1) to 8i-1 of KEY; a round gives x2 and then x1 xor F(x2, K_i); byte j of F(x2, SK) is
byte 2j of C(3, W) = T(W xor SPLIT(T(W xor SPLIT(T(W))))) for the bytes W of x2 and then SK; T is four applications
of the permutation; and the bytes of the permutation and of SPLIT are those of R114 and R116, with A(x, y) = S[x xor
S[y]]. (40_cipher.md R125, 10_state.md R33, 40_cipher.md R112, 40_cipher.md R114, 40_cipher.md R115, 40_cipher.md
R116, 40_cipher.md R117, 40_cipher.md R118, 40_cipher.md R119, 40_cipher.md R120, 40_cipher.md R121, 40_cipher.md
R122.) -/
def Obligations.EncResult : Prop :=
  (∀ (s : State) (ks : KeySize), selectKey s.ksize = some ks →
      exec .enc s = .next { s with out0 := encrypt s.sbox ks s.key s.din,
                                   nout := 1, pend := none, done := true, delay := 0 }) ∧
    (∀ (S : SboxTable) (key : KeyReg) (X : Block) (round : Block → Nat → Block),
      (∀ Y i, round Y i = feistelRound S Y (subKey key i)) →
        encrypt S .k128 key X = [1, 1, 2, 2, 1, 1].foldl round X ∧
        encrypt S .k192 key X = [1, 2, 3, 3, 2, 1].foldl round X ∧
        encrypt S .k256 key X = [1, 2, 3, 4, 4, 3, 2, 1].foldl round X) ∧
    (∀ (key : KeyReg) (i j : Nat), 1 ≤ i → i ≤ 4 → j < 8 →
      byteAt (subKey key i) j = byteAt key (8 * (i - 1) + j)) ∧
    (∀ (S : SboxTable) (X W : Block) (x2 SK : Half) (T : Block → Block),
      (∀ Y, T Y = permute S (permute S (permute S (permute S Y)))) →
      (∀ j, j < 8 → byteAt x2 j = byteAt X (8 + j) ∧ byteAt W j = byteAt x2 j ∧ byteAt W (8 + j) = byteAt SK j) →
      ∀ j, j < 8 →
        byteAt (roundFunction S x2 SK) j = byteAt (T (W ^^^ split (T (W ^^^ split (T W))))) (2 * j) ∧
        byteAt (feistelRound S X SK) j = byteAt x2 j ∧
        byteAt (feistelRound S X SK) (8 + j) = byteAt X j ^^^ byteAt (roundFunction S x2 SK) j) ∧
    (∀ (S : SboxTable) (X : Block) (i : Nat), i < 8 →
      byteAt (permute S X) (2 * i) = sub S (byteAt X i ^^^ sub S (byteAt X (i + 8))) ∧
      byteAt (permute S X) (2 * i + 1) = sub S (byteAt X (i + 8) ^^^ sub S (byteAt X i)) ∧
      byteAt (split X) i = byteAt X (2 * i) ∧ byteAt (split X) (8 + i) = byteAt X (2 * i + 1))

/-- For each of the three key sizes that CTRL.KSIZE selects, DEC writes DECRYPT(DIN, K) to OUT0, NOUT 1, DONE 1, BUSY 0,
and changes nothing else. (40_cipher.md R126, 10_state.md R33.) -/
def Obligations.DecResult : Prop :=
  ∀ (s : State) (ks : KeySize), selectKey s.ksize = some ks →
    exec .dec s = .next { s with out0 := decrypt s.sbox ks s.key s.din,
                                 nout := 1, pend := none, done := true, delay := 0 }

/-- In every state HINIT completes with CHAIN 0^16, LEN 0, NOUT 0 and nothing else changed but DONE and BUSY, and CINIT
gives the same next state. (41_hash.md R144, 42_codec.md R161.) -/
def Obligations.StreamInitResult : Prop :=
  ∀ s : State,
    exec .hinit s = .next { s with chain := 0, len := 0, nout := 0, pend := none, done := true, delay := 0 } ∧
    exec .cinit s = .next { s with chain := 0, len := 0, nout := 0, pend := none, done := true, delay := 0 }

/-- In every state, KSIZE = 3 among them, HBLK completes with CHAIN = ENCRYPT(CHAIN xor DIN, key DIN) xor CHAIN xor DIN
under the 128-bit schedule, LEN + 16 modulo 2^64, NOUT 0 and nothing else changed. (41_hash.md R145, 41_hash.md
R143.) -/
def Obligations.HblkResult : Prop :=
  ∀ s : State,
    exec .hblk s = .next
      { s with chain := encrypt s.sbox .k128 (s.din.setWidth 256) (s.chain ^^^ s.din) ^^^ (s.chain ^^^ s.din),
               len := s.len + 16, nout := 0, pend := none, done := true, delay := 0 }

/-- In every state, with L = LEN + NB modulo 2^64: when PAD gives one block B, CHAIN and OUT0 become COMPRESS(CHAIN, B);
when it gives two, B and B', they become COMPRESS(COMPRESS(CHAIN, B), B'); LEN becomes L, NOUT 1, and nothing else
changes but DONE and BUSY. For every stream, from every state, HINIT, HBLK for each full block and HFIN for the
rest, with zeros after it in DIN (the model's choice, assumption log 21), leave HASH(stream) in OUT0 and CHAIN and
the length modulo 2^64 in LEN; HASH is the fold of COMPRESS from 0^16 over the full blocks and then PAD of the rest,
whose bytes are those of the stream. (41_hash.md R146, 41_hash.md R142, 41_hash.md R143, 41_hash.md R147.) -/
def Obligations.HfinResult : Prop :=
  (∀ (s : State) (nb : Fin 16) (L : BitVec 64), L = s.len + BitVec.ofNat 64 nb.val →
      (∀ B, pad s.din nb L = (B, none) →
        exec (.hfin nb) s = .next
          { s with len := L, chain := compress s.sbox s.chain B, out0 := compress s.sbox s.chain B,
                   nout := 1, pend := none, done := true, delay := 0 }) ∧
      (∀ B B', pad s.din nb L = (B, some B') →
        exec (.hfin nb) s = .next
          { s with len := L, chain := compress s.sbox (compress s.sbox s.chain B) B',
                   out0 := compress s.sbox (compress s.sbox s.chain B) B',
                   nout := 1, pend := none, done := true, delay := 0 })) ∧
    (∀ (s : State) (stream : List Byte),
      ∃ t, runFeeds (hashFeeds stream) s = some ([t.out0], t) ∧ t.out0 = hashStream s.sbox stream ∧
        t.chain = t.out0 ∧ t.len = BitVec.ofNat 64 stream.length) ∧
    (∀ (S : SboxTable) (stream : List Byte),
      hashStream S stream =
        ((List.range (stream.length / 16)).map (streamBlock stream) ++
          (padStream stream).1 :: (padStream stream).2.toList).foldl (compress S) 0) ∧
    (∀ (stream : List Byte) (i j : Nat), j < 16 → 16 * i + j < stream.length →
      stream[16 * i + j]? = some (byteAt (streamBlock stream i) j) ∧
      (i = stream.length / 16 → streamBlock stream i = blockFrom (streamTail stream)))

/-- For each legal KSIZE, CENC writes ENCRYPT(DIN, K) xor CHAIN to OUT0, DIN to CHAIN, LEN + 16 modulo 2^64 to LEN, NOUT
1, and changes nothing else but DONE and BUSY. (42_codec.md R162, 42_codec.md R160.) -/
def Obligations.CencResult : Prop :=
  ∀ (s : State) (ks : KeySize), selectKey s.ksize = some ks →
    exec .cenc s = .next
      { s with out0 := encrypt s.sbox ks s.key s.din ^^^ s.chain, chain := s.din, len := s.len + 16,
               nout := 1, pend := none, done := true, delay := 0 }

/-- For each legal KSIZE, with L = LEN + NB modulo 2^64: one padded block B gives OUT0 = ENCRYPT(B, K) xor CHAIN, CHAIN
= B and NOUT 1, and OUT1 unchanged; two blocks B, B' give also OUT1 = ENCRYPT(B', K) xor B, CHAIN = B' and NOUT 2.
LEN becomes L; nothing else changes but DONE and BUSY. (42_codec.md R163, 41_hash.md R142.) -/
def Obligations.CencfResult : Prop :=
  ∀ (s : State) (ks : KeySize) (nb : Fin 16) (L : BitVec 64),
    selectKey s.ksize = some ks → L = s.len + BitVec.ofNat 64 nb.val →
    (∀ B, pad s.din nb L = (B, none) →
      exec (.cencf nb) s = .next
        { s with out0 := encrypt s.sbox ks s.key B ^^^ s.chain, chain := B, len := L,
                 nout := 1, pend := none, done := true, delay := 0 }) ∧
    (∀ B B', pad s.din nb L = (B, some B') →
      exec (.cencf nb) s = .next
        { s with out0 := encrypt s.sbox ks s.key B ^^^ s.chain, out1 := encrypt s.sbox ks s.key B' ^^^ B,
                 chain := B', len := L, nout := 2, pend := none, done := true, delay := 0 })

/-- For each legal KSIZE, CDEC writes DECRYPT(DIN xor CHAIN, K) to OUT0 and CHAIN, LEN + 16 modulo 2^64 to LEN, NOUT 1,
and changes nothing else but DONE and BUSY. (42_codec.md R164, 42_codec.md R160.) -/
def Obligations.CdecResult : Prop :=
  ∀ (s : State) (ks : KeySize), selectKey s.ksize = some ks →
    exec .cdec s = .next
      { s with out0 := decrypt s.sbox ks s.key (s.din ^^^ s.chain),
               chain := decrypt s.sbox ks s.key (s.din ^^^ s.chain), len := s.len + 16,
               nout := 1, pend := none, done := true, delay := 0 }

/-- For each legal KSIZE, with P = DECRYPT(DIN xor CHAIN, K): when TAIL of P's trailer and LEN gives (kp, kl), CDECF
writes P to OUT0 and CHAIN, the trailer to TLEN, kp and kl to KEEP, LEN + 16 modulo 2^64 to LEN, NOUT 1, and nothing
else but DONE and BUSY. (42_codec.md R165, 42_codec.md R166, 42_codec.md R167.) -/
def Obligations.CdecfResult : Prop :=
  ∀ (s : State) (ks : KeySize) (P : Block) (kp : BitVec 5) (kl : BitVec 4),
    selectKey s.ksize = some ks → P = decrypt s.sbox ks s.key (s.din ^^^ s.chain) →
    tail (trailerLen P) s.len = some (kp, kl) →
    exec .cdecf s = .next
      { s with out0 := P, chain := P, tlen := trailerLen P, keepp := kp, keepl := kl, len := s.len + 16,
               nout := 1, pend := none, done := true, delay := 0 }

/-- For each legal KSIZE, when TAIL finds the trailer inconsistent, the next state differs only in NOUT 0, DONE 1, BUSY
0, ERR 1 and ECODE 5 (unless an earlier error is still recorded). (42_codec.md R165, 42_codec.md R166,
60_exceptions.md R233, 60_exceptions.md R234.) -/
def Obligations.CdecfTrailerError : Prop :=
  ∀ (s : State) (ks : KeySize), selectKey s.ksize = some ks →
    tail (trailerLen (decrypt s.sbox ks s.key (s.din ^^^ s.chain))) s.len = none →
    exec .cdecf s = .next (erred s 5)

/-- Whenever the modulus register is not 0, MEXP completes with Z[ZD] = (Z[ZA] ^ Z[ZB]) mod Z[ZM] of the old values,
exactly, every other Z register unchanged, NOUT 0, and nothing else changed but DONE and BUSY. (43_modarith.md R192,
43_modarith.md R190, 43_modarith.md R193, 43_modarith.md R203.) -/
def Obligations.MexpResult : Prop :=
  ∀ (s : State) (zd za zb zm : ZReg), zval s zm ≠ 0 →
    WritesZ s zd (fun v => v = zval s za ^ zval s zb % zval s zm) (exec (.mexp zd za zb zm) s)

/-- Whenever the modulus register is not 0, MMUL completes with Z[ZD] = (Z[ZA] * Z[ZB]) mod Z[ZM] of the old values, the
product never truncated, and nothing else changed but NOUT 0, DONE and BUSY. (43_modarith.md R194, 43_modarith.md
R190, 43_modarith.md R203.) -/
def Obligations.MmulResult : Prop :=
  ∀ (s : State) (zd za zb zm : ZReg), zval s zm ≠ 0 →
    WritesZ s zd (fun v => v = zval s za * zval s zb % zval s zm) (exec (.mmul zd za zb zm) s)

/-- Whenever the modulus register is not 0, MSUB completes with Z[ZD] = (Z[ZA] - Z[ZB]) mod Z[ZM] over the integers,
non-negative also for a negative difference, and nothing else changed but NOUT 0, DONE and BUSY. (43_modarith.md
R195, 43_modarith.md R190, 43_modarith.md R203, 00_scope.md R11.) -/
def Obligations.MsubResult : Prop :=
  ∀ (s : State) (zd za zb zm : ZReg), zval s zm ≠ 0 →
    WritesZ s zd (fun v => (v : Int) = ((zval s za : Int) - (zval s zb : Int)) % (zval s zm : Int))
      (exec (.msub zd za zb zm) s)

/-- Whenever the modulus register is not 0, MRED completes with Z[ZD] = Z[ZA] mod Z[ZM] of the old values, and nothing
else changed but NOUT 0, DONE and BUSY. (43_modarith.md R197, 43_modarith.md R190, 43_modarith.md R203.) -/
def Obligations.MredResult : Prop :=
  ∀ (s : State) (zd za zm : ZReg), zval s zm ≠ 0 →
    WritesZ s zd (fun v => v = zval s za % zval s zm) (exec (.mred zd za zm) s)

/-- In every state ZLDB completes with Z[ZD] = the sum of OUT0[i] * 256^(15-i), and nothing else changed but NOUT 0,
DONE and BUSY. (43_modarith.md R196, 00_scope.md R12.) -/
def Obligations.ZldbResult : Prop :=
  ∀ (s : State) (zd : ZReg),
    WritesZ s zd (fun v => v = ∑ i ∈ Finset.range 16, (byteAt s.out0 i).toNat * 256 ^ (15 - i)) (exec (.zldb zd) s)

/-- In every state ZCMP completes with EQ = 1 exactly when Z[ZA] = Z[ZB] and nothing else changed but NOUT 0, DONE and
BUSY. (43_modarith.md R198, 10_state.md R38.) -/
def Obligations.ZcmpResult : Prop :=
  ∀ (s : State) (za zb : ZReg),
    exec (.zcmp za zb) s = .next
      { s with eq := decide (s.z[za] = s.z[zb]), nout := 0, pend := none, done := true, delay := 0 }

/-- ENC, DEC, CENC, CENCF, CDEC and CDECF with CTRL.KSIZE = 3 complete with E_KSIZE (code 3) and change nothing but
STATUS, before any other check of theirs; the values 0, 1 and 2 select the 128-, 192- and 256-bit variants.
(10_state.md R33, 60_exceptions.md R231, 60_exceptions.md R233, 60_exceptions.md R236.) -/
def Obligations.ReservedKeySizeRaises : Prop :=
  (selectKey 0 = some .k128 ∧ selectKey 1 = some .k192 ∧ selectKey 2 = some .k256) ∧
    ∀ (s : State) (i : Instr), keyUsing i = true → s.ksize = 3 → exec i s = .next (erred s 3)

/-- Each of the four commands whose modulus register holds 0 completes with E_ZEROMOD (code 4, unless an earlier error
is still recorded) and changes nothing but STATUS. (R191.) -/
def Obligations.ZeroModulusRaises : Prop :=
  ∀ (s : State) (i : Instr) (zm : ZReg), modulusOf i = some zm → zval s zm = 0 → exec i s = .next (erred s 4)

/-- For every S-box, key size, key and block: DECRYPT(X) = V(ENCRYPT(V(X))), DECRYPT(ENCRYPT(X)) = X and
ENCRYPT(DECRYPT(X)) = X. (R124.) -/
def Obligations.DecryptInvertsEncrypt : Prop :=
  ∀ (S : SboxTable) (ks : KeySize) (key : KeyReg) (X : Block),
    decrypt S ks key X = swapHalves (encrypt S ks key (swapHalves X)) ∧
    decrypt S ks key (encrypt S ks key X) = X ∧ encrypt S ks key (decrypt S ks key X) = X

/-- For r at most 8 there is one terminal block: bytes 8 to 15 are the length, most significant byte first, and below
them come the r data bytes, the marker 0x40 at byte r (lost to the trailer when r = 8) and zeros. For r from 9 on
there are two: the data, marker and zeros, and then eight zero bytes and the length. No byte of D from r on is used.
(R142.) -/
def Obligations.PadBytes : Prop :=
  ∀ (D : Block) (r : Fin 16) (L : BitVec 64),
    (r.val ≤ 8 → (pad D r L).2 = none ∧ ∀ j, j < 16 →
      byteAt (pad D r L).1 j =
        if 8 ≤ j then BitVec.ofNat 8 (L.toNat / 256 ^ (15 - j))
        else if j < r.val then byteAt D j else if j = r.val then 0x40 else 0) ∧
    (9 ≤ r.val →
      (∀ j, j < 16 → byteAt (pad D r L).1 j = if j < r.val then byteAt D j else if j = r.val then 0x40 else 0) ∧
      ∃ B, (pad D r L).2 = some B ∧
        ∀ j, j < 16 → byteAt B j = if 8 ≤ j then BitVec.ofNat 8 (L.toNat / 256 ^ (15 - j)) else 0)

/-- With L and base as unsigned 64-bit values: if L >= base and L - base <= 8, KEEPL is L - base and KEEPP is 16, or 0
when base < 16; if L < base, base >= 16 and 9 <= L - (base - 16) <= 15, KEEPP is L - (base - 16) and KEEPL is 0;
otherwise E_TRAILER. (R166.) -/
def Obligations.TailMatchesRule : Prop :=
  ∀ (L base : BitVec 64) (l b : Int), l = (L.toNat : Int) → b = (base.toNat : Int) →
    (b ≤ l ∧ l - b ≤ 8 →
      ∃ kp kl, tail L base = some (kp, kl) ∧ (kl.toNat : Int) = l - b ∧ kp.toNat = if 16 ≤ b then 16 else 0) ∧
    (l < b ∧ 16 ≤ b ∧ 9 ≤ l - (b - 16) ∧ l - (b - 16) ≤ 15 →
      ∃ kp kl, tail L base = some (kp, kl) ∧ (kp.toNat : Int) = l - (b - 16) ∧ kl = 0) ∧
    (¬ (b ≤ l ∧ l - b ≤ 8) → ¬ (l < b ∧ 16 ≤ b ∧ 9 ≤ l - (b - 16) ∧ l - (b - 16) ≤ 15) → tail L base = none)

/-- Two KEY contents that agree on the first 16, 24 or 32 bytes encrypt and decrypt every block to the same block under
that key size. (10_state.md R23, 40_cipher.md R120, 40_cipher.md R125.) -/
def Obligations.UnusedKeyBytesIgnored : Prop :=
  ∀ (S : SboxTable) (ks : KeySize) (key key' : KeyReg) (X : Block),
    (∀ j, j < keyBytes ks → byteAt key j = byteAt key' j) →
    encrypt S ks key X = encrypt S ks key' X ∧ decrypt S ks key X = decrypt S ks key' X

/-- If a block agrees with DIN on its first NB bytes, HFIN NB and CENCF NB with that block in DIN give the same next
state but for DIN itself. (R271.) -/
def Obligations.StaleInputBytesIgnored : Prop :=
  ∀ (s t : State) (nb : Fin 16) (D : Block), (∀ j, j < nb.val → byteAt s.din j = byteAt D j) →
    (exec (.hfin nb) s = .next t → exec (.hfin nb) { s with din := D } = .next { t with din := D }) ∧
    (exec (.cencf nb) s = .next t → exec (.cencf nb) { s with din := D } = .next { t with din := D })

/-- For each legal KSIZE: ENC and then DEC with DIN holding the ciphertext leave the original DIN in OUT0; and CDEC,
from the same CHAIN and LEN with the ciphertext of CENC in DIN, gives the original DIN in OUT0 and the CHAIN and LEN
that CENC gives. (40_cipher.md R126, 42_codec.md R162, 42_codec.md R164, 42_codec.md R160.) -/
def Obligations.DecryptCommandsInvertEncryptCommands : Prop :=
  ∀ (s : State) (ks : KeySize), selectKey s.ksize = some ks →
    (∃ t u, exec .enc s = .next t ∧ exec .dec { t with din := t.out0 } = .next u ∧ u.out0 = s.din) ∧
    (∃ t u, exec .cenc s = .next t ∧ exec .cdec { s with din := t.out0 } = .next u ∧
      u.out0 = s.din ∧ u.chain = t.chain ∧ u.len = t.len)

/-- For every S-box, key size, key and byte stream shorter than 2^64 bytes: decoding the encoded stream gives exactly
the stream when its length is at most 2^64 - 8. For the seven longer lengths LEN, taken modulo 2^64, is 0 at CDECF,
and TAIL reports E_TRAILER: there R166 with R28 overrides the sentence of R169 (assumption log 6). From every state
with a legal KSIZE: CINIT, CENC for each full block and CENCF for the rest, with zeros after it in DIN (the model's
choice, assumption log 21), put out exactly the blocks of the encoded stream, one or two more than its full blocks
as R168 counts them; and CINIT, CDEC for each block but the last and CDECF for that one, for at least one block, end
with NOUT 0 exactly when there is no decoded stream, and otherwise the host's output by KEEP of the blocks put out
is the decoded stream. (42_codec.md R160, 42_codec.md R165, 42_codec.md R166, 42_codec.md R168, 42_codec.md R169,
10_state.md R28.) -/
def Obligations.CodecRoundTrip : Prop :=
  (∀ (S : SboxTable) (ks : KeySize) (key : KeyReg) (stream : List Byte), stream.length < 2 ^ 64 →
      decodeStream S ks key (encodeStream S ks key stream) =
        if stream.length + 8 ≤ 2 ^ 64 then some stream else none) ∧
    (∀ (s : State) (ks : KeySize), selectKey s.ksize = some ks →
      (∀ stream : List Byte,
        (∃ t, runFeeds (encodeFeeds stream) s = some (encodeStream s.sbox ks s.key stream, t)) ∧
        (encodeStream s.sbox ks s.key stream).length =
          stream.length / 16 + if stream.length % 16 ≤ 8 then 1 else 2) ∧
      (∀ cipher : List Block, cipher ≠ [] →
        ∃ ps t, runFeeds (decodeFeeds cipher) s = some (ps, t) ∧
          decodeStream s.sbox ks s.key cipher =
            if t.nout = 0 then none else some (keptBytes ps t.keepp.toNat t.keepl.toNat)))

/-- For q > 0: r = g^k mod p, y = g^x mod p and s = (h*k - (r mod q)*x) mod q as an integer; and Verify accepts exactly
when r^h mod p = (g^s mod p)*(y^(r mod q) mod p) mod p. From every state with p and q, not 0, and g in Z0, Z1 and
Z2, and h the digest in OUT0 as an integer: the commands of R199, with x and k in Z3 and Z4, leave r in Z6, s in Z5
and y in Z4; the commands of R200, with y, r and s in Z3, Z4 and Z5, leave EQ = 1 exactly when Verify accepts; both
complete without an error. (43_modarith.md R199, 43_modarith.md R200.) -/
def Obligations.SignatureEquations : Prop :=
  (∀ (d : Domain), 0 < d.q →
      (∀ x k h : Nat, (sign d x k h).r = d.g ^ k % d.p ∧ (sign d x k h).y = d.g ^ x % d.p ∧
        ((sign d x k h).s : Int) = ((h : Int) * k - ((d.g ^ k % d.p % d.q : Nat) : Int) * x) % (d.q : Int)) ∧
      (∀ y r s h : Nat, verify d y r s h = true ↔
        r ^ h % d.p = (d.g ^ s % d.p) * (y ^ (r % d.q) % d.p) % d.p)) ∧
    (signCommands = [.zldb 5, .mexp 6 2 4 0, .mred 7 6 1, .mmul 5 5 4 1, .mmul 7 7 3 1, .msub 5 5 7 1, .mexp 4 2 3 0] ∧
      verifyCommands =
        [.zldb 6, .mred 7 4 1, .mexp 6 4 6 0, .mexp 5 2 5 0, .mexp 7 3 7 0, .mmul 5 5 7 0, .zcmp 6 5]) ∧
    (∀ (s : State) (d : Domain) (h : Nat),
      d = { p := zval s 0, q := zval s 1, g := zval s 2 } → 0 < d.p → 0 < d.q →
      h = ∑ i ∈ Finset.range 16, (byteAt s.out0 i).toNat * 256 ^ (15 - i) →
      (∃ t, runFeeds (signCommands.map fun i => (none, i)) s = some ([], t) ∧
        sign d (zval s 3) (zval s 4) h = { y := zval t 4, r := zval t 6, s := zval t 5 } ∧
        t.err = s.err ∧ t.ecode = s.ecode) ∧
      (∃ t, runFeeds (verifyCommands.map fun i => (none, i)) s = some ([], t) ∧
        t.eq = verify d (zval s 3) (zval s 4) (zval s 5) h ∧ t.err = s.err ∧ t.ecode = s.ecode))

/-- For every domain with q > 0 and g^q mod p = 1, every x and k and every digest h, Verify accepts what Sign returns.
And whenever the commands of R199 lead from a state with such p, q and g, p not 0, in Z0, Z1 and Z2 to a state t,
the commands of R200 lead from every state with the same digest in OUT0 and p, q, g and the y, r and s of t in Z0 to
Z5 to a state with EQ = 1. (43_modarith.md R200, 43_modarith.md R199.) -/
def Obligations.SignThenVerifyAccepts : Prop :=
  (∀ (d : Domain) (x k h : Nat), 0 < d.q → d.g ^ d.q % d.p = 1 →
      verify d (sign d x k h).y (sign d x k h).r (sign d x k h).s h = true) ∧
    (∀ s t u : State, ∀ bs : List Block, zval s 0 ≠ 0 → zval s 1 ≠ 0 → zval s 2 ^ zval s 1 % zval s 0 = 1 →
      runFeeds (signCommands.map fun i => (none, i)) s = some (bs, t) →
      u.out0 = s.out0 → zval u 0 = zval s 0 → zval u 1 = zval s 1 → zval u 2 = zval s 2 →
      zval u 3 = zval t 4 → zval u 4 = zval t 6 → zval u 5 = zval t 5 →
      ∃ v, runFeeds (verifyCommands.map fun i => (none, i)) u = some ([], v) ∧ v.eq = true)

/-- The table State.reset holds, which is the spec's default value of the parameter SBOX (assumption log 2), has S[0] =
1, S[x+1] = 2*S[x] reduced by 0x165 for x < 254, S[255] = 0, and is a permutation. (40_cipher.md R111, 00_scope.md
R8.) -/
def Obligations.DefaultSboxRule : Prop :=
  sub State.reset.sbox 0 = 1 ∧ sub State.reset.sbox 255 = 0 ∧
    (∀ x : Fin 254, (sub State.reset.sbox (BitVec.ofNat 8 (x.val + 1))).toNat =
      (let v := 2 * (sub State.reset.sbox (BitVec.ofNat 8 x.val)).toNat
       if v < 256 then v else v ^^^ 0x165)) ∧
    (∀ x y : Byte, sub State.reset.sbox x = sub State.reset.sbox y → x = y)

/-- CMD, STATUS, CTRL, KEEP, LEN, TLEN and ZCFG stand at 0x000 to 0x020; word i of KEY, DIN, OUT0, OUT1 and CHAIN at the
base offset plus 4*i; word w of Zn at 0x100 + 0x100*n + 4*w. (20_memory.md R51.) -/
def Obligations.RegisterMapOffsets : Prop :=
  (regAt 0x000 = .cmd ∧ regAt 0x004 = .status ∧ regAt 0x008 = .ctrl ∧ regAt 0x00C = .keep ∧ regAt 0x010 = .lenLo ∧
      regAt 0x014 = .lenHi ∧ regAt 0x018 = .tlenLo ∧ regAt 0x01C = .tlenHi ∧ regAt 0x020 = .zcfg) ∧
    (∀ i : Fin 8, regAt (BitVec.ofNat 12 (0x040 + 4 * i.val)) = .key i) ∧
    (∀ i : Fin 4, regAt (BitVec.ofNat 12 (0x060 + 4 * i.val)) = .din i) ∧
    (∀ i : Fin 4, regAt (BitVec.ofNat 12 (0x070 + 4 * i.val)) = .out0 i) ∧
    (∀ i : Fin 4, regAt (BitVec.ofNat 12 (0x080 + 4 * i.val)) = .out1 i) ∧
    (∀ i : Fin 4, regAt (BitVec.ofNat 12 (0x090 + 4 * i.val)) = .chain i) ∧
    (∀ (n : ZReg) (w : Fin 64), regAt (BitVec.ofNat 12 (0x100 + 0x100 * n.val + 4 * w.val)) = .z n w)

/-- For every offset in 0x024-0x03F, 0x0A0-0x0FF and 0x900-0xFFF, in every state, busy or not: a read gives 0 and
changes nothing, and a write changes nothing. (R58.) -/
def Obligations.ReservedOffsetsReadZero : Prop :=
  ∀ (s : State) (off : Offset) (v : Word),
    (0x024 ≤ off.toNat ∧ off.toNat < 0x040 ∨ 0x0A0 ≤ off.toNat ∧ off.toNat < 0x100 ∨ 0x900 ≤ off.toNat) →
    busRead off s = (0, s) ∧ busWrite off v s = s

/-- In every state, busy or not, word w >= MODW/32 of a Z register reads 0 and a write to it changes nothing and records
no error. That this holds while busy is the model's reading of R54 (assumption log 5). (20_memory.md R54,
20_memory.md R60, 20_memory.md R61, 93_implementation_defined.md U6.) -/
def Obligations.HighZWordsAreReserved : Prop :=
  ∀ (s : State) (n : ZReg) (w : Fin 64) (v : Word), s.zWords ≤ w.val →
    busRead (RegWord.z n w).offset s = (0, s) ∧ busWrite (RegWord.z n w).offset v s = s

/-- With no command in flight: a write to a word of KEY, DIN, CHAIN, LEN or (below MODW/32) a Z register makes that word
read as written and leaves every other register word as it read before; a write to CTRL holds bits 0 and 5:4 and
changes nothing else; a write to KEEP, TLEN, ZCFG, OUT0 or OUT1 changes nothing. When the host saves a stream of an
idle core into names and later restores these names into an idle core, CHAIN and LEN are as saved, and for a codec
stream KEY and CTRL as well. (20_memory.md R51, 20_memory.md R56, 20_memory.md R59, 20_memory.md R63, 10_state.md
R32, 70_reset_and_hazards.md R268.) -/
def Obligations.WrittenWordReadsBack : Prop :=
  (∀ (s : State) (r : RegWord) (v : Word), s.busy = false →
      (readWrite s r = true →
        readWord (busWrite r.offset v s) r = v ∧
        ∀ r', r' ≠ r → readWord (busWrite r.offset v s) r' = readWord s r') ∧
      (r = .ctrl → busWrite r.offset v s = { s with ie := v.getLsbD 0, ksize := v.extractLsb' 4 2 }) ∧
      (readOnly r = true → busWrite r.offset v s = s)) ∧
    (∀ (codec : Bool) (name : Nat) (s u : State) (ops ops' : List HostOp),
      s.busy = false → s.hostOps = saveStream codec name ++ ops →
      u.busy = false → u.hostOps = restoreStream codec name ++ ops' →
      ∃ t : State, Sys2Proof.core.run (streamWords codec).length s = .next t ∧ t.hostOps = ops ∧
        ((∀ k, k < 15 → lookupVar (name + k) u.hostVars = lookupVar (name + k) t.hostVars) →
          ∃ v : State, Sys2Proof.core.run (streamWords codec).length u = .next v ∧ v.hostOps = ops' ∧
            v.chain = s.chain ∧ v.len = s.len ∧
            (codec = true → v.key = s.key ∧ v.ie = s.ie ∧ v.ksize = s.ksize)))

/-- In an idle core, for w < MODW/32, word w of Zn reads bits 32w+31:32w of the register, and a write replaces exactly
those bits and changes nothing else; for w >= MODW/32 a read gives 0 and a write changes nothing. (R54.) -/
def Obligations.ZRegisterWords : Prop :=
  ∀ (s : State) (n : ZReg) (w : Fin 64) (v : Word), s.busy = false →
    (w.val < s.modw / 32 →
      (∀ k, k < 32 → (busRead (RegWord.z n w).offset s).1.getLsbD k = s.z[n].getLsbD (32 * w.val + k)) ∧
      (∀ k, k < 2048 → (busWrite (RegWord.z n w).offset v s).z[n].getLsbD k =
        if 32 * w.val ≤ k ∧ k < 32 * w.val + 32 then v.getLsbD (k - 32 * w.val) else s.z[n].getLsbD k) ∧
      (∀ m, m ≠ n → (busWrite (RegWord.z n w).offset v s).z[m] = s.z[m]) ∧
      busWrite (RegWord.z n w).offset v s = { s with z := (busWrite (RegWord.z n w).offset v s).z }) ∧
    (s.modw / 32 ≤ w.val →
      busRead (RegWord.z n w).offset s = (0, s) ∧ busWrite (RegWord.z n w).offset v s = s)

/-- With a command in flight, such a write changes nothing but ERR and ECODE: ERR becomes 1 and, if no error was
recorded, ECODE becomes 2. CMD is among the words so protected. (R235, R61.) -/
def Obligations.BusyWritesAreLost : Prop :=
  ∀ (s : State) (off : Offset) (v : Word), s.busy = true → regAt off ≠ .status → (regAt off).isReserved s = false →
    busWrite off v s = { s with err := true, ecode := if s.err then s.ecode else 2 }

/-- In every state, busy or not: bit 1 of the written word clears DONE, bit 2 clears ERR and sets ECODE to 0, and
nothing else changes. (R62.) -/
def Obligations.StatusWriteClears : Prop :=
  ∀ (s : State) (v : Word),
    busWrite 0x004 v s =
      { s with done := s.done && !v.getLsbD 1, err := s.err && !v.getLsbD 2,
               ecode := if v.getLsbD 2 then 0 else s.ecode }

/-- An idle core reads every word exactly and unchanged: byte j of KEY, DIN, OUT0, OUT1 and CHAIN in bits 8(j mod 4)+7
to 8(j mod 4) of word j/4, the halves of LEN and TLEN with the low one first, the fields of STATUS, CTRL and KEEP at
their bits and every other bit 0. In an idle core the reads of rdblk and of rdz leave the register's value as the
value of the name. In a busy core CMD, CTRL and ZCFG read exactly; STATUS reads its exact bits but for bits 3 and
5:4, which are those of the next free draw; every other word that is not reserved reads the next free draw; and only
the model's count of draws changes. (20_memory.md R60, 93_implementation_defined.md U1, 20_memory.md R52,
20_memory.md R53, 20_memory.md R55, 10_state.md R30, 10_state.md R32, 10_state.md R34, 30_encoding.md R92.) -/
def Obligations.BusyReads : Prop :=
  ∀ s : State,
    (s.busy = false → ∀ off, busRead off s = (readWord s (regAt off), s)) ∧
    ((∀ j, j < 32 → byteAt s.key j = (readWord s (.key (Fin.ofNat 8 (j / 4)))).extractLsb' (8 * (j % 4)) 8) ∧
      (∀ j, j < 16 →
        byteAt s.din j = (readWord s (.din (Fin.ofNat 4 (j / 4)))).extractLsb' (8 * (j % 4)) 8 ∧
        byteAt s.out0 j = (readWord s (.out0 (Fin.ofNat 4 (j / 4)))).extractLsb' (8 * (j % 4)) 8 ∧
        byteAt s.out1 j = (readWord s (.out1 (Fin.ofNat 4 (j / 4)))).extractLsb' (8 * (j % 4)) 8 ∧
        byteAt s.chain j = (readWord s (.chain (Fin.ofNat 4 (j / 4)))).extractLsb' (8 * (j % 4)) 8) ∧
      (readWord s .lenLo).toNat + 2 ^ 32 * (readWord s .lenHi).toNat = s.len.toNat ∧
      (readWord s .tlenLo).toNat + 2 ^ 32 * (readWord s .tlenHi).toNat = s.tlen.toNat) ∧
    (∀ k, k < 32 →
      (readWord s .status).getLsbD k =
        (if k = 0 then s.busy else if k = 1 then s.done else if k = 2 then s.err else if k = 3 then s.eq
         else if 4 ≤ k ∧ k ≤ 5 then s.nout.getLsbD (k - 4) else if 8 ≤ k ∧ k ≤ 11 then s.ecode.getLsbD (k - 8)
         else false) ∧
      (readWord s .ctrl).getLsbD k =
        (if k = 0 then s.ie else if 4 ≤ k ∧ k ≤ 5 then s.ksize.getLsbD (k - 4) else false) ∧
      (readWord s .keep).getLsbD k =
        (if k ≤ 4 then s.keepp.getLsbD k else if 8 ≤ k ∧ k ≤ 11 then s.keepl.getLsbD (k - 8) else false)) ∧
    (s.busy = false → ∀ (name : Nat) (ops : List HostOp),
      (∀ r : BlockReg, s.hostOps = rdblk r name ++ ops →
        ∃ t : State, Sys2Proof.core.run 4 s = .next t ∧ t.hostOps = ops ∧ namedBlock t.hostVars name = some (r.value s)) ∧
      (∀ n : ZReg, s.hostOps = rdz s.zWords n name ++ ops →
        ∃ t : State, Sys2Proof.core.run s.zWords s = .next t ∧ t.hostOps = ops ∧
          namedInt s.zWords t.hostVars name = some (zval s n % 2 ^ s.modw))) ∧
    (s.busy = true →
      busRead 0x000 s = (s.cmd, s) ∧ busRead 0x008 s = (s.ctrlWord, s) ∧ busRead 0x020 s = (s.zcfgWord, s) ∧
      (busRead 0x004 s).2 = { s with draws := s.draws + 1 } ∧
      (∀ k, k < 32 → (busRead 0x004 s).1.getLsbD k =
        if k = 3 ∨ k = 4 ∨ k = 5 then (Config.draw s.draws).getLsbD k else s.statusWord.getLsbD k) ∧
      (∀ off, regAt off ∉ [.cmd, .status, .ctrl, .zcfg] → (regAt off).isReserved s = false →
        busRead off s = (Config.draw s.draws, { s with draws := s.draws + 1 })))

/-- In the host's step, a read or a write whose width is not 32 or whose offset is not a multiple of 4 faults with a bus
error; a proper read answers a next state, and so does a proper write of a number. (20_memory.md R56, 20_memory.md
R57, 93_implementation_defined.md U3.) -/
def Obligations.BusErrorsFault : Prop :=
  ∀ (s : State) (width : Nat) (off : Offset) (x : Word) (v : HostVal) (n : Nat),
    (width ≠ 32 ∨ off.toNat % 4 ≠ 0 →
      hostStep (.read width off n) s = .fault (.busError width off) ∧
      hostStep (.write width off v) s = .fault (.busError width off)) ∧
    (width = 32 → off.toNat % 4 = 0 →
      hostStep (.read width off n) s = .next (hostRead off n s) ∧
      hostStep (.write width off (.lit x)) s = .next (busWrite off x s))

/-- Outside the busy window a second read of the same word gives the same value; and in every state a second write of
the same value to a word other than CMD and STATUS changes nothing more. (R64.) -/
def Obligations.AccessesAreIdempotent : Prop :=
  ∀ (s : State) (off : Offset) (v : Word),
    (s.busy = false → (busRead off (busRead off s).2).1 = (busRead off s).1) ∧
    (regAt off ≠ .cmd → regAt off ≠ .status → busWrite off v (busWrite off v s) = busWrite off v s)

/-- Recording an error with ERR = 0 sets ERR and the code of R231; with ERR = 1 it changes nothing. (R234.) -/
def Obligations.FirstErrorIsKept : Prop :=
  ∀ (e : ErrorCode) (s : State),
    (s.err = false → recordError e s = { s with err := true, ecode := e.code }) ∧
    (s.err = true → recordError e s = s)

/-- If a step leaves a state with ERR = 1, then either ERR and ECODE are unchanged, or the host had its turn and the
step performed a write to STATUS of a value with bit 2 set, or the event reset. (10_state.md R37, 60_exceptions.md
R241.) -/
def Obligations.ErrorClearedOnlyByHostOrReset : Prop :=
  ∀ s t : State, step s = .next t → s.err = true →
    (t.err = true ∧ t.ecode = s.ecode) ∨
    ((s.pend = none ∨ s.delay ≠ 0) ∧
      ∃ v x ops, s.hostOps = .write 32 0x004 v :: ops ∧ hostValue s v = .ok x ∧ x.getLsbD 2 = true) ∨
    ((s.pend = none ∨ s.delay ≠ 0) ∧ ∃ ops, s.hostOps = .reset :: ops)

/-- If a step changes EQ, then it was the engine's turn and it completed a ZCMP, and EQ is the comparison of its two
registers, or the host had its turn and the step performed the event reset. (10_state.md R38, 43_modarith.md R198.) -/
def Obligations.EqWrittenOnlyByZcmp : Prop :=
  ∀ s t : State, step s = .next t → t.eq ≠ s.eq →
    (engineTurn s ∧
      ∃ w za zb, s.pend = some w ∧ decode w = .ok (.zcmp za zb) ∧ t.eq = decide (s.z[za] = s.z[zb])) ∨
    ((s.pend = none ∨ s.delay ≠ 0) ∧ ∃ ops, s.hostOps = .reset :: ops)

/-- OUT1 is changed by CENCF alone; TLEN and KEEP by CDECF alone; OUT0 by ENC, DEC, HFIN and the four codec block
commands; CHAIN and LEN by the hash and codec commands; a Z register only by the command that names it as ZD.
(10_state.md R22, 10_state.md R25, 10_state.md R26, 10_state.md R27, 10_state.md R28, 10_state.md R29, 10_state.md
R30.) -/
def Obligations.ResultRegistersHaveTheirWriters : Prop :=
  ∀ (i : Instr) (s t : State), exec i s = .next t →
    (t.out1 ≠ s.out1 → ∃ nb, i = .cencf nb) ∧
    (t.tlen ≠ s.tlen ∨ t.keepp ≠ s.keepp ∨ t.keepl ≠ s.keepl → i = .cdecf) ∧
    (t.out0 ≠ s.out0 → (∃ nb, i = .hfin nb) ∨ (∃ nb, i = .cencf nb) ∨ i ∈ [.enc, .dec, .cenc, .cdec, .cdecf]) ∧
    (t.chain ≠ s.chain ∨ t.len ≠ s.len →
      (∃ nb, i = .hfin nb) ∨ (∃ nb, i = .cencf nb) ∨ i ∈ [.hinit, .hblk, .cinit, .cenc, .cdec, .cdecf]) ∧
    (∀ r : ZReg, t.z[r] ≠ s.z[r] → zWritten i = some r)

/-- With IE = 1 every command leaves IRQ = 1, with an error or without; writing 1 to STATUS bits 1 and 2, or 0 to CTRL
bit 0 of an idle core, leaves IRQ = 0; accepting a command leaves IRQ = IE AND ERR. (10_state.md R43,
60_exceptions.md R237, 60_exceptions.md R238.) -/
def Obligations.CompletionRaisesInterrupt : Prop :=
  ∀ s : State,
    s.irq = (s.ie && (s.done || s.err)) ∧
    (s.ie = true → ∀ i t, exec i s = .next t → t.irq = true) ∧
    (∀ v : Word, v.getLsbD 1 = true → v.getLsbD 2 = true → (busWrite 0x004 v s).irq = false) ∧
    (s.busy = false → ∀ v : Word, v.getLsbD 0 = false → (busWrite 0x008 v s).irq = false) ∧
    (s.busy = false → ∀ w : Word, (busWrite 0x000 w s).irq = (s.ie && s.err))

/-- In State.reset, and after the event reset from any state in which the host has its turn: every register word but
ZCFG reads 0, no command is in flight and IRQ is 0; the event leaves ZCFG and the S-box as they were. ZCFG of
State.reset reads the open parameter MODW/32 (assumption log 3). (10_state.md R44, 70_reset_and_hazards.md R260,
70_reset_and_hazards.md R261, 70_reset_and_hazards.md R262, 70_reset_and_hazards.md R263.) -/
def Obligations.ResetLeaves : Prop :=
  (∀ r : RegWord, r ≠ .zcfg → readWord State.reset r = 0) ∧ State.reset.busy = false ∧ State.reset.irq = false ∧
    readWord State.reset .zcfg = BitVec.ofNat 32 (4 + Config.zSize.val) ∧
    (∀ (s : State) (ops : List HostOp), s.hostOps = .reset :: ops → (s.pend = none ∨ s.delay ≠ 0) →
      ∃ t, step s = .next t ∧ (∀ r : RegWord, r ≠ .zcfg → readWord t r = 0) ∧ t.busy = false ∧ t.irq = false ∧
        readWord t .zcfg = readWord s .zcfg ∧ t.sbox = s.sbox ∧ t.hostOps = ops)

/-- In every state ZCFG is MODW/32, at least 4 and at most 64, with bits 31:8 zero; and no step, the event reset among
them, changes ZCFG or the S-box. (R40, R262.) -/
def Obligations.ConstantsNeverChange : Prop :=
  (∀ s : State, s.zcfgWord.toNat = s.modw / 32 ∧ 4 ≤ s.zcfgWord.toNat ∧ s.zcfgWord.toNat ≤ 64) ∧
    (∀ s t : State, step s = .next t → t.zcfgWord = s.zcfgWord ∧ t.modw = s.modw ∧ t.sbox = s.sbox)

/-- If a command is in flight and the host performs an operation other than reset, the command stays in flight and KEY,
DIN, OUT0, OUT1, CHAIN, LEN, TLEN, KEEP, CMD, CTRL, EQ, NOUT and every Z register keep their values: the command
completes on the operands as they were at its acceptance. (20_memory.md R61, 20_memory.md R65, 30_encoding.md R88,
60_exceptions.md R232.) -/
def Obligations.OperandsHeldWhileBusy : Prop :=
  ∀ (s t : State) (w : Word) (d : Nat) (op : HostOp) (ops : List HostOp),
    s.pend = some w → s.delay = d + 1 → s.hostOps = op :: ops → op ≠ .reset → step s = .next t →
    t.pend = some w ∧ t.key = s.key ∧ t.din = s.din ∧ t.out0 = s.out0 ∧ t.out1 = s.out1 ∧ t.chain = s.chain ∧
    t.len = s.len ∧ t.tlen = s.tlen ∧ t.keepp = s.keepp ∧ t.keepl = s.keepl ∧ t.cmd = s.cmd ∧ t.ie = s.ie ∧
    t.ksize = s.ksize ∧ t.eq = s.eq ∧ t.nout = s.nout ∧ t.z = s.z

/-- From every state with a command in flight and a wait as the host's next operation, whatever the number d of host
steps left before the completion, d + 2 steps of the machine lead to a state in which no command is in flight, the
wait is done, and the STATUS it read last has BUSY = 0. (30_encoding.md R92, 70_reset_and_hazards.md R272.) -/
def Obligations.WaitTerminates : Prop :=
  ∀ (s : State) (w : Word) (n : Nat) (ops : List HostOp), s.pend = some w → s.hostOps = .wait n :: ops →
    ∃ t : State, Sys2Proof.core.run (s.delay + 2) s = .next t ∧ t.pend = none ∧ t.hostOps = ops ∧
      ∃ v, lookupVar n t.hostVars = some v ∧ v.getLsbD 0 = false

/-- A step answers a next state exactly when the host has no operation left, or its next operation is one the core
answers (a proper access, writing a number or a name that has a value, a wait, a reset), or a command completes: no
command, error or value of any register stops the machine. That a name without a value is a fault is the model's
choice (assumption log 10). (60_exceptions.md R230, 20_memory.md R57, 30_encoding.md R91.) -/
def Obligations.StopsOnlyOnHostMisuse : Prop :=
  ∀ s : State, safeStep s ↔
    (s.hostOps = [] ∨ (∃ op ops, s.hostOps = op :: ops ∧ opAnswered s op = true) ∨ (s.pend ≠ none ∧ s.delay = 0))

/-- In State.reset the Z registers fit MODW, PEND agrees with CMD and DONE, ERR with ECODE, and NOUT, KEEPP and KEEPL
have legal values. (10_state.md R44, 10_state.md R30, 10_state.md R37, 10_state.md R39, 10_state.md R42.) -/
def Obligations.InvHoldsAtReset : Prop :=
  Inv State.reset

/-- For every state that meets the invariant, if the step answers a next state, that state meets it: every Z register
holds a value below 2^MODW; a word in flight is the one in CMD and DONE is 0 then; ERR is 0 exactly when ECODE is 0,
and ECODE is at most 5; NOUT is at most 2; KEEPP is 0 or 9 to 16 and KEEPL at most 8. (43_modarith.md R190,
10_state.md R22, 10_state.md R30, 10_state.md R31, 10_state.md R36, 10_state.md R37, 10_state.md R39, 10_state.md
R42, 60_exceptions.md R231, 93_implementation_defined.md U7.) -/
def Obligations.InvKeptByStep : Prop :=
  ∀ s t : State, Inv s → step s = .next t → Inv t
end

