-- ==== Sys2Proof/Laws/Bytes.lean ====
section
/-! SUPPORT. What the byte and word lanes do: reading back what was built or written, and the integer views.
-/

namespace Sys2Proof.Machine

theorem natOfBytes_lt (f : Nat → Byte) (n : Nat) : natOfBytes f n < 256 ^ n := by
  induction n with
  | zero => simp [natOfBytes]
  | succ n ih =>
    have h := (f n).isLt
    have : (f n).toNat * 256 ^ n ≤ 255 * 256 ^ n := Nat.mul_le_mul_right _ (by omega)
    simp only [natOfBytes, Nat.pow_succ]
    omega

theorem natOfBytes_byte (f : Nat → Byte) (n j : Nat) (h : j < n) :
    natOfBytes f n / 256 ^ j % 256 = (f j).toNat := by
  induction n with
  | zero => omega
  | succ n ih =>
    simp only [natOfBytes]
    by_cases hj : j = n
    · subst hj
      rw [Nat.add_mul_div_right _ _ (by positivity), Nat.div_eq_of_lt (natOfBytes_lt f j), Nat.zero_add]
      exact Nat.mod_eq_of_lt (f j).isLt
    · have hlt : j < n := by omega
      obtain ⟨k, rfl⟩ : ∃ k, n = j + 1 + k := ⟨n - (j + 1), by omega⟩
      have : (f (j + 1 + k)).toNat * 256 ^ (j + 1 + k) = ((f (j + 1 + k)).toNat * 256 ^ k * 256) * 256 ^ j := by
        rw [pow_add, pow_add]; ring
      rw [this, Nat.add_mul_div_right _ _ (by positivity), Nat.add_mul_mod_self_right]
      exact ih hlt

theorem byteAt_toNat {n : Nat} (x : BitVec n) (j : Nat) : (byteAt x j).toNat = x.toNat / 256 ^ j % 256 := by
  rw [show (256 : Nat) ^ j = 2 ^ (8 * j) by rw [pow_mul]; rfl]
  simp [byteAt, BitVec.extractLsb'_toNat, Nat.shiftRight_eq_div_pow]

/-- A block's bytes are the bytes it was built from (R10, R52). -/
@[simp] theorem byteAt_blockOf (f : Nat → Byte) (j : Nat) (h : j < 16) : byteAt (blockOf f) j = f j := by
  apply BitVec.eq_of_toNat_eq
  rw [byteAt_toNat, blockOf, BitVec.toNat_ofNat, show (2 : Nat) ^ 128 = 256 ^ 16 by norm_num,
    Nat.mod_eq_of_lt (natOfBytes_lt f 16)]
  exact natOfBytes_byte f 16 j h

@[simp] theorem byteAt_halfOf (f : Nat → Byte) (j : Nat) (h : j < 8) : byteAt (halfOf f) j = f j := by
  apply BitVec.eq_of_toNat_eq
  rw [byteAt_toNat, halfOf, BitVec.toNat_ofNat, show (2 : Nat) ^ 64 = 256 ^ 8 by norm_num,
    Nat.mod_eq_of_lt (natOfBytes_lt f 8)]
  exact natOfBytes_byte f 8 j h

/-- Bit `k` of a register is bit `k mod 8` of its byte `k / 8`. -/
theorem getLsbD_eq_byteAt {n : Nat} (x : BitVec n) (k : Nat) : x.getLsbD k = (byteAt x (k / 8)).getLsbD (k % 8) := by
  simp only [byteAt, BitVec.getLsbD_extractLsb', Nat.mod_lt _ (show 0 < 8 by decide), decide_true, Bool.true_and]
  congr 1; omega

/-- Registers of the same width with the same bytes are equal. -/
theorem eq_of_byteAt {n : Nat} (x y : BitVec n) (h : ∀ j, 8 * j < n → byteAt x j = byteAt y j) : x = y := by
  apply BitVec.eq_of_getLsbD_eq
  intro k hk
  rw [getLsbD_eq_byteAt x, getLsbD_eq_byteAt y, h (k / 8) (by omega)]

/-- Bit `k` of `a ‖ b`: the bytes of `a` are the lower 64 bits (R10, R52). -/
theorem getLsbD_cat (a b : Half) (k : Nat) :
    (cat a b).getLsbD k = if k < 64 then a.getLsbD k else b.getLsbD (k - 64) := by
  unfold cat
  exact BitVec.getLsbD_append

@[simp] theorem hi_cat (a b : Half) : hi (cat a b) = a := by
  apply BitVec.eq_of_getLsbD_eq; intro i h
  simp only [hi, BitVec.getLsbD_extractLsb', getLsbD_cat, Nat.zero_add, h, decide_true, Bool.true_and, if_true]

@[simp] theorem lo_cat (a b : Half) : lo (cat a b) = b := by
  apply BitVec.eq_of_getLsbD_eq; intro i h
  simp only [lo, BitVec.getLsbD_extractLsb', getLsbD_cat, h, decide_true, Bool.true_and]
  rw [if_neg (by omega), Nat.add_sub_cancel_left]

@[simp] theorem cat_hi_lo (x : Block) : cat (hi x) (lo x) = x := by
  apply BitVec.eq_of_getLsbD_eq; intro i h
  rw [getLsbD_cat]
  simp only [hi, lo, BitVec.getLsbD_extractLsb', Nat.zero_add]
  split
  · simp_all
  · have h1 : i - 64 < 64 := by omega
    have h2 : 64 + (i - 64) = i := by omega
    simp [h1, h2]

/-- The first half of `a ‖ b` has the bytes of `a`, the last half those of `b` (R10). -/
theorem byteAt_cat (a b : Half) (j : Nat) (h : j < 16) :
    byteAt (cat a b) j = if j < 8 then byteAt a j else byteAt b (j - 8) := by
  apply BitVec.eq_of_getLsbD_eq; intro i hi
  by_cases hj : j < 8
  · have : 8 * j + i < 64 := by omega
    simp only [byteAt, BitVec.getLsbD_extractLsb', getLsbD_cat, hi, hj, this, if_true]
  · have h1 : ¬ 8 * j + i < 64 := by omega
    have h2 : 8 * j + i - 64 = 8 * (j - 8) + i := by omega
    simp only [byteAt, BitVec.getLsbD_extractLsb', getLsbD_cat, hi, hj, h1, h2, if_false]

/-- The bytes of `hi(X)` are bytes 0 to 7 of `X` (R10). -/
theorem byteAt_hi (x : Block) (j : Nat) (h : j < 8) : byteAt (hi x) j = byteAt x j := by
  have := byteAt_cat (hi x) (lo x) j (by omega)
  rw [cat_hi_lo, if_pos h] at this
  exact this.symm

/-- The bytes of `lo(X)` are bytes 8 to 15 of `X` (R10). -/
theorem byteAt_lo (x : Block) (j : Nat) (h : j < 8) : byteAt (lo x) j = byteAt x (8 + j) := by
  have := byteAt_cat (hi x) (lo x) (8 + j) (by omega)
  rw [cat_hi_lo, if_neg (by omega), Nat.add_sub_cancel_left] at this
  exact this.symm

theorem byteAt_xor {n : Nat} (x y : BitVec n) (j : Nat) : byteAt (x ^^^ y) j = byteAt x j ^^^ byteAt y j := by
  apply BitVec.eq_of_getLsbD_eq; intro k hk
  simp [byteAt, hk]

theorem packBytes_lt (l : List Byte) : packBytes l < 256 ^ l.length := by
  induction l with
  | nil => simp [packBytes]
  | cons b bs ih =>
    have := b.isLt
    simp only [packBytes, List.length_cons, Nat.pow_succ]
    omega

theorem packBytes_byte (l : List Byte) (j : Nat) (h : j < l.length) : packBytes l / 256 ^ j % 256 = l[j].toNat := by
  induction l generalizing j with
  | nil => simp at h
  | cons b bs ih =>
    have := b.isLt
    cases j with
    | zero => simp only [packBytes, pow_zero, Nat.div_one, List.getElem_cons_zero]; omega
    | succ j =>
      rw [List.getElem_cons_succ, ← ih j (by simpa using h), packBytes, pow_succ', ← Nat.div_div_eq_div_mul]
      congr 2; omega

/-- The bytes of the block of a stream's first bytes are these bytes (R10, R147). -/
theorem byteAt_blockFrom (l : List Byte) (j : Nat) (h : j < 16) (h2 : j < l.length) :
    byteAt (blockFrom l) j = l[j] := by
  apply BitVec.eq_of_toNat_eq
  have hle : 256 ^ (l.take 16).length ≤ 256 ^ 16 := Nat.pow_le_pow_right (by omega) (by simp)
  rw [byteAt_toNat, blockFrom, BitVec.toNat_ofNat, show 2 ^ 128 = 256 ^ 16 by norm_num,
    Nat.mod_eq_of_lt (Nat.lt_of_lt_of_le (packBytes_lt _) hle), packBytes_byte _ _ (by simp; omega)]
  simp

/-- Bit `k` after a word was written: the word's, or the old one (R54, R56). -/
theorem getLsbD_setWordAt {n : Nat} (x : BitVec n) (i : Nat) (v : Word) (k : Nat) (hk : k < n) :
    (setWordAt x i v).getLsbD k = if 32 * i ≤ k ∧ k < 32 * i + 32 then v.getLsbD (k - 32 * i) else x.getLsbD k := by
  simp only [setWordAt, BitVec.getLsbD_or, BitVec.getLsbD_and, BitVec.getLsbD_not, BitVec.getLsbD_shiftLeft,
    BitVec.getLsbD_setWidth, BitVec.getLsbD_allOnes, hk, decide_true, Bool.true_and]
  by_cases h1 : k < 32 * i
  · have h2 : ¬ (32 * i ≤ k ∧ k < 32 * i + 32) := by omega
    simp [h1, h2]
  · have h4 : k - 32 * i < n := by omega
    by_cases h3 : k < 32 * i + 32
    · have h2 : 32 * i ≤ k ∧ k < 32 * i + 32 := by omega
      have h5 : k - 32 * i < 32 := by omega
      simp [h1, h2, h4, h5]
    · have h2 : ¬ (32 * i ≤ k ∧ k < 32 * i + 32) := by omega
      have h5 : ¬ k - 32 * i < 32 := by omega
      have h6 : v.getLsbD (k - 32 * i) = false := BitVec.getLsbD_of_ge _ _ (by omega)
      simp [h1, h2, h4, h5, h6]

/-- A word that was written reads back (R63). -/
theorem wordAt_setWordAt_self {n : Nat} (x : BitVec n) (i : Nat) (v : Word) (h : 32 * i + 32 ≤ n) :
    wordAt (setWordAt x i v) i = v := by
  apply BitVec.eq_of_getLsbD_eq; intro k hk
  have h1 : 32 * i + k < n := by omega
  simp only [wordAt, BitVec.getLsbD_extractLsb', hk, decide_true, Bool.true_and]
  rw [getLsbD_setWordAt x i v (32 * i + k) h1]
  simp [hk]

/-- Writing a word leaves every other word alone (R56, R63). -/
theorem wordAt_setWordAt_ne {n : Nat} (x : BitVec n) (i j : Nat) (v : Word) (h : i ≠ j) (hj : 32 * j + 32 ≤ n) :
    wordAt (setWordAt x i v) j = wordAt x j := by
  apply BitVec.eq_of_getLsbD_eq; intro k hk
  have h1 : 32 * j + k < n := by omega
  simp only [wordAt, BitVec.getLsbD_extractLsb', hk, decide_true, Bool.true_and]
  rw [getLsbD_setWordAt x i v (32 * j + k) h1, if_neg (by omega)]

/-- Writing a word twice is writing it once (R64). -/
theorem setWordAt_idem {n : Nat} (x : BitVec n) (i : Nat) (v : Word) :
    setWordAt (setWordAt x i v) i v = setWordAt x i v := by
  apply BitVec.eq_of_getLsbD_eq; intro k hk
  rw [getLsbD_setWordAt _ i v k hk, getLsbD_setWordAt x i v k hk]
  split <;> simp_all

theorem uintBe_congr (f g : Nat → Byte) (k : Nat) (h : ∀ j, j < k → f j = g j) : uintBe f k = uintBe g k := by
  induction k with
  | zero => rfl
  | succ k ih => rw [uintBe, uintBe, ih fun j hj => h j (by omega), h k (by omega)]

theorem uintBe_lt (f : Nat → Byte) (k : Nat) : uintBe f k < 256 ^ k := by
  induction k with
  | zero => simp [uintBe]
  | succ k ih =>
    have := (f k).isLt
    simp only [uintBe, Nat.pow_succ]
    omega

/-- Byte `j` of `be64(n)` is bits `63-8j : 56-8j` of `n` (R12). -/
theorem byteAt_be64 (n : BitVec 64) (j : Nat) (h : j < 8) : byteAt (be64 n) j = byteAt n (7 - j) := by
  simp [be64, h]

/-- `uint_be` undoes `be64` (R12). -/
theorem uintBe_be64 (n : BitVec 64) : uintBe (byteAt (be64 n)) 8 = n.toNat := by
  rw [uintBe_congr _ (fun j => byteAt n (7 - j)) 8 fun j hj => byteAt_be64 n j hj]
  simp only [uintBe, byteAt_toNat]
  have := n.isLt
  norm_num
  omega

/-- The trailer of a block that holds one is the length put there (R141, R167). -/
theorem trailerLen_withTrailer (B : Block) (L : BitVec 64) : trailerLen (withTrailer B L) = L := by
  unfold trailerLen withTrailer
  rw [uintBe_congr _ (byteAt (be64 L)) 8 fun j hj => by
    rw [byteAt_cat _ _ _ (by omega), if_neg (by omega)]; congr 1; omega]
  rw [uintBe_be64]; simp

end Sys2Proof.Machine
end

