-- ==== Sys2Proof/Laws/Cipher.lean ====
section
/-! SUPPORT. The one-step laws of the cipher. -/

namespace Sys2Proof.Machine

/-- `V` undoes itself (R123). -/
@[simp] theorem swapHalves_swapHalves (X : Block) : swapHalves (swapHalves X) = X := by simp [swapHalves]

/-- A round is undone by the same round between two swaps (R119, R123). -/
theorem feistelRound_inverse (S : SboxTable) (X : Block) (k : Half) :
    swapHalves (feistelRound S (swapHalves (feistelRound S X k)) k) = X := by
  simp [swapHalves, feistelRound]

/-- Every schedule reads the same from both ends (R121). -/
theorem schedule_reverse (ks : KeySize) : (schedule ks).reverse = schedule ks := by cases ks <;> rfl

end Sys2Proof.Machine
end

