-- ==== Sys2Proof/Laws/Decode.lean ====
section
/-! SUPPORT. The fields of a command word (30_encoding.md R81) and what the decoder checks. -/

namespace Sys2Proof

/-- A word whose RSV is 0 is assembled from its own fields (R81, R90). -/
theorem assemble_fields (w : Word) (h : rsvOf w = 0) :
    assemble ((opcOf w).setWidth 32) (nbOf w) (zdOf w) (zaOf w) (zbOf w) (zmOf w) = w := by
  have ofNat_extract : ∀ a b, BitVec.ofNat 32 (w.extractLsb' a b).toNat = (w.extractLsb' a b).setWidth 32 := by
    intro a b; apply BitVec.eq_of_toNat_eq; simp
  have high : ∀ k, 24 ≤ k → k < 32 → w.getLsbD k = false := by
    intro k h1 h2
    have h3 := congrArg (fun x : BitVec 8 => x.getLsbD (k - 24)) h
    simp only [rsvOf, BitVec.getLsbD_extractLsb', show 24 + (k - 24) = k by omega] at h3
    simpa [show k - 24 < 8 by omega] using h3
  apply BitVec.eq_of_getLsbD_eq
  intro k hk
  simp only [assemble, nbOf, zdOf, zaOf, zbOf, zmOf, opcOf, BitVec.val_toFin, ofNat_extract, BitVec.getLsbD_or,
    BitVec.getLsbD_shiftLeft, BitVec.getLsbD_setWidth, BitVec.getLsbD_extractLsb']
  by_cases h24 : 24 ≤ k
  · rw [high k h24 hk]; interval_cases k <;> simp
  · interval_cases k <;> simp

/-- What the check of unused fields answers: the instruction it was given, and then every listed field is 0 (R84). -/
theorem checked_ok {w : Word} {unused : List Field} {i j : Instr} (h : checked w unused i = .ok j) :
    j = i ∧ ∀ f ∈ unused, fieldIsZero w f = true := by
  unfold checked at h
  split at h
  · cases h
  · rename_i hf
    cases h
    simp only [List.find?_eq_none, Bool.not_eq_true, Bool.not_eq_false'] at hf
    exact ⟨rfl, hf⟩

end Sys2Proof
end

