-- ==== Sys2Proof/Laws/Flags.lean ====
section
/-! SUPPORT. The bits of the words STATUS and CTRL (10_state.md R32, R34). -/

namespace Sys2Proof.Machine

/-- Bit by bit, the layout of STATUS (R34). -/
theorem packStatus_bits (ecode : BitVec 4) (nout : BitVec 2) (eq err done busy : Bool) (k : Nat) :
    (packStatus ecode nout eq err done busy).getLsbD k =
      if k = 0 then busy else if k = 1 then done else if k = 2 then err else if k = 3 then eq
      else if k < 6 then nout.getLsbD (k - 4) else if 8 ≤ k ∧ k < 12 then ecode.getLsbD (k - 8) else false := by
  by_cases h : k < 32
  · unfold packStatus
    change BitVec.getLsbD (w := 20 + 4 + 2 + 2 + 1 + 1 + 1 + 1) _ k = _
    simp only [BitVec.getLsbD_append, BitVec.getLsbD_ofBool, BitVec.getLsbD_zero]
    interval_cases k <;> simp
  · rw [BitVec.getLsbD_of_ge _ _ (by omega)]
    have : ¬ (8 ≤ k ∧ k < 12) := by omega
    have : ¬ k < 6 := by omega
    have : k ≠ 0 ∧ k ≠ 1 ∧ k ≠ 2 ∧ k ≠ 3 := by omega
    simp_all

/-- BUSY is bit 0 of STATUS (R34, R35). -/
theorem statusWord_busy (s : State) : s.statusWord.getLsbD 0 = s.busy := by
  rw [State.statusWord, packStatus_bits, if_pos rfl]

end Sys2Proof.Machine
end

