-- ==== Sys2Proof/Laws/Modular.lean ====
section
/-! SUPPORT. What the functions of the modular unit compute. -/

namespace Sys2Proof.Machine

/-- The loop of R193 multiplies its result by the base to the exponent, when it is given steps enough. -/
theorem powLoop_eq (m : Nat) :
    ∀ n b e r, e < 2 ^ n → r % m = r → powLoop m n b e r = r * b ^ e % m := by
  intro n
  induction n with
  | zero =>
    intro b e r he hr
    obtain rfl : e = 0 := by simpa using he
    simp [powLoop, hr]
  | succ n ih =>
    intro b e r he hr
    unfold powLoop
    split
    · rename_i h
      subst h
      simp [hr]
    · rw [ih]
      · have square : (b * b % m) ^ (e / 2) % m = b ^ (2 * (e / 2)) % m := by rw [← Nat.pow_mod, pow_mul, pow_two]
        by_cases h : e % 2 = 1
        · rw [if_pos h, Nat.mul_mod, square, Nat.mod_mod, ← Nat.mul_mod]
          conv_rhs => rw [show e = 2 * (e / 2) + 1 by omega, pow_succ]
          ring_nf
        · rw [if_neg h, Nat.mul_mod, square, ← Nat.mul_mod]
          conv_rhs => rw [show e = 2 * (e / 2) by omega]
      · rw [pow_succ] at he
        omega
      · split <;> simp [hr]

/-- MEXP's function is the exact power, reduced (R192, R193). -/
theorem powMod_eq (a e m : Nat) : powMod a e m = a ^ e % m := by
  unfold powMod
  rw [powLoop_eq _ _ _ _ _ Nat.lt_log2_self (by simp)]
  rw [Nat.mul_mod, Nat.mod_mod, ← Nat.pow_mod, ← Nat.mul_mod, one_mul]

/-- MSUB's function is the integer difference, reduced into [0, m) (R195). -/
theorem subMod_eq (a b m : Nat) (h : 0 < m) : (subMod a b m : Int) = ((a : Int) - b) % m :=
  Int.toNat_of_nonneg (Int.emod_nonneg _ (by omega))

theorem subMod_lt (a b m : Nat) (h : 0 < m) : subMod a b m < m := by
  have e := subMod_eq a b m h
  have l := Int.emod_lt_of_pos ((a : Int) - b) (show (0 : Int) < m by omega)
  omega

end Sys2Proof.Machine
end

