-- ==== Sys2Proof/Laws/State.lean ====
section
/-! SUPPORT. One lemma per field for each update of the state that has a name, true by `rfl`, so that no proof unfolds a
record update.
-/

namespace Sys2Proof.Machine

/-! ## `accept` (R87) -/

@[simp] theorem accept_key (w : Word) (s : State) : (accept w s).key = s.key := rfl
@[simp] theorem accept_din (w : Word) (s : State) : (accept w s).din = s.din := rfl
@[simp] theorem accept_out0 (w : Word) (s : State) : (accept w s).out0 = s.out0 := rfl
@[simp] theorem accept_out1 (w : Word) (s : State) : (accept w s).out1 = s.out1 := rfl
@[simp] theorem accept_chain (w : Word) (s : State) : (accept w s).chain = s.chain := rfl
@[simp] theorem accept_len (w : Word) (s : State) : (accept w s).len = s.len := rfl
@[simp] theorem accept_tlen (w : Word) (s : State) : (accept w s).tlen = s.tlen := rfl
@[simp] theorem accept_keepp (w : Word) (s : State) : (accept w s).keepp = s.keepp := rfl
@[simp] theorem accept_keepl (w : Word) (s : State) : (accept w s).keepl = s.keepl := rfl
@[simp] theorem accept_cmd (w : Word) (s : State) : (accept w s).cmd = w := rfl
@[simp] theorem accept_ie (w : Word) (s : State) : (accept w s).ie = s.ie := rfl
@[simp] theorem accept_ksize (w : Word) (s : State) : (accept w s).ksize = s.ksize := rfl
@[simp] theorem accept_done (w : Word) (s : State) : (accept w s).done = false := rfl
@[simp] theorem accept_err (w : Word) (s : State) : (accept w s).err = s.err := rfl
@[simp] theorem accept_eq (w : Word) (s : State) : (accept w s).eq = s.eq := rfl
@[simp] theorem accept_nout (w : Word) (s : State) : (accept w s).nout = s.nout := rfl
@[simp] theorem accept_ecode (w : Word) (s : State) : (accept w s).ecode = s.ecode := rfl
@[simp] theorem accept_z (w : Word) (s : State) : (accept w s).z = s.z := rfl
@[simp] theorem accept_zsize (w : Word) (s : State) : (accept w s).zsize = s.zsize := rfl
@[simp] theorem accept_sbox (w : Word) (s : State) : (accept w s).sbox = s.sbox := rfl
@[simp] theorem accept_pend (w : Word) (s : State) : (accept w s).pend = some w := rfl
@[simp] theorem accept_hostOps (w : Word) (s : State) : (accept w s).hostOps = s.hostOps := rfl
@[simp] theorem accept_hostVars (w : Word) (s : State) : (accept w s).hostVars = s.hostVars := rfl
@[simp] theorem accept_delay (w : Word) (s : State) : (accept w s).delay = Config.latency s.accepted := rfl
@[simp] theorem accept_accepted (w : Word) (s : State) : (accept w s).accepted = s.accepted + 1 := rfl
@[simp] theorem accept_draws (w : Word) (s : State) : (accept w s).draws = s.draws := rfl

/-! ## `finish` (R88) -/

@[simp] theorem finish_key (n : BitVec 2) (s : State) : (finish n s).key = s.key := rfl
@[simp] theorem finish_din (n : BitVec 2) (s : State) : (finish n s).din = s.din := rfl
@[simp] theorem finish_out0 (n : BitVec 2) (s : State) : (finish n s).out0 = s.out0 := rfl
@[simp] theorem finish_out1 (n : BitVec 2) (s : State) : (finish n s).out1 = s.out1 := rfl
@[simp] theorem finish_chain (n : BitVec 2) (s : State) : (finish n s).chain = s.chain := rfl
@[simp] theorem finish_len (n : BitVec 2) (s : State) : (finish n s).len = s.len := rfl
@[simp] theorem finish_tlen (n : BitVec 2) (s : State) : (finish n s).tlen = s.tlen := rfl
@[simp] theorem finish_keepp (n : BitVec 2) (s : State) : (finish n s).keepp = s.keepp := rfl
@[simp] theorem finish_keepl (n : BitVec 2) (s : State) : (finish n s).keepl = s.keepl := rfl
@[simp] theorem finish_cmd (n : BitVec 2) (s : State) : (finish n s).cmd = s.cmd := rfl
@[simp] theorem finish_ie (n : BitVec 2) (s : State) : (finish n s).ie = s.ie := rfl
@[simp] theorem finish_ksize (n : BitVec 2) (s : State) : (finish n s).ksize = s.ksize := rfl
@[simp] theorem finish_done (n : BitVec 2) (s : State) : (finish n s).done = true := rfl
@[simp] theorem finish_err (n : BitVec 2) (s : State) : (finish n s).err = s.err := rfl
@[simp] theorem finish_eq (n : BitVec 2) (s : State) : (finish n s).eq = s.eq := rfl
@[simp] theorem finish_nout (n : BitVec 2) (s : State) : (finish n s).nout = n := rfl
@[simp] theorem finish_ecode (n : BitVec 2) (s : State) : (finish n s).ecode = s.ecode := rfl
@[simp] theorem finish_z (n : BitVec 2) (s : State) : (finish n s).z = s.z := rfl
@[simp] theorem finish_zsize (n : BitVec 2) (s : State) : (finish n s).zsize = s.zsize := rfl
@[simp] theorem finish_sbox (n : BitVec 2) (s : State) : (finish n s).sbox = s.sbox := rfl
@[simp] theorem finish_pend (n : BitVec 2) (s : State) : (finish n s).pend = none := rfl
@[simp] theorem finish_hostOps (n : BitVec 2) (s : State) : (finish n s).hostOps = s.hostOps := rfl
@[simp] theorem finish_hostVars (n : BitVec 2) (s : State) : (finish n s).hostVars = s.hostVars := rfl
@[simp] theorem finish_delay (n : BitVec 2) (s : State) : (finish n s).delay = 0 := rfl
@[simp] theorem finish_accepted (n : BitVec 2) (s : State) : (finish n s).accepted = s.accepted := rfl
@[simp] theorem finish_draws (n : BitVec 2) (s : State) : (finish n s).draws = s.draws := rfl

/-! ## `State.writeStatus` (R34) -/

@[simp] theorem writeStatus_key (v : Word) (s : State) : (s.writeStatus v).key = s.key := rfl
@[simp] theorem writeStatus_din (v : Word) (s : State) : (s.writeStatus v).din = s.din := rfl
@[simp] theorem writeStatus_out0 (v : Word) (s : State) : (s.writeStatus v).out0 = s.out0 := rfl
@[simp] theorem writeStatus_out1 (v : Word) (s : State) : (s.writeStatus v).out1 = s.out1 := rfl
@[simp] theorem writeStatus_chain (v : Word) (s : State) : (s.writeStatus v).chain = s.chain := rfl
@[simp] theorem writeStatus_len (v : Word) (s : State) : (s.writeStatus v).len = s.len := rfl
@[simp] theorem writeStatus_tlen (v : Word) (s : State) : (s.writeStatus v).tlen = s.tlen := rfl
@[simp] theorem writeStatus_keepp (v : Word) (s : State) : (s.writeStatus v).keepp = s.keepp := rfl
@[simp] theorem writeStatus_keepl (v : Word) (s : State) : (s.writeStatus v).keepl = s.keepl := rfl
@[simp] theorem writeStatus_cmd (v : Word) (s : State) : (s.writeStatus v).cmd = s.cmd := rfl
@[simp] theorem writeStatus_ie (v : Word) (s : State) : (s.writeStatus v).ie = s.ie := rfl
@[simp] theorem writeStatus_ksize (v : Word) (s : State) : (s.writeStatus v).ksize = s.ksize := rfl
@[simp] theorem writeStatus_done (v : Word) (s : State) : (s.writeStatus v).done = (s.done && !v.getLsbD 1) := rfl
@[simp] theorem writeStatus_err (v : Word) (s : State) : (s.writeStatus v).err = (s.err && !v.getLsbD 2) := rfl
@[simp] theorem writeStatus_eq (v : Word) (s : State) : (s.writeStatus v).eq = s.eq := rfl
@[simp] theorem writeStatus_nout (v : Word) (s : State) : (s.writeStatus v).nout = s.nout := rfl
@[simp] theorem writeStatus_ecode (v : Word) (s : State) : (s.writeStatus v).ecode = (if v.getLsbD 2 then 0 else s.ecode) := rfl
@[simp] theorem writeStatus_z (v : Word) (s : State) : (s.writeStatus v).z = s.z := rfl
@[simp] theorem writeStatus_zsize (v : Word) (s : State) : (s.writeStatus v).zsize = s.zsize := rfl
@[simp] theorem writeStatus_sbox (v : Word) (s : State) : (s.writeStatus v).sbox = s.sbox := rfl
@[simp] theorem writeStatus_pend (v : Word) (s : State) : (s.writeStatus v).pend = s.pend := rfl
@[simp] theorem writeStatus_hostOps (v : Word) (s : State) : (s.writeStatus v).hostOps = s.hostOps := rfl
@[simp] theorem writeStatus_hostVars (v : Word) (s : State) : (s.writeStatus v).hostVars = s.hostVars := rfl
@[simp] theorem writeStatus_delay (v : Word) (s : State) : (s.writeStatus v).delay = s.delay := rfl
@[simp] theorem writeStatus_accepted (v : Word) (s : State) : (s.writeStatus v).accepted = s.accepted := rfl
@[simp] theorem writeStatus_draws (v : Word) (s : State) : (s.writeStatus v).draws = s.draws := rfl

/-! ## `State.writeCtrl` (R32) -/

@[simp] theorem writeCtrl_key (v : Word) (s : State) : (s.writeCtrl v).key = s.key := rfl
@[simp] theorem writeCtrl_din (v : Word) (s : State) : (s.writeCtrl v).din = s.din := rfl
@[simp] theorem writeCtrl_out0 (v : Word) (s : State) : (s.writeCtrl v).out0 = s.out0 := rfl
@[simp] theorem writeCtrl_out1 (v : Word) (s : State) : (s.writeCtrl v).out1 = s.out1 := rfl
@[simp] theorem writeCtrl_chain (v : Word) (s : State) : (s.writeCtrl v).chain = s.chain := rfl
@[simp] theorem writeCtrl_len (v : Word) (s : State) : (s.writeCtrl v).len = s.len := rfl
@[simp] theorem writeCtrl_tlen (v : Word) (s : State) : (s.writeCtrl v).tlen = s.tlen := rfl
@[simp] theorem writeCtrl_keepp (v : Word) (s : State) : (s.writeCtrl v).keepp = s.keepp := rfl
@[simp] theorem writeCtrl_keepl (v : Word) (s : State) : (s.writeCtrl v).keepl = s.keepl := rfl
@[simp] theorem writeCtrl_cmd (v : Word) (s : State) : (s.writeCtrl v).cmd = s.cmd := rfl
@[simp] theorem writeCtrl_ie (v : Word) (s : State) : (s.writeCtrl v).ie = v.getLsbD 0 := rfl
@[simp] theorem writeCtrl_ksize (v : Word) (s : State) : (s.writeCtrl v).ksize = v.extractLsb' 4 2 := rfl
@[simp] theorem writeCtrl_done (v : Word) (s : State) : (s.writeCtrl v).done = s.done := rfl
@[simp] theorem writeCtrl_err (v : Word) (s : State) : (s.writeCtrl v).err = s.err := rfl
@[simp] theorem writeCtrl_eq (v : Word) (s : State) : (s.writeCtrl v).eq = s.eq := rfl
@[simp] theorem writeCtrl_nout (v : Word) (s : State) : (s.writeCtrl v).nout = s.nout := rfl
@[simp] theorem writeCtrl_ecode (v : Word) (s : State) : (s.writeCtrl v).ecode = s.ecode := rfl
@[simp] theorem writeCtrl_z (v : Word) (s : State) : (s.writeCtrl v).z = s.z := rfl
@[simp] theorem writeCtrl_zsize (v : Word) (s : State) : (s.writeCtrl v).zsize = s.zsize := rfl
@[simp] theorem writeCtrl_sbox (v : Word) (s : State) : (s.writeCtrl v).sbox = s.sbox := rfl
@[simp] theorem writeCtrl_pend (v : Word) (s : State) : (s.writeCtrl v).pend = s.pend := rfl
@[simp] theorem writeCtrl_hostOps (v : Word) (s : State) : (s.writeCtrl v).hostOps = s.hostOps := rfl
@[simp] theorem writeCtrl_hostVars (v : Word) (s : State) : (s.writeCtrl v).hostVars = s.hostVars := rfl
@[simp] theorem writeCtrl_delay (v : Word) (s : State) : (s.writeCtrl v).delay = s.delay := rfl
@[simp] theorem writeCtrl_accepted (v : Word) (s : State) : (s.writeCtrl v).accepted = s.accepted := rfl
@[simp] theorem writeCtrl_draws (v : Word) (s : State) : (s.writeCtrl v).draws = s.draws := rfl

/-! ## `setZ` (R190) -/

@[simp] theorem setZ_key (r : ZReg) (v : Nat) (s : State) : (setZ s r v).key = s.key := rfl
@[simp] theorem setZ_din (r : ZReg) (v : Nat) (s : State) : (setZ s r v).din = s.din := rfl
@[simp] theorem setZ_out0 (r : ZReg) (v : Nat) (s : State) : (setZ s r v).out0 = s.out0 := rfl
@[simp] theorem setZ_out1 (r : ZReg) (v : Nat) (s : State) : (setZ s r v).out1 = s.out1 := rfl
@[simp] theorem setZ_chain (r : ZReg) (v : Nat) (s : State) : (setZ s r v).chain = s.chain := rfl
@[simp] theorem setZ_len (r : ZReg) (v : Nat) (s : State) : (setZ s r v).len = s.len := rfl
@[simp] theorem setZ_tlen (r : ZReg) (v : Nat) (s : State) : (setZ s r v).tlen = s.tlen := rfl
@[simp] theorem setZ_keepp (r : ZReg) (v : Nat) (s : State) : (setZ s r v).keepp = s.keepp := rfl
@[simp] theorem setZ_keepl (r : ZReg) (v : Nat) (s : State) : (setZ s r v).keepl = s.keepl := rfl
@[simp] theorem setZ_cmd (r : ZReg) (v : Nat) (s : State) : (setZ s r v).cmd = s.cmd := rfl
@[simp] theorem setZ_ie (r : ZReg) (v : Nat) (s : State) : (setZ s r v).ie = s.ie := rfl
@[simp] theorem setZ_ksize (r : ZReg) (v : Nat) (s : State) : (setZ s r v).ksize = s.ksize := rfl
@[simp] theorem setZ_done (r : ZReg) (v : Nat) (s : State) : (setZ s r v).done = s.done := rfl
@[simp] theorem setZ_err (r : ZReg) (v : Nat) (s : State) : (setZ s r v).err = s.err := rfl
@[simp] theorem setZ_eq (r : ZReg) (v : Nat) (s : State) : (setZ s r v).eq = s.eq := rfl
@[simp] theorem setZ_nout (r : ZReg) (v : Nat) (s : State) : (setZ s r v).nout = s.nout := rfl
@[simp] theorem setZ_ecode (r : ZReg) (v : Nat) (s : State) : (setZ s r v).ecode = s.ecode := rfl
@[simp] theorem setZ_z (r : ZReg) (v : Nat) (s : State) : (setZ s r v).z = s.z.set r (BitVec.ofNat 2048 v) := rfl
@[simp] theorem setZ_zsize (r : ZReg) (v : Nat) (s : State) : (setZ s r v).zsize = s.zsize := rfl
@[simp] theorem setZ_sbox (r : ZReg) (v : Nat) (s : State) : (setZ s r v).sbox = s.sbox := rfl
@[simp] theorem setZ_pend (r : ZReg) (v : Nat) (s : State) : (setZ s r v).pend = s.pend := rfl
@[simp] theorem setZ_hostOps (r : ZReg) (v : Nat) (s : State) : (setZ s r v).hostOps = s.hostOps := rfl
@[simp] theorem setZ_hostVars (r : ZReg) (v : Nat) (s : State) : (setZ s r v).hostVars = s.hostVars := rfl
@[simp] theorem setZ_delay (r : ZReg) (v : Nat) (s : State) : (setZ s r v).delay = s.delay := rfl
@[simp] theorem setZ_accepted (r : ZReg) (v : Nat) (s : State) : (setZ s r v).accepted = s.accepted := rfl
@[simp] theorem setZ_draws (r : ZReg) (v : Nat) (s : State) : (setZ s r v).draws = s.draws := rfl

/-! ## `drawWord` (R60) -/

@[simp] theorem drawWord_key (s : State) : ((drawWord s).2).key = s.key := rfl
@[simp] theorem drawWord_din (s : State) : ((drawWord s).2).din = s.din := rfl
@[simp] theorem drawWord_out0 (s : State) : ((drawWord s).2).out0 = s.out0 := rfl
@[simp] theorem drawWord_out1 (s : State) : ((drawWord s).2).out1 = s.out1 := rfl
@[simp] theorem drawWord_chain (s : State) : ((drawWord s).2).chain = s.chain := rfl
@[simp] theorem drawWord_len (s : State) : ((drawWord s).2).len = s.len := rfl
@[simp] theorem drawWord_tlen (s : State) : ((drawWord s).2).tlen = s.tlen := rfl
@[simp] theorem drawWord_keepp (s : State) : ((drawWord s).2).keepp = s.keepp := rfl
@[simp] theorem drawWord_keepl (s : State) : ((drawWord s).2).keepl = s.keepl := rfl
@[simp] theorem drawWord_cmd (s : State) : ((drawWord s).2).cmd = s.cmd := rfl
@[simp] theorem drawWord_ie (s : State) : ((drawWord s).2).ie = s.ie := rfl
@[simp] theorem drawWord_ksize (s : State) : ((drawWord s).2).ksize = s.ksize := rfl
@[simp] theorem drawWord_done (s : State) : ((drawWord s).2).done = s.done := rfl
@[simp] theorem drawWord_err (s : State) : ((drawWord s).2).err = s.err := rfl
@[simp] theorem drawWord_eq (s : State) : ((drawWord s).2).eq = s.eq := rfl
@[simp] theorem drawWord_nout (s : State) : ((drawWord s).2).nout = s.nout := rfl
@[simp] theorem drawWord_ecode (s : State) : ((drawWord s).2).ecode = s.ecode := rfl
@[simp] theorem drawWord_z (s : State) : ((drawWord s).2).z = s.z := rfl
@[simp] theorem drawWord_zsize (s : State) : ((drawWord s).2).zsize = s.zsize := rfl
@[simp] theorem drawWord_sbox (s : State) : ((drawWord s).2).sbox = s.sbox := rfl
@[simp] theorem drawWord_pend (s : State) : ((drawWord s).2).pend = s.pend := rfl
@[simp] theorem drawWord_hostOps (s : State) : ((drawWord s).2).hostOps = s.hostOps := rfl
@[simp] theorem drawWord_hostVars (s : State) : ((drawWord s).2).hostVars = s.hostVars := rfl
@[simp] theorem drawWord_delay (s : State) : ((drawWord s).2).delay = s.delay := rfl
@[simp] theorem drawWord_accepted (s : State) : ((drawWord s).2).accepted = s.accepted := rfl
@[simp] theorem drawWord_draws (s : State) : ((drawWord s).2).draws = s.draws + 1 := rfl

/-! ## `resetEvent` (R260) -/

@[simp] theorem resetEvent_key (s : State) : (resetEvent s).key = 0 := rfl
@[simp] theorem resetEvent_din (s : State) : (resetEvent s).din = 0 := rfl
@[simp] theorem resetEvent_out0 (s : State) : (resetEvent s).out0 = 0 := rfl
@[simp] theorem resetEvent_out1 (s : State) : (resetEvent s).out1 = 0 := rfl
@[simp] theorem resetEvent_chain (s : State) : (resetEvent s).chain = 0 := rfl
@[simp] theorem resetEvent_len (s : State) : (resetEvent s).len = 0 := rfl
@[simp] theorem resetEvent_tlen (s : State) : (resetEvent s).tlen = 0 := rfl
@[simp] theorem resetEvent_keepp (s : State) : (resetEvent s).keepp = 0 := rfl
@[simp] theorem resetEvent_keepl (s : State) : (resetEvent s).keepl = 0 := rfl
@[simp] theorem resetEvent_cmd (s : State) : (resetEvent s).cmd = 0 := rfl
@[simp] theorem resetEvent_ie (s : State) : (resetEvent s).ie = false := rfl
@[simp] theorem resetEvent_ksize (s : State) : (resetEvent s).ksize = 0 := rfl
@[simp] theorem resetEvent_done (s : State) : (resetEvent s).done = false := rfl
@[simp] theorem resetEvent_err (s : State) : (resetEvent s).err = false := rfl
@[simp] theorem resetEvent_eq (s : State) : (resetEvent s).eq = false := rfl
@[simp] theorem resetEvent_nout (s : State) : (resetEvent s).nout = 0 := rfl
@[simp] theorem resetEvent_ecode (s : State) : (resetEvent s).ecode = 0 := rfl
@[simp] theorem resetEvent_z (s : State) : (resetEvent s).z = Vector.replicate 8 0 := rfl
@[simp] theorem resetEvent_zsize (s : State) : (resetEvent s).zsize = s.zsize := rfl
@[simp] theorem resetEvent_sbox (s : State) : (resetEvent s).sbox = s.sbox := rfl
@[simp] theorem resetEvent_pend (s : State) : (resetEvent s).pend = none := rfl
@[simp] theorem resetEvent_hostOps (s : State) : (resetEvent s).hostOps = s.hostOps := rfl
@[simp] theorem resetEvent_hostVars (s : State) : (resetEvent s).hostVars = s.hostVars := rfl
@[simp] theorem resetEvent_delay (s : State) : (resetEvent s).delay = 0 := rfl
@[simp] theorem resetEvent_accepted (s : State) : (resetEvent s).accepted = s.accepted := rfl
@[simp] theorem resetEvent_draws (s : State) : (resetEvent s).draws = s.draws := rfl

/-! ## `placeCommand` (R87) -/

@[simp] theorem placeCommand_key (w : Word) (s : State) : (placeCommand w s).key = s.key := rfl
@[simp] theorem placeCommand_din (w : Word) (s : State) : (placeCommand w s).din = s.din := rfl
@[simp] theorem placeCommand_out0 (w : Word) (s : State) : (placeCommand w s).out0 = s.out0 := rfl
@[simp] theorem placeCommand_out1 (w : Word) (s : State) : (placeCommand w s).out1 = s.out1 := rfl
@[simp] theorem placeCommand_chain (w : Word) (s : State) : (placeCommand w s).chain = s.chain := rfl
@[simp] theorem placeCommand_len (w : Word) (s : State) : (placeCommand w s).len = s.len := rfl
@[simp] theorem placeCommand_tlen (w : Word) (s : State) : (placeCommand w s).tlen = s.tlen := rfl
@[simp] theorem placeCommand_keepp (w : Word) (s : State) : (placeCommand w s).keepp = s.keepp := rfl
@[simp] theorem placeCommand_keepl (w : Word) (s : State) : (placeCommand w s).keepl = s.keepl := rfl
@[simp] theorem placeCommand_cmd (w : Word) (s : State) : (placeCommand w s).cmd = w := rfl
@[simp] theorem placeCommand_ie (w : Word) (s : State) : (placeCommand w s).ie = s.ie := rfl
@[simp] theorem placeCommand_ksize (w : Word) (s : State) : (placeCommand w s).ksize = s.ksize := rfl
@[simp] theorem placeCommand_done (w : Word) (s : State) : (placeCommand w s).done = false := rfl
@[simp] theorem placeCommand_err (w : Word) (s : State) : (placeCommand w s).err = s.err := rfl
@[simp] theorem placeCommand_eq (w : Word) (s : State) : (placeCommand w s).eq = s.eq := rfl
@[simp] theorem placeCommand_nout (w : Word) (s : State) : (placeCommand w s).nout = s.nout := rfl
@[simp] theorem placeCommand_ecode (w : Word) (s : State) : (placeCommand w s).ecode = s.ecode := rfl
@[simp] theorem placeCommand_z (w : Word) (s : State) : (placeCommand w s).z = s.z := rfl
@[simp] theorem placeCommand_zsize (w : Word) (s : State) : (placeCommand w s).zsize = s.zsize := rfl
@[simp] theorem placeCommand_sbox (w : Word) (s : State) : (placeCommand w s).sbox = s.sbox := rfl
@[simp] theorem placeCommand_pend (w : Word) (s : State) : (placeCommand w s).pend = some w := rfl
@[simp] theorem placeCommand_hostOps (w : Word) (s : State) : (placeCommand w s).hostOps = s.hostOps := rfl
@[simp] theorem placeCommand_hostVars (w : Word) (s : State) : (placeCommand w s).hostVars = s.hostVars := rfl
@[simp] theorem placeCommand_delay (w : Word) (s : State) : (placeCommand w s).delay = 0 := rfl
@[simp] theorem placeCommand_accepted (w : Word) (s : State) : (placeCommand w s).accepted = s.accepted := rfl
@[simp] theorem placeCommand_draws (w : Word) (s : State) : (placeCommand w s).draws = s.draws := rfl

/-! ## `recordError` (R234) and `raise` (R233): by cases on ERR -/

@[simp] theorem recordError_key (e : ErrorCode) (s : State) : (recordError e s).key = s.key := by
  unfold recordError; split <;> rfl
@[simp] theorem recordError_din (e : ErrorCode) (s : State) : (recordError e s).din = s.din := by
  unfold recordError; split <;> rfl
@[simp] theorem recordError_out0 (e : ErrorCode) (s : State) : (recordError e s).out0 = s.out0 := by
  unfold recordError; split <;> rfl
@[simp] theorem recordError_out1 (e : ErrorCode) (s : State) : (recordError e s).out1 = s.out1 := by
  unfold recordError; split <;> rfl
@[simp] theorem recordError_chain (e : ErrorCode) (s : State) : (recordError e s).chain = s.chain := by
  unfold recordError; split <;> rfl
@[simp] theorem recordError_len (e : ErrorCode) (s : State) : (recordError e s).len = s.len := by
  unfold recordError; split <;> rfl
@[simp] theorem recordError_tlen (e : ErrorCode) (s : State) : (recordError e s).tlen = s.tlen := by
  unfold recordError; split <;> rfl
@[simp] theorem recordError_keepp (e : ErrorCode) (s : State) : (recordError e s).keepp = s.keepp := by
  unfold recordError; split <;> rfl
@[simp] theorem recordError_keepl (e : ErrorCode) (s : State) : (recordError e s).keepl = s.keepl := by
  unfold recordError; split <;> rfl
@[simp] theorem recordError_cmd (e : ErrorCode) (s : State) : (recordError e s).cmd = s.cmd := by
  unfold recordError; split <;> rfl
@[simp] theorem recordError_ie (e : ErrorCode) (s : State) : (recordError e s).ie = s.ie := by
  unfold recordError; split <;> rfl
@[simp] theorem recordError_ksize (e : ErrorCode) (s : State) : (recordError e s).ksize = s.ksize := by
  unfold recordError; split <;> rfl
@[simp] theorem recordError_done (e : ErrorCode) (s : State) : (recordError e s).done = s.done := by
  unfold recordError; split <;> rfl
@[simp] theorem recordError_eq (e : ErrorCode) (s : State) : (recordError e s).eq = s.eq := by
  unfold recordError; split <;> rfl
@[simp] theorem recordError_nout (e : ErrorCode) (s : State) : (recordError e s).nout = s.nout := by
  unfold recordError; split <;> rfl
@[simp] theorem recordError_z (e : ErrorCode) (s : State) : (recordError e s).z = s.z := by
  unfold recordError; split <;> rfl
@[simp] theorem recordError_zsize (e : ErrorCode) (s : State) : (recordError e s).zsize = s.zsize := by
  unfold recordError; split <;> rfl
@[simp] theorem recordError_sbox (e : ErrorCode) (s : State) : (recordError e s).sbox = s.sbox := by
  unfold recordError; split <;> rfl
@[simp] theorem recordError_pend (e : ErrorCode) (s : State) : (recordError e s).pend = s.pend := by
  unfold recordError; split <;> rfl
@[simp] theorem recordError_hostOps (e : ErrorCode) (s : State) : (recordError e s).hostOps = s.hostOps := by
  unfold recordError; split <;> rfl
@[simp] theorem recordError_hostVars (e : ErrorCode) (s : State) : (recordError e s).hostVars = s.hostVars := by
  unfold recordError; split <;> rfl
@[simp] theorem recordError_delay (e : ErrorCode) (s : State) : (recordError e s).delay = s.delay := by
  unfold recordError; split <;> rfl
@[simp] theorem recordError_accepted (e : ErrorCode) (s : State) : (recordError e s).accepted = s.accepted := by
  unfold recordError; split <;> rfl
@[simp] theorem recordError_draws (e : ErrorCode) (s : State) : (recordError e s).draws = s.draws := by
  unfold recordError; split <;> rfl
@[simp] theorem recordError_err (e : ErrorCode) (s : State) : (recordError e s).err = true := by
  unfold recordError; split <;> simp_all
@[simp] theorem recordError_ecode (e : ErrorCode) (s : State) :
    (recordError e s).ecode = if s.err then s.ecode else e.code := by
  unfold recordError; split <;> rfl

@[simp] theorem raise_key (e : ErrorCode) (s : State) : (raise e s).key = s.key := by simp [raise]
@[simp] theorem raise_din (e : ErrorCode) (s : State) : (raise e s).din = s.din := by simp [raise]
@[simp] theorem raise_out0 (e : ErrorCode) (s : State) : (raise e s).out0 = s.out0 := by simp [raise]
@[simp] theorem raise_out1 (e : ErrorCode) (s : State) : (raise e s).out1 = s.out1 := by simp [raise]
@[simp] theorem raise_chain (e : ErrorCode) (s : State) : (raise e s).chain = s.chain := by simp [raise]
@[simp] theorem raise_len (e : ErrorCode) (s : State) : (raise e s).len = s.len := by simp [raise]
@[simp] theorem raise_tlen (e : ErrorCode) (s : State) : (raise e s).tlen = s.tlen := by simp [raise]
@[simp] theorem raise_keepp (e : ErrorCode) (s : State) : (raise e s).keepp = s.keepp := by simp [raise]
@[simp] theorem raise_keepl (e : ErrorCode) (s : State) : (raise e s).keepl = s.keepl := by simp [raise]
@[simp] theorem raise_cmd (e : ErrorCode) (s : State) : (raise e s).cmd = s.cmd := by simp [raise]
@[simp] theorem raise_ie (e : ErrorCode) (s : State) : (raise e s).ie = s.ie := by simp [raise]
@[simp] theorem raise_ksize (e : ErrorCode) (s : State) : (raise e s).ksize = s.ksize := by simp [raise]
@[simp] theorem raise_eq (e : ErrorCode) (s : State) : (raise e s).eq = s.eq := by simp [raise]
@[simp] theorem raise_z (e : ErrorCode) (s : State) : (raise e s).z = s.z := by simp [raise]
@[simp] theorem raise_zsize (e : ErrorCode) (s : State) : (raise e s).zsize = s.zsize := by simp [raise]
@[simp] theorem raise_sbox (e : ErrorCode) (s : State) : (raise e s).sbox = s.sbox := by simp [raise]
@[simp] theorem raise_hostOps (e : ErrorCode) (s : State) : (raise e s).hostOps = s.hostOps := by simp [raise]
@[simp] theorem raise_hostVars (e : ErrorCode) (s : State) : (raise e s).hostVars = s.hostVars := by simp [raise]
@[simp] theorem raise_accepted (e : ErrorCode) (s : State) : (raise e s).accepted = s.accepted := by simp [raise]
@[simp] theorem raise_draws (e : ErrorCode) (s : State) : (raise e s).draws = s.draws := by simp [raise]
@[simp] theorem raise_err (e : ErrorCode) (s : State) : (raise e s).err = true := by simp [raise]
@[simp] theorem raise_ecode (e : ErrorCode) (s : State) :
    (raise e s).ecode = if s.err then s.ecode else e.code := recordError_ecode e (finish 0 s)
@[simp] theorem raise_nout (e : ErrorCode) (s : State) : (raise e s).nout = 0 := by simp [raise]
@[simp] theorem raise_pend (e : ErrorCode) (s : State) : (raise e s).pend = none := by simp [raise]
@[simp] theorem raise_done (e : ErrorCode) (s : State) : (raise e s).done = true := by simp [raise]
@[simp] theorem raise_delay (e : ErrorCode) (s : State) : (raise e s).delay = 0 := by simp [raise]

/-! ## The computed views of those updates -/

@[simp] theorem busy_accept (w : Word) (s : State) : (accept w s).busy = true := rfl
@[simp] theorem busy_finish (n : BitVec 2) (s : State) : (finish n s).busy = false := rfl
@[simp] theorem busy_raise (e : ErrorCode) (s : State) : (raise e s).busy = false := by simp [State.busy]
@[simp] theorem busy_writeStatus (v : Word) (s : State) : (s.writeStatus v).busy = s.busy := rfl
@[simp] theorem busy_writeCtrl (v : Word) (s : State) : (s.writeCtrl v).busy = s.busy := rfl
@[simp] theorem busy_recordError (e : ErrorCode) (s : State) : (recordError e s).busy = s.busy := by simp [State.busy]
@[simp] theorem busy_resetEvent (s : State) : (resetEvent s).busy = false := rfl
@[simp] theorem busy_placeCommand (w : Word) (s : State) : (placeCommand w s).busy = true := rfl
@[simp] theorem zWords_accept (w : Word) (s : State) : (accept w s).zWords = s.zWords := rfl
@[simp] theorem zWords_finish (n : BitVec 2) (s : State) : (finish n s).zWords = s.zWords := rfl
@[simp] theorem zWords_raise (e : ErrorCode) (s : State) : (raise e s).zWords = s.zWords := by simp [State.zWords]
@[simp] theorem zWords_writeStatus (v : Word) (s : State) : (s.writeStatus v).zWords = s.zWords := rfl
@[simp] theorem zWords_writeCtrl (v : Word) (s : State) : (s.writeCtrl v).zWords = s.zWords := rfl
@[simp] theorem zWords_recordError (e : ErrorCode) (s : State) : (recordError e s).zWords = s.zWords := by
  simp [State.zWords]
@[simp] theorem zWords_resetEvent (s : State) : (resetEvent s).zWords = s.zWords := rfl

end Sys2Proof.Machine
end

