-- ==== Sys2Proof/Laws/Ops.lean ====
section
/-! SUPPORT. For each shared operation, one lemma that says what it can do, to be cited instead of unfolding it.
-/

namespace Sys2Proof.Machine

open Host

/-! ## Host values and names (R91) -/

@[simp] theorem lookupVar_setVar_self (n : Nat) (v : Word) (vs : List (Nat × Word)) :
    lookupVar n (setVar n v vs) = some v := by
  induction vs with
  | nil => simp [setVar, lookupVar]
  | cons p vs ih =>
    obtain ⟨m, u⟩ := p
    unfold setVar
    split
    · simp [lookupVar]
    · split
      · simp [lookupVar]
      · rename_i h; simp [lookupVar, Ne.symm h, ih]

theorem lookupVar_setVar_ne (n m : Nat) (v : Word) (vs : List (Nat × Word)) (h : m ≠ n) :
    lookupVar m (setVar n v vs) = lookupVar m vs := by
  induction vs with
  | nil => simp [setVar, lookupVar, Ne.symm h]
  | cons p vs ih =>
    obtain ⟨k, u⟩ := p
    unfold setVar
    split
    · simp [lookupVar, Ne.symm h]
    · split
      · rename_i hk; subst hk; simp [lookupVar, Ne.symm h]
      · simp [lookupVar, ih]

/-! ## Bus writes (R61 to R63) -/

/-- All that a bus write can do. -/
theorem busWrite_cases (off : Offset) (v : Word) (s : State) :
    (regAt off = .status ∧ busWrite off v s = s.writeStatus v) ∨
    (regAt off ≠ .status ∧ (regAt off).isReserved s = true ∧ busWrite off v s = s) ∨
    (regAt off ≠ .status ∧ (regAt off).isReserved s = false ∧ s.busy = true ∧ busWrite off v s = recordError .busy s) ∨
    (regAt off = .cmd ∧ s.busy = false ∧ busWrite off v s = accept v s) ∨
    (regAt off ≠ .status ∧ regAt off ≠ .cmd ∧ (regAt off).isReserved s = false ∧ s.busy = false ∧
      busWrite off v s = writeWord s v (regAt off)) := by
  unfold busWrite
  by_cases h1 : regAt off = .status
  · simp [h1]
  · by_cases h2 : (regAt off).isReserved s = true
    · simp [h1, h2]
    · by_cases h3 : s.busy = true
      · simp_all
      · by_cases h4 : regAt off = .cmd
        · simp_all [RegWord.isReserved]
        · simp_all

/-- A plain word write touches one register at most, and never the command, the status or the model's own fields. -/
theorem writeWord_cases (s : State) (v : Word) (r : RegWord) :
    writeWord s v r = s ∨ (r = .ctrl ∧ writeWord s v r = s.writeCtrl v) ∨
    (∃ x, writeWord s v r = { s with len := x }) ∨ (∃ x, writeWord s v r = { s with key := x }) ∨
    (∃ x, writeWord s v r = { s with din := x }) ∨ (∃ x, writeWord s v r = { s with chain := x }) ∨
    (∃ n w, r = .z n w ∧ w.val < s.zWords ∧
      writeWord s v r = { s with z := s.z.set n (setWordAt s.z[n] w v) }) := by
  cases r with
  | z n w =>
    by_cases h : w.val < s.zWords
    · exact .inr (.inr (.inr (.inr (.inr (.inr ⟨n, w, rfl, h, by simp [writeWord, h]⟩)))))
    · exact .inl (by simp [writeWord, h])
  | _ => simp [writeWord]

/-! ## Bus reads (R58, R60) -/

/-- A read of an idle core is exact and changes nothing (R60). -/
theorem busRead_idle (off : Offset) (s : State) (h : s.busy = false) : busRead off s = (readWord s (regAt off), s) := by
  simp [busRead, h]

/-- A read changes at most the count of draws (R60). -/
theorem busRead_state (off : Offset) (s : State) :
    (busRead off s).2 = s ∨ (busRead off s).2 = { s with draws := s.draws + 1 } := by
  unfold busRead
  simp only
  split
  · exact .inl rfl
  · split
    · exact .inr rfl
    · exact .inr rfl

/-- What a host read leaves: the state but for a name and, perhaps, the count of draws. -/
theorem hostRead_cases (off : Offset) (n : Nat) (s : State) :
    hostRead off n s = { s with hostVars := setVar n (busRead off s).1 s.hostVars } ∨
    hostRead off n s =
      { s with draws := s.draws + 1, hostVars := setVar n (busRead off s).1 s.hostVars } := by
  unfold hostRead
  rcases busRead_state off s with h | h <;> simp [h]

/-! ## Host steps (R91, R92, R260) -/

/-- All that a host step can do when it answers a next state. -/
theorem hostStep_cases (op : HostOp) (s t : State) (h : hostStep op s = .next t) :
    (op = .reset ∧ t = resetEvent s) ∨
    (∃ n, op = .wait n ∧
      t = (if s.busy then
            { hostRead RegWord.status.offset n s with
                hostOps := .wait n :: (hostRead RegWord.status.offset n s).hostOps }
          else hostRead RegWord.status.offset n s)) ∨
    (∃ off n, op = .read 32 off n ∧ aligned off = true ∧ t = hostRead off n s) ∨
    (∃ off v x, op = .write 32 off v ∧ aligned off = true ∧ hostValue s v = .ok x ∧ t = busWrite off x s) := by
  cases op with
  | reset => exact .inl ⟨rfl, by simpa [hostStep] using h.symm⟩
  | wait n => exact .inr (.inl ⟨n, rfl, by simpa [hostStep] using h.symm⟩)
  | read width off n =>
    simp only [hostStep] at h
    split at h
    · rename_i wf
      simp only [HostOp.wellFormed, Bool.and_eq_true, beq_iff_eq] at wf
      obtain ⟨rfl, ha⟩ := wf
      exact .inr (.inr (.inl ⟨off, n, rfl, ha, by simpa using h.symm⟩))
    · cases h
  | write width off v =>
    simp only [hostStep] at h
    split at h
    · rename_i wf
      simp only [HostOp.wellFormed, Bool.and_eq_true, beq_iff_eq] at wf
      obtain ⟨rfl, ha⟩ := wf
      split at h
      · rename_i x hx
        exact .inr (.inr (.inr ⟨off, v, x, rfl, ha, hx, by simpa using h.symm⟩))
      · cases h
    · cases h

/-! ## Operand checks -/

theorem withKeySize_none (s : State) (f : KeySize → State) (h : selectKey s.ksize = none) :
    withKeySize s f = .next (raise .ksize s) := by simp [withKeySize, h]

theorem withKeySize_some (s : State) (f : KeySize → State) (ks : KeySize) (h : selectKey s.ksize = some ks) :
    withKeySize s f = .next (f ks) := by simp [withKeySize, h]

/-- All that a key-using command can do. -/
theorem withKeySize_cases (s : State) (f : KeySize → State) :
    (s.ksize = 3 ∧ withKeySize s f = .next (raise .ksize s)) ∨
    (∃ ks, selectKey s.ksize = some ks ∧ withKeySize s f = .next (f ks)) := by
  have h : selectKey s.ksize = none → s.ksize = 3 := by generalize s.ksize = k; revert k; decide
  cases hk : selectKey s.ksize with
  | none => exact .inl ⟨h hk, withKeySize_none s f hk⟩
  | some ks => exact .inr ⟨ks, rfl, withKeySize_some s f ks hk⟩

/-- All that a command with a modulus can do. -/
theorem withModulus_cases (s : State) (zm : ZReg) (f : Nat → State) :
    (zval s zm = 0 ∧ withModulus s zm f = .next (raise .zeroMod s)) ∨
    (0 < zval s zm ∧ withModulus s zm f = .next (f (zval s zm))) := by
  unfold withModulus
  rcases Nat.eq_zero_or_pos (zval s zm) with h | h
  · exact .inl ⟨h, by simp [h]⟩
  · exact .inr ⟨h, by simp [Nat.pos_iff_ne_zero.mp h]⟩

/-- Reading the Z registers after a write of one (R190, R203). -/
theorem getElem_setZ (s : State) (r q : ZReg) (v : Nat) :
    (setZ s r v).z[q] = if q = r then BitVec.ofNat 2048 v else s.z[q] := by
  simp only [setZ_z, Fin.getElem_fin, Vector.getElem_set]
  by_cases h : q = r
  · simp [h]
  · have : r.val ≠ q.val := fun e => h (Fin.ext e.symm)
    simp [h, this]

/-- A value that fits the container reads back (R190). -/
theorem zval_setZ_self (s : State) (r : ZReg) (v : Nat) (h : v < 2 ^ 2048) : zval (setZ s r v) r = v := by
  rw [zval, getElem_setZ, if_pos rfl, BitVec.toNat_ofNat, Nat.mod_eq_of_lt h]

theorem zval_setZ_ne (s : State) (r q : ZReg) (v : Nat) (h : q ≠ r) : zval (setZ s r v) q = zval s q := by
  rw [zval, getElem_setZ, if_neg h]; rfl

/-! ## The step -/

/-- All that a step can do: nothing, a host operation, or the completion of the command in flight. -/
theorem step_cases (s : State) :
    (s.pend = none ∧ s.hostOps = [] ∧ step s = .next s) ∨
    (∃ op ops d, s.hostOps = op :: ops ∧ (s.pend = none ∧ d = s.delay ∨ s.pend ≠ none ∧ s.delay = d + 1) ∧
      step s = hostStep op { s with hostOps := ops, delay := d }) ∨
    (∃ w, s.pend = some w ∧ (s.delay = 0 ∨ s.hostOps = []) ∧ step s = engineStep w s) := by
  unfold step machineStep
  cases hp : s.pend with
  | none =>
    cases ho : s.hostOps with
    | nil => simp
    | cons op ops => exact .inr (.inl ⟨op, ops, s.delay, rfl, .inl ⟨rfl, rfl⟩, rfl⟩)
  | some w =>
    cases hd : s.delay with
    | zero => simp
    | succ d =>
      cases ho : s.hostOps with
      | nil => simp
      | cons op ops => exact .inr (.inl ⟨op, ops, d, rfl, .inr ⟨by simp, rfl⟩, rfl⟩)

end Sys2Proof.Machine
end

