-- ==== Sys2Proof/Laws/PerInstr.lean ====
section
/-! SUPPORT. What holds of every instruction as syntax, one lemma per constructor. -/

namespace Sys2Proof.Laws

/-- The word of the instruction has the match value of its own row of the opcode map under the row's mask (30_encoding.md
R85): its opcode is its row's, and every field it does not use is 0 (R84). -/
def EncodeLegal.Statement (i : Instr) : Prop :=
  ∃ row ∈ opcodeMap, row.mnemonic = i.mnemonic ∧ row.covers (encode i) = true

/-- The row that a proof names is a row of the map (R85). -/
theorem encode_legal_of_row {i : Instr} (row : OpcodeRow) (mem : row ∈ opcodeMap)
    (name : row.mnemonic = i.mnemonic) (covers : row.covers (encode i) = true) : EncodeLegal.Statement i :=
  ⟨row, mem, name, covers⟩

theorem EncodeLegal.nop : EncodeLegal.Statement .nop :=
  encode_legal_of_row ⟨"NOP", 0x00, 0xFFFFFFFF⟩ (by decide) rfl (by decide)

theorem EncodeLegal.enc : EncodeLegal.Statement .enc :=
  encode_legal_of_row ⟨"ENC", 0x01, 0xFFFFFFFF⟩ (by decide) rfl (by decide)

theorem EncodeLegal.dec : EncodeLegal.Statement .dec :=
  encode_legal_of_row ⟨"DEC", 0x02, 0xFFFFFFFF⟩ (by decide) rfl (by decide)

theorem EncodeLegal.hinit : EncodeLegal.Statement .hinit :=
  encode_legal_of_row ⟨"HINIT", 0x10, 0xFFFFFFFF⟩ (by decide) rfl (by decide)

theorem EncodeLegal.hblk : EncodeLegal.Statement .hblk :=
  encode_legal_of_row ⟨"HBLK", 0x11, 0xFFFFFFFF⟩ (by decide) rfl (by decide)

theorem EncodeLegal.hfin (nb : Fin 16) : EncodeLegal.Statement (.hfin nb) :=
  encode_legal_of_row ⟨"HFIN", 0x12, 0xFFFFF0FF⟩ (by decide) rfl (by revert nb; decide)

theorem EncodeLegal.cinit : EncodeLegal.Statement .cinit :=
  encode_legal_of_row ⟨"CINIT", 0x20, 0xFFFFFFFF⟩ (by decide) rfl (by decide)

theorem EncodeLegal.cenc : EncodeLegal.Statement .cenc :=
  encode_legal_of_row ⟨"CENC", 0x21, 0xFFFFFFFF⟩ (by decide) rfl (by decide)

theorem EncodeLegal.cencf (nb : Fin 16) : EncodeLegal.Statement (.cencf nb) :=
  encode_legal_of_row ⟨"CENCF", 0x22, 0xFFFFF0FF⟩ (by decide) rfl (by revert nb; decide)

theorem EncodeLegal.cdec : EncodeLegal.Statement .cdec :=
  encode_legal_of_row ⟨"CDEC", 0x23, 0xFFFFFFFF⟩ (by decide) rfl (by decide)

theorem EncodeLegal.cdecf : EncodeLegal.Statement .cdecf :=
  encode_legal_of_row ⟨"CDECF", 0x24, 0xFFFFFFFF⟩ (by decide) rfl (by decide)

theorem EncodeLegal.mexp (zd za zb zm : ZReg) : EncodeLegal.Statement (.mexp zd za zb zm) :=
  encode_legal_of_row ⟨"MEXP", 0x30, 0xFF000FFF⟩ (by decide) rfl (by revert zd za zb zm; decide +kernel)

theorem EncodeLegal.mmul (zd za zb zm : ZReg) : EncodeLegal.Statement (.mmul zd za zb zm) :=
  encode_legal_of_row ⟨"MMUL", 0x31, 0xFF000FFF⟩ (by decide) rfl (by revert zd za zb zm; decide +kernel)

theorem EncodeLegal.msub (zd za zb zm : ZReg) : EncodeLegal.Statement (.msub zd za zb zm) :=
  encode_legal_of_row ⟨"MSUB", 0x32, 0xFF000FFF⟩ (by decide) rfl (by revert zd za zb zm; decide +kernel)

theorem EncodeLegal.mred (zd za zm : ZReg) : EncodeLegal.Statement (.mred zd za zm) :=
  encode_legal_of_row ⟨"MRED", 0x33, 0xFF1C0FFF⟩ (by decide) rfl (by revert zd za zm; decide +kernel)

theorem EncodeLegal.zldb (zd : ZReg) : EncodeLegal.Statement (.zldb zd) :=
  encode_legal_of_row ⟨"ZLDB", 0x34, 0xFFFF8FFF⟩ (by decide) rfl (by revert zd; decide)

theorem EncodeLegal.zcmp (za zb : ZReg) : EncodeLegal.Statement (.zcmp za zb) :=
  encode_legal_of_row ⟨"ZCMP", 0x35, 0xFFE07FFF⟩ (by decide) rfl (by revert za zb; decide +kernel)

end Sys2Proof.Laws
end

