-- ==== Sys2Proof/Laws/Window.lean ====
section
/-! SUPPORT. The register map and its offsets. -/

namespace Sys2Proof.Machine

/-- Every register word stands at its offset (R51). -/
theorem regAt_offset (r : RegWord) : regAt r.offset = r := by
  cases r with
  | key w => revert w; decide
  | din w => revert w; decide
  | out0 w => revert w; decide
  | out1 w => revert w; decide
  | chain w => revert w; decide
  | z n w => revert n w; decide +kernel
  | _ => decide

/-- The offset is a multiple of 4 (R51, R56). -/
theorem aligned_offset (r : RegWord) : aligned r.offset = true := by
  cases r with
  | key w => revert w; decide
  | din w => revert w; decide
  | out0 w => revert w; decide
  | out1 w => revert w; decide
  | chain w => revert w; decide
  | z n w => revert n w; decide +kernel
  | _ => decide

/-- `MODW / 32` is the number of words (R40, R54). -/
@[simp] theorem modw_div (s : State) : s.modw / 32 = s.zWords := by
  unfold State.modw
  omega

/-- `MODW` is legal (R8). -/
theorem modw_bounds (s : State) : 128 ≤ s.modw ∧ s.modw ≤ 2048 := by
  have := s.zsize.isLt
  simp only [State.modw, State.zWords]
  omega

end Sys2Proof.Machine
end

