-- ==== Sys2Proof/Laws/Programs.lean ====
section
/-! SUPPORT. What a sequence of commands computes, and what the host's word by word reads and writes leave.
-/

namespace Sys2Proof.Machine

open Host

/-! ## Commands in sequence -/

/-- One line more at the front. -/
theorem runFeeds_cons (D : Option Block) (i : Instr) (fs : List Feed) (s t : State)
    (h : exec i { s with din := D.getD s.din } = .next t) :
    runFeeds ((D, i) :: fs) s = (runFeeds fs t).map fun (bs, u) => (outBlocks t ++ bs, u) := by
  simp only [runFeeds, h]

/-- One sequence after another. -/
theorem runFeeds_append (fs gs : List Feed) (s : State) :
    runFeeds (fs ++ gs) s =
      (runFeeds fs s).bind fun (bs, t) => (runFeeds gs t).map fun (cs, u) => (bs ++ cs, u) := by
  induction fs generalizing s with
  | nil => simp [runFeeds]
  | cons f fs ih =>
    obtain ⟨D, i⟩ := f
    simp only [List.cons_append, runFeeds]
    cases exec i { s with din := D.getD s.din } with
    | fault => rfl
    | refused => rfl
    | next t =>
      simp only [ih]
      cases runFeeds fs t with
      | none => rfl
      | some x => simp; cases runFeeds gs x.2 <;> simp

/-- A command of the modular unit that writes one Z register puts out no block (R39). -/
theorem runFeeds_setZ (i : Instr) (fs : List Feed) (s : State) (zd : ZReg) (v : Nat)
    (h : exec i s = .next (finish 0 (setZ s zd v))) :
    runFeeds ((none, i) :: fs) s = runFeeds fs (finish 0 (setZ s zd v)) := by
  rw [runFeeds_cons none i fs s _ h]
  cases runFeeds fs (finish 0 (setZ s zd v)) <;> rfl

@[simp] theorem zval_finish (s : State) (r : ZReg) (n : BitVec 2) : zval (finish n s) r = zval s r := rfl

/-- Every Z register after a write of one, of a value that fits the container (R190). -/
theorem zval_setZ (s : State) (r q : ZReg) (v : Nat) (h : v < 2 ^ 2048) :
    zval (setZ s r v) q = if q = r then v else zval s q := by
  split
  · rename_i e; subst e; exact zval_setZ_self _ _ _ h
  · exact zval_setZ_ne _ _ _ _ ‹_›

/-! ## Words read into names, and written from names (R91, R92, R268) -/

/-- A run of one step more. -/
theorem run_succ (k : Nat) (s t : State) (h : step s = .next t) :
    Sys2Proof.core.run (k + 1) s = Sys2Proof.core.run k t := by
  have h' : Sys2Proof.core.step s = .next t := h
  simp only [Core.run, h']

theorem readWord_host (s : State) (ops : List HostOp) (vs : List (Nat × Word)) (r : RegWord) :
    readWord { s with hostOps := ops, hostVars := vs } r = readWord s r := by cases r <;> rfl

/-- The host's read of one word of an idle core (R60, R91). -/
theorem step_read_idle (r : RegWord) (n : Nat) (s : State) (ops : List HostOp) (hb : s.pend = none)
    (h : s.hostOps = .rd r.offset n :: ops) :
    step s = .next { s with hostOps := ops, hostVars := setVar n (readWord s r) s.hostVars } := by
  have hi : ({ s with hostOps := ops } : State).busy = false := by simp [State.busy, hb]
  rcases step_cases s with ⟨_, he, _⟩ | ⟨op, ops', d, ho, hd, hs⟩ | ⟨w, hp, _⟩
  · rw [h] at he; cases he
  · rw [h] at ho
    obtain ⟨rfl, rfl⟩ := List.cons.inj ho
    have hd' : d = s.delay := by
      rcases hd with ⟨_, e⟩ | ⟨e, _⟩
      · exact e
      · exact absurd hb e
    subst hd'
    rw [hs]
    simp only [hostStep, HostOp.wellFormed, aligned_offset, beq_self_eq_true, Bool.and_self, if_true, hostRead]
    rw [busRead_idle _ _ hi, regAt_offset, show readWord { s with hostOps := ops } r = readWord s r by cases r <;> rfl]
  · rw [hb] at hp; cases hp

/-- The reads of `readWords` in an idle core give every name its word and change no other name. -/
theorem run_readWords (rs : List RegWord) (n : Nat) (s : State) (ops : List HostOp) (hb : s.pend = none)
    (h : s.hostOps = readWords rs n ++ ops) :
    ∃ vs, Sys2Proof.core.run rs.length s = .next { s with hostOps := ops, hostVars := vs } ∧
      (∀ i (hi : i < rs.length), lookupVar (n + i) vs = some (readWord s rs[i])) ∧
      ∀ m, m < n → lookupVar m vs = lookupVar m s.hostVars := by
  induction rs generalizing n s with
  | nil =>
    refine ⟨s.hostVars, ?_, by simp, fun _ _ => rfl⟩
    simp only [readWords, List.nil_append] at h
    subst h; rfl
  | cons r rs ih =>
    have h1 := step_read_idle r n s (readWords rs (n + 1) ++ ops) hb h
    obtain ⟨vs, h2, h3, h4⟩ := ih (n + 1)
      { s with hostOps := readWords rs (n + 1) ++ ops, hostVars := setVar n (readWord s r) s.hostVars } hb rfl
    refine ⟨vs, ?_, ?_, ?_⟩
    · rw [List.length_cons, run_succ _ s _ h1]; exact h2
    · intro i hi
      cases i with
      | zero => simpa using h4 n (by omega)
      | succ i =>
        have := h3 i (by simpa using hi)
        rw [readWord_host] at this
        rw [List.getElem_cons_succ, ← this]
        congr 1; omega
    · intro m hm
      rw [h4 m (by omega)]
      exact lookupVar_setVar_ne n m _ _ (by omega)

/-- Names that hold the words of a value from word `k` on join to that part of it (R52, R54). -/
theorem joinWords_eq (vs : List (Nat × Word)) (x k count : Nat) (n : Nat)
    (h : ∀ i, i < count → lookupVar (n + i) vs = some (BitVec.ofNat 32 (x / 2 ^ (32 * (k + i))))) :
    joinWords vs n count = some (x / 2 ^ (32 * k) % 2 ^ (32 * count)) := by
  induction count generalizing n k with
  | zero => simp [joinWords, Nat.mod_one]
  | succ count ih =>
    have h0 := h 0 (by omega)
    have hr := ih (k + 1) (n + 1) fun i hi => by
      have := h (i + 1) (by omega)
      rwa [show n + (i + 1) = n + 1 + i by omega, show k + (i + 1) = k + 1 + i by omega] at this
    simp only [Nat.add_zero] at h0
    simp only [joinWords, h0, hr, BitVec.toNat_ofNat, Option.some.injEq]
    rw [show 32 * (count + 1) = 32 + 32 * count by omega, pow_add, Nat.mod_mul,
      show 32 * (k + 1) = 32 * k + 32 by omega, pow_add, Nat.div_div_eq_div_mul]

theorem wordAt_eq {n : Nat} (x : BitVec n) (i : Nat) : wordAt x i = BitVec.ofNat 32 (x.toNat / 2 ^ (32 * i)) := by
  apply BitVec.eq_of_toNat_eq
  simp [wordAt, BitVec.extractLsb'_toNat, Nat.shiftRight_eq_div_pow]

/-- A word write looks at none of the host's fields, nor changes one. -/
theorem writeWord_host (s : State) (v : Word) (r : RegWord) :
    (writeWord s v r).pend = s.pend ∧ (writeWord s v r).hostVars = s.hostVars ∧ (writeWord s v r).zsize = s.zsize ∧
      ∀ ops, writeWord { s with hostOps := ops } v r = { writeWord s v r with hostOps := ops } := by
  cases r with
  | z m w =>
    simp only [writeWord, State.zWords]
    by_cases h : w.val < 4 + s.zsize.val
    · simp [h]
    · simp [h]
  | _ => exact ⟨rfl, rfl, rfl, fun _ => rfl⟩

/-- The host's write of the value of a name to one word of an idle core, other than CMD and STATUS (R63, R91). -/
theorem step_write_idle (r : RegWord) (n : Nat) (v : Word) (s : State) (ops : List HostOp) (hb : s.pend = none)
    (h : s.hostOps = .write 32 r.offset (.var n) :: ops) (hv : lookupVar n s.hostVars = some v)
    (h1 : r ≠ .cmd) (h2 : r ≠ .status) (h3 : r.isReserved s = false) :
    step s = .next { writeWord s v r with hostOps := ops } := by
  have hi : ({ s with hostOps := ops } : State).busy = false := by simp [State.busy, hb]
  have h3' : r.isReserved { s with hostOps := ops } = false := by cases r <;> exact h3
  rcases step_cases s with ⟨_, he, _⟩ | ⟨op, ops', d, ho, hd, hs⟩ | ⟨w, hp, _⟩
  · rw [h] at he; cases he
  · rw [h] at ho
    obtain ⟨rfl, rfl⟩ := List.cons.inj ho
    have hd' : d = s.delay := by
      rcases hd with ⟨_, e⟩ | ⟨e, _⟩
      · exact e
      · exact absurd hb e
    subst hd'
    rw [hs]
    simp only [hostStep, HostOp.wellFormed, aligned_offset, beq_self_eq_true, Bool.and_self, if_true, hostValue, hv,
      busWrite, regAt_offset, h1, h2, h3', hi, if_false, Bool.false_eq_true]
    exact congrArg _ ((writeWord_host s v r).2.2.2 ops)
  · rw [hb] at hp; cases hp

/-- The writes of `writeNames` to an idle core write the value of every name to its word. -/
theorem run_writeNames (rs : List RegWord) (n : Nat) (s : State) (ops : List HostOp) (val : Nat → Word)
    (hb : s.pend = none) (h : s.hostOps = writeNames rs n ++ ops)
    (hr : ∀ r ∈ rs, r ≠ .cmd ∧ r ≠ .status ∧ r.isReserved s = false)
    (hv : ∀ i, i < rs.length → lookupVar (n + i) s.hostVars = some (val i)) :
    Sys2Proof.core.run rs.length s =
      .next { (rs.zipIdx.foldl (fun t p => writeWord t (val p.2) p.1) s) with hostOps := ops } := by
  suffices H : ∀ (k : Nat) (n : Nat) (s : State), s.pend = none → s.hostOps = writeNames rs n ++ ops →
      (∀ r ∈ rs, r ≠ .cmd ∧ r ≠ .status ∧ r.isReserved s = false) →
      (∀ i, i < rs.length → lookupVar (n + i) s.hostVars = some (val (k + i))) →
      ∀ t : State, (∀ ops, { t with hostOps := ops } = ({ s with hostOps := ops } : State)) →
      Sys2Proof.core.run rs.length s =
        .next { ((rs.zipIdx k).foldl (fun t p => writeWord t (val p.2) p.1) t) with hostOps := ops } from
    H 0 n s hb h hr (by simpa using hv) s fun _ => rfl
  clear hv hr h hb
  induction rs with
  | nil =>
    intro k n s _ h _ _ t ht
    simp only [writeNames, List.nil_append] at h
    have := ht ops
    simp only [List.zipIdx_nil, List.foldl_nil, List.length_nil, this]
    subst h; rfl
  | cons r rs ih =>
    intro k n s hb h hr hv t ht
    obtain ⟨h1, h2, h3⟩ := hr r (by simp)
    obtain ⟨w1, w2, w3, w4⟩ := writeWord_host s (val k) r
    have hs := step_write_idle r n (val k) s (writeNames rs (n + 1) ++ ops) hb h (by simpa using hv 0 (by simp)) h1 h2 h3
    rw [List.length_cons, run_succ _ _ _ hs, List.zipIdx_cons, List.foldl_cons]
    refine ih (k + 1) (n + 1) { writeWord s (val k) r with hostOps := writeNames rs (n + 1) ++ ops } (w1.trans hb) rfl
      ?_ ?_ _ ?_
    · intro q hq
      obtain ⟨q1, q2, q3⟩ := hr q (by simp [hq])
      refine ⟨q1, q2, ?_⟩
      rw [← q3]
      cases q with
      | z m w => exact congrArg (fun z => decide (4 + z.val ≤ w.val)) w3
      | _ => rfl
    · intro i hi
      have := hv (i + 1) (by simpa using hi)
      rw [show k + 1 + i = k + (i + 1) by omega, show n + 1 + i = n + (i + 1) by omega, ← this]
      simp [w2]
    · intro ops'
      show { writeWord t (val k) r with hostOps := ops' } = { writeWord s (val k) r with hostOps := ops' }
      rw [← (writeWord_host t (val k) r).2.2.2, ← w4, ht]

end Sys2Proof.Machine
end

