-- ==== Sys2Proof/Tests/Slice0.lean ====
section
/-! SUPPORT. Tests: the smoke tests of the checks, the words and vectors of 95_test_vectors.md (the section is named at each
theorem), and, for every statement with hypotheses, a state and operands that meet them (`witness_<statement>`).
-/

namespace Sys2Proof.Tests

open Sys2Proof Sys2Proof.Machine Sys2Proof.Safety

-- One test at a time: tests that wait for the kernel each hold a thread.
set_option Elab.async false

/-! ## Helpers -/

/-- The bytes of a number written with `n` bytes, the first byte written lowest. -/
def lanes : Nat → Nat → Nat
  | 0, _ => 0
  | n + 1, w => (w % 256) * 256 ^ n + lanes n (w / 256)

/-- A block as 95_test_vectors.md writes it: 32 hexadecimal digits, byte 0 first. -/
def blk (w : Nat) : Block := BitVec.ofNat 128 (lanes 16 w)

/-- The block `M` of 95_test_vectors.md. -/
def blkM : Block := blk 0x00112233445566778899AABBCCDDEEFF

/-- The key whose byte `j` is `j`: its first 16, 24 and 32 bytes are K16, K24 and K32 of 95_test_vectors.md. -/
def keyK : KeyReg := BitVec.ofNat 256 (lanes 32 0x000102030405060708090A0B0C0D0E0F101112131415161718191A1B1C1D1E1F)

/-- A core after reset with `MODW = 128`, the size of 95_test_vectors.md. -/
def core0 : State := { State.reset with zsize := 0 }

/-- The state a step outcome goes on in. -/
def nextOf : Host.Outcome State Fault Refusal → Option State
  | .next t => some t
  | .fault _ => none
  | .refused _ => none

/-- What `f` sees of the next state of a command. -/
def seen {α : Type} (f : State → α) (i : Instr) (s : State) : Option α := (nextOf (exec i s)).map f

/-! ## The checks refuse ill-formed terms -/

theorem test_illegal_reserved_bits : legalWord 0x01000000 = false ∧ legalWord 0x80116030 = false := by decide

theorem test_illegal_opcode : legalWord 0x03 = false ∧ legalWord 0x2F = false ∧ legalWord 0xFF = false := by decide

theorem test_illegal_unused_field :
    legalWord 0x00000100 = false ∧ legalWord 0x00001001 = false ∧ legalWord 0x00001012 = false ∧
      legalWord 0x00041033 = false ∧ legalWord 0x00001035 = false ∧ legalWord 0x00200035 = false ∧
      legalWord 0x00008034 = false ∧ legalWord 0x00000130 = false := by decide

theorem test_ill_formed_width :
    HostOp.wellFormed (.read 8 0x004 0) = false ∧ HostOp.wellFormed (.write 16 0x060 (.lit 0)) = false := by decide

theorem test_ill_formed_offset :
    aligned 0x002 = false ∧ HostOp.wellFormed (.read 32 0x002 0) = false ∧
      HostOp.wellFormed (.write 32 0xFFF (.lit 0)) = false := by decide

theorem test_opcode_map_rows_are_apart :
    opcodeMap.Pairwise (fun a b => a.pattern &&& b.mask ≠ b.pattern &&& a.mask ∧ a.mnemonic ≠ b.mnemonic) := by decide

/-! ## Decoding (section 6.1, and the refusals of section 6.2) -/

theorem test_decode_control : decode 0x00000000 = .ok .nop := by decide

theorem test_decode_cipher : decode 0x00000001 = .ok .enc ∧ decode 0x00000002 = .ok .dec := by decide

theorem test_decode_hash :
    decode 0x00000010 = .ok .hinit ∧ decode 0x00000011 = .ok .hblk ∧ decode 0x00000012 = .ok (.hfin 0) ∧
      decode 0x00000112 = .ok (.hfin 1) ∧ decode 0x00000F12 = .ok (.hfin 15) := by decide

theorem test_decode_codec :
    decode 0x00000020 = .ok .cinit ∧ decode 0x00000021 = .ok .cenc ∧ decode 0x00000922 = .ok (.cencf 9) ∧
      decode 0x00000023 = .ok .cdec ∧ decode 0x00000024 = .ok .cdecf := by decide

theorem test_decode_modular :
    decode 0x00116030 = .ok (.mexp 6 2 4 0) ∧ decode 0x00FFF030 = .ok (.mexp 7 7 7 7) ∧
      decode 0x0032D031 = .ok (.mmul 5 5 4 1) ∧ decode 0x003ED032 = .ok (.msub 5 5 7 1) ∧
      decode 0x00237033 = .ok (.mred 7 6 1) ∧ decode 0x00005034 = .ok (.zldb 5) ∧
      decode 0x00170035 = .ok (.zcmp 6 5) := by decide

theorem test_decode_refuses_by_name :
    decode 0x0000002F = .error (.unassignedOpcode 0x2F) ∧ decode 0x00000100 = .error (.unusedField .nb) ∧
      decode 0x00001001 = .error (.unusedField .zd) ∧ decode 0x00008034 = .error (.unusedField .za) ∧
      decode 0x00041033 = .error (.unusedField .zb) ∧ decode 0x00200035 = .error (.unusedField .zm) ∧
      decode 0x80116030 = .error .reservedBits := by decide

theorem test_encode_programs :
    (signCommands ++ verifyCommands).map encode =
      [0x00005034, 0x00116030, 0x00237033, 0x0032D031, 0x002FF031, 0x003ED032, 0x000D4030,
       0x00006034, 0x00227033, 0x001A6030, 0x00155030, 0x001DF030, 0x001ED031, 0x00170035] := by decide

theorem test_table_word : decodeTableWord 32 0x00FFF030 = some (.mexp 7 7 7 7) ∧ decodeTableWord 32 0x03 = none := by
  decide

/-! ## The functions of the cipher, the hash, the codec and the signature (sections 1 to 4) -/

theorem test_cipher_primitives :
    permute defaultSbox blkM = blk 0x4F93080688C8944AB11E16F640EF1318 ∧
      mix defaultSbox blkM = blk 0xD2B1852BA689B5125BB0D3CC065B983D ∧
      mixDeep defaultSbox blkM 2 = blk 0x9D19334394FA8E5D0EC845A7180E4A56 ∧
      feistelRound defaultSbox blkM (subKey keyK 1) = blk 0x8899AABBCCDDEEFF2AF8A0C83BBAE720 := by decide +kernel

theorem test_split_and_halves :
    split blkM = blk 0x0022446688AACCEE1133557799BBDDFF ∧
      swapHalves blkM = blk 0x8899AABBCCDDEEFF0011223344556677 := by decide +kernel

theorem test_hash_of_25_zeros :
    hashStream defaultSbox (List.replicate 25 0) = blk 0xCFA8560895BD14DD873C170E2F10B3A3 := by decide +kernel

theorem test_codec_stream_of_9 :
    encodeStream defaultSbox .k128 0 (List.replicate 9 0x41) =
      [blk 0x98D9B6DC10EF7F246DAD1E539FB4E9BB, blk 0xEC9AE3529C6F96FC9F51055F0BA028E5] ∧
    decodeStream defaultSbox .k128 0
      [blk 0x98D9B6DC10EF7F246DAD1E539FB4E9BB, blk 0xEC9AE3529C6F96FC9F51055F0BA028E5] =
        some (List.replicate 9 0x41) := by decide +kernel

theorem test_tail :
    tail 8 0 = some (0, 8) ∧ tail 9 0 = none ∧ tail 9 16 = some (9, 0) ∧ tail 16 16 = some (16, 0) ∧
      tail 24 16 = some (16, 8) ∧ tail 25 16 = none ∧ tail 5 16 = none ∧ tail 31 32 = some (15, 0) ∧
      tail 20 48 = none ∧ tail 0x4140000000000000 0 = none := by decide

/-- The toy domain of section 1.8. -/
def toy : Domain := { p := 2267, q := 103, g := 354 }

theorem test_toy_domain : toy.keysInRange 47 29 = true ∧ toy.fits 128 = true ∧ toy.keysInRange 1 29 = false := by decide

theorem test_sign_and_verify :
    sign toy 47 29 153120472369942032056551563407864589845 = { y := 2094, r := 964, s := 39 } ∧
      verify toy 2094 964 39 153120472369942032056551563407864589845 = true ∧
      verify toy 2094 964 38 153120472369942032056551563407864589845 = false := by decide +kernel

/-! ## The commands, one step each (sections 2.3, 3, 4.1, 4.4 and 5) -/

theorem test_nop_keeps_eq : seen State.statusWord .nop { core0 with eq := true, nout := 2 } = some 0x0000000A := by
  decide

theorem test_enc :
    seen (fun t => (t.out0, t.statusWord)) .enc { core0 with key := keyK, din := blkM, ksize := 1 } =
      some (blk 0x49865E229A2DAC2EA32929F2E05412A8, 0x00000012) := by decide +kernel

theorem test_enc_reserved_ksize :
    seen (fun t => (t.out0, t.statusWord, t.irq)) .enc { core0 with din := blkM, ksize := 3, ie := true } =
      some (0, 0x00000306, true) := by decide

theorem test_dec :
    seen State.out0 .dec { core0 with key := keyK, din := blkM, ksize := 2 } =
      some (blk 0x32CDEBF45C276B1A4824BC32C23AFEC8) := by decide +kernel

theorem test_hinit :
    seen (fun t => (t.chain, t.len, t.statusWord)) .hinit { core0 with chain := 5, len := 7, nout := 1 } =
      some (0, 0, 0x00000002) := by decide

theorem test_hblk :
    seen (fun t => (t.chain, t.len)) .hblk { core0 with din := blk 0x000102030405060708090A0B0C0D0E0F, ksize := 3 } =
      some (blk 0xBDEEA8303F121515436E4D38A7F9A71A, 16) := by decide +kernel

/-- The bytes of DIN from NB on are stale. -/
theorem test_hfin_one_block :
    seen (fun t => (t.out0, t.chain == t.out0, t.len)) (.hfin 1)
        { core0 with din := blk 0x41FFFFFFFFFFFFFFFFFFFFFFFFFFFFFF } =
      some (blk 0x7331EE2710E1996B22EF8B5E8CBF6E15, true, 1) := by decide +kernel

theorem test_hfin_two_blocks :
    seen (fun t => (t.out0, t.statusWord)) (.hfin 9) { core0 with din := blk 0x41414141414141414141414141414141 } =
      some (blk 0x6B3A3920716285500409E342C58AE7FA, 0x00000012) := by decide +kernel

theorem test_cinit :
    seen (fun t => (t.chain, t.len, t.out0)) .cinit { core0 with chain := 5, len := 7, out0 := 9 } = some (0, 0, 9) := by
  decide

theorem test_cenc :
    seen (fun t => (t.out0, t.chain, t.len)) .cenc { core0 with din := blk 0x000102030405060708090A0B0C0D0E0F } =
      some (blk 0x62D6970754753AB65A90346E42CECD76, blk 0x000102030405060708090A0B0C0D0E0F, 16) := by decide +kernel

theorem test_cencf_two_blocks :
    seen (fun t => (t.out0, t.out1, t.chain, t.len, t.nout)) (.cencf 9)
        { core0 with din := blk 0x41414141414141414100000000000000 } =
      some (blk 0x98D9B6DC10EF7F246DAD1E539FB4E9BB, blk 0xEC9AE3529C6F96FC9F51055F0BA028E5, blk 9, 9, 2) := by
  decide +kernel

theorem test_cencf_one_block :
    seen (fun t => (t.out0, t.out1, t.nout)) (.cencf 8) { core0 with out1 := 3 } =
      some (blk 0x5A2C43D6F18994A2AFAB00CD25D1D3A2, 3, 1) := by decide +kernel

theorem test_cdec :
    seen (fun t => (t.out0, t.chain == t.out0, t.len)) .cdec
        { core0 with din := blk 0x98D9B6DC10EF7F246DAD1E539FB4E9BB } =
      some (blk 0x41414141414141414140000000000000, true, 16) := by decide +kernel

/-- The state before step 5 of section 4.1. -/
def beforeCdecf : State :=
  { core0 with chain := blk 0x41414141414141414140000000000000, len := 16,
               din := blk 0xEC9AE3529C6F96FC9F51055F0BA028E5 }

theorem test_cdecf :
    seen (fun t => (t.out0, t.len, t.tlen, t.keepWord, t.nout)) .cdecf beforeCdecf =
      some (blk 9, 32, 9, 0x00000009, 1) := by decide +kernel

/-- The state of section 4.4. -/
def badTrailer : State := { core0 with din := blk 0x98D9B6DC10EF7F246DAD1E539FB4E9BB }

theorem test_cdecf_trailer_error :
    seen (fun t => (t.statusWord, t.out0, t.chain, t.len)) .cdecf badTrailer = some (0x00000506, 0, 0, 0) := by
  decide +kernel

theorem test_mexp :
    seen (fun t => t.z[2]) (.mexp 2 3 4 1) { core0 with z := #v[0, 13, 0, 7, 18446744073709551616, 0, 0, 0] } =
      some 9 ∧
    seen (fun t => t.z[2]) (.mexp 2 3 4 1) { core0 with z := #v[0, 7, 9, 0, 0, 0, 0, 0] } = some 1 := by decide +kernel

theorem test_mexp_aliased :
    seen (fun t => (t.z, t.statusWord)) (.mexp 1 1 1 1) { core0 with z := #v[8, 5, 7, 6, 4, 3, 2, 1] } =
      some (#v[8, 0, 7, 6, 4, 3, 2, 1], 0x00000002) := by decide +kernel

theorem test_mmul_wide :
    seen (fun t => t.z[2]) (.mmul 2 3 4 1)
        { core0 with z := #v[0, BitVec.ofNat 2048 (2 ^ 127 - 1), 0, BitVec.ofNat 2048 (2 ^ 128 - 1),
                             BitVec.ofNat 2048 (2 ^ 128 - 1), 0, 0, 0] } = some 1 := by decide +kernel

theorem test_mmul_zero_modulus :
    seen (fun t => (t.z[2], t.statusWord)) (.mmul 2 3 4 1) { core0 with z := #v[0, 0, 8, 6, 5, 0, 0, 0], eq := true } =
      some (8, 0x0000040E) := by decide +kernel

theorem test_msub_negative :
    seen (fun t => t.z[2]) (.msub 2 3 4 1) { core0 with z := #v[0, 7, 0, 3, 20, 0, 0, 0] } = some 4 := by decide +kernel

theorem test_msub_above_modulus :
    seen (fun t => t.z[2]) (.msub 2 3 4 1) { core0 with z := #v[0, 7, 0, 20, 3, 0, 0, 0] } = some 3 := by decide +kernel

theorem test_mred :
    seen (fun t => t.z[2]) (.mred 2 3 1) { core0 with z := #v[0, 103, 0, 964, 0, 0, 0, 0] } = some 37 := by
  decide +kernel

theorem test_zldb :
    seen (fun t => (t.z[0], readWord t (.z 0 3))) (.zldb 0)
        { core0 with out0 := blk 0x7331EE2710E1996B22EF8B5E8CBF6E15 } =
      some (0x7331EE2710E1996B22EF8B5E8CBF6E15, 0x7331EE27) := by decide +kernel

theorem test_zcmp_top_word :
    seen State.statusWord (.zcmp 3 4)
        { core0 with z := #v[0, 0, 0, 853, BitVec.ofNat 2048 (853 + 2 ^ 96), 0, 0, 0], eq := true } =
      some 0x00000002 := by decide +kernel

theorem test_zcmp_equal :
    seen State.statusWord (.zcmp 3 4) { core0 with z := #v[0, 0, 0, 853, 853, 0, 0, 0] } = some 0x0000000A := by
  decide +kernel

/-! ## The interface, the step and the reset (sections 6.2 to 6.6) -/

theorem test_lanes :
    ldblk .din blkM = [.wr 0x060 0x33221100, .wr 0x064 0x77665544, .wr 0x068 0xBBAA9988, .wr 0x06C 0xFFEEDDCC] ∧
      readWord (busWrite 0x060 0x33221100 core0) (.din 0) = 0x33221100 ∧
      byteAt (busWrite 0x060 0x33221100 core0).din 1 = 0x11 := by decide

theorem test_len_words :
    readWord { core0 with len := 0x100000005 } .lenLo = 5 ∧ readWord { core0 with len := 0x100000005 } .lenHi = 1 := by
  decide

theorem test_zcfg_values :
    readWord core0 .zcfg = 4 ∧ readWord { core0 with zsize := 4 } .zcfg = 8 ∧
      readWord { core0 with zsize := 60 } .zcfg = 64 := by decide

/-- A core with HINIT in flight and one host step before its completion. -/
def busy0 : State := { core0 with cmd := 0x10, pend := some 0x10, delay := 1 }

theorem test_busy_write_is_lost :
    (busWrite 0x060 0x12345678 busy0).din = 0 ∧ (busWrite 0x060 0x12345678 busy0).statusWord = 0x00000205 ∧
      (busWrite 0x060 0x12345678 core0).din = 0x12345678 := by decide

theorem test_busy_reserved_write : busWrite 0x024 1 busy0 = busy0 ∧ busWrite 0x900 1 busy0 = busy0 := by decide +kernel

theorem test_busy_completion :
    ((nextOf (step { busWrite 0x060 1 busy0 with delay := 0 })).map State.statusWord) = some 0x00000206 := by decide

theorem test_illegal_completes :
    ((nextOf (step (core0.withFetchWord 32 0x80116030))).map fun t => (t.statusWord, t.cmd)) =
      some (0x00000106, 0x80116030) := by decide +kernel

theorem test_first_error_kept :
    ((nextOf (step ({ core0 with err := true, ecode := 3, ie := true }.withFetchWord 32 0x03))).map State.statusWord) =
      some 0x00000306 := by decide +kernel

theorem test_fetch_word_runs :
    ((nextOf (step (State.reset.withFetchWord 32 0x22))).map fun t => (t.out0, t.statusWord)) =
      some (blk 0xAA21A1A113E4E488F12D363ACE6E811F, 0x00000012) := by decide +kernel

theorem test_interrupt :
    ({ core0 with ie := true, done := true }).irq = true ∧ ({ core0 with done := true }).irq = false ∧
      ({ core0 with ie := true }).irq = false ∧ ({ core0 with ie := true, err := true }).irq = true := by decide

theorem test_name_without_value :
    hostStep (.write 32 0x060 (.var 3)) core0 = .fault (.unboundName 3) ∧
      hostStep (.read 8 0x060 3) core0 = .fault (.busError 8 0x060) := ⟨rfl, rfl⟩

theorem test_names :
    lookupVar 3 (setVar 3 7 [(1, 5), (3, 6), (4, 9)]) = some 7 ∧ setVar 2 8 [(1, 5), (3, 6)] = [(1, 5), (2, 8), (3, 6)] := by
  decide

theorem test_reset_discards :
    (resetEvent { busy0 with key := 9, err := true, ecode := 2, zsize := 7 }).pend = none ∧
      (resetEvent { busy0 with key := 9, err := true, ecode := 2, zsize := 7 }).key = 0 ∧
      (resetEvent { busy0 with key := 9, err := true, ecode := 2, zsize := 7 }).zcfgWord = 11 := by decide

theorem test_save_and_restore :
    saveStream false 1 = [.rd 0x090 1, .rd 0x094 2, .rd 0x098 3, .rd 0x09C 4, .rd 0x010 5, .rd 0x014 6] ∧
      (saveStream true 1).drop 12 = [.rd 0x058 13, .rd 0x05C 14, .rd 0x008 15] ∧
      (restoreStream true 1).getLast? = some (.write 32 0x008 (.var 15)) := by decide

/-- The words that program P4 reads of OUT0, and the integer of section 6.6. -/
theorem test_named_values :
    namedBlock [(1, 0xDCB6D998), (2, 0x247FEF10), (3, 0x531EAD6D), (4, 0xBBE9B49F)] 1 =
        some (blk 0x98D9B6DC10EF7F246DAD1E539FB4E9BB) ∧
      namedInt 2 [(7, 5), (8, 1)] 7 = some (2 ^ 32 + 5) ∧ namedInt 2 [(7, 5)] 7 = none := by decide +kernel

/-- The output of program P4: KEEP is 9 and the last `wait` reads NOUT = 1. -/
theorem test_decode_output :
    decodeOutput 2 [(0, 0x12), (1, 0x9), (2, 0x41414141), (3, 0x41414141), (4, 0x00004041), (5, 0),
        (6, 0), (7, 0), (8, 0), (9, 0x09000000)] = some (List.replicate 9 0x41) ∧
      decodeOutput 1 [(0, 0x506), (1, 0), (2, 0), (3, 0), (4, 0), (5, 0)] = none := by decide +kernel

/-! ## Witnesses: the hypotheses of the statements are met -/

theorem witness_EncodeInvertsDecode : decode 0x00FFF030 = .ok (.mexp 7 7 7 7) := by decide

theorem witness_OpcodeMapRowsAreDecoded :
    ({ mnemonic := "MRED", pattern := 0x00000033, mask := 0xFF1C0FFF } : OpcodeRow) ∈ opcodeMap ∧
      OpcodeRow.covers { mnemonic := "MRED", pattern := 0x00000033, mask := 0xFF1C0FFF } 0x00237033 = true ∧
      OpcodeRow.covers { mnemonic := "MRED", pattern := 0x00000033, mask := 0xFF1C0FFF } 0x00041033 = false := by
  decide

/-- One illegal word for each of the three reasons, an idle core, and a core at whose engine the word is. -/
theorem witness_IllegalWordRecordsEIllegal :
    Illegal 0x01000000 ∧ Illegal 0x0000002F ∧ Illegal 0x00000100 ∧ core0.busy = false ∧
      (core0.withFetchWord 32 0x01000000).pend = some 0x01000000 ∧ engineTurn (core0.withFetchWord 32 0x01000000) :=
  ⟨.inl (by decide), .inr (.inl (by decide)), .inr (.inr ⟨[], .nb, by decide, by decide, by decide⟩), by decide,
    by decide, .inl rfl⟩

theorem witness_CommandWriteIsAccepted :
    (({ core0 with hostOps := [.wr 0x000 0x10] }).hostOps = [.wr 0x000 0x10] ∧ core0.pend = none) ∧
      (({ busy0 with hostOps := [.wr 0x000 0x11] }).hostOps = [.wr 0x000 0x11] ∧
        busy0.pend = some 0x10 ∧ busy0.delay = 0 + 1) := by decide

/-- Both ways to be the engine's turn: no step left, and no host operation left. -/
theorem witness_StepRunsTheCommandInFlight :
    decode 0x10 = .ok .hinit ∧ busy0.pend = some 0x10 ∧ engineTurn busy0 ∧
      engineTurn { busy0 with delay := 0, hostOps := [.reset] } :=
  ⟨by decide, rfl, .inr rfl, .inl rfl⟩

theorem witness_StepPerformsTheHostOperation :
    (({ core0 with hostOps := [.wait 0] }).hostOps = .wait 0 :: [] ∧ core0.pend = none) ∧
      (({ busy0 with hostOps := [.wait 0] }).hostOps = .wait 0 :: [] ∧ busy0.pend = some 0x10 ∧
        busy0.delay = 0 + 1) ∧
      (core0.pend = none ∧ core0.hostOps = []) := by decide

/-- Each of the three legal key sizes (EncResult, DecResult, CencResult, CdecResult,
DecryptCommandsInvertEncryptCommands), and the reserved one (ReservedKeySizeRaises). -/
theorem witness_KeySizes :
    selectKey core0.ksize = some .k128 ∧ selectKey ({ core0 with ksize := 1 }).ksize = some .k192 ∧
      selectKey ({ core0 with ksize := 2 }).ksize = some .k256 ∧ ({ core0 with ksize := 3 }).ksize = 3 ∧
      [Instr.enc, .dec, .cenc, .cencf 15, .cdec, .cdecf].all keyUsing = true := by decide

/-- The first and the last sub-key, the round itself, and the bytes of a block and a sub-key taken apart (EncResult). -/
theorem witness_EncResult :
    (∀ Y i, (fun Y i => feistelRound defaultSbox Y (subKey keyK i)) Y i = feistelRound defaultSbox Y (subKey keyK i)) ∧
      (1 ≤ 1 ∧ 1 ≤ 4 ∧ 1 ≤ 4 ∧ 4 ≤ 4) ∧
      (∀ Y, mix defaultSbox Y =
        permute defaultSbox (permute defaultSbox (permute defaultSbox (permute defaultSbox Y)))) ∧
      ∀ j, j < 8 → byteAt (lo blkM) j = byteAt blkM (8 + j) ∧
        byteAt (cat (lo blkM) (subKey keyK 4)) j = byteAt (lo blkM) j ∧
        byteAt (cat (lo blkM) (subKey keyK 4)) (8 + j) = byteAt (subKey keyK 4) j := by
  refine ⟨fun _ _ => rfl, by decide, fun _ => rfl, ?_⟩
  have all : ∀ j : Fin 8, byteAt (lo blkM) j.val = byteAt blkM (8 + j.val) ∧
      byteAt (cat (lo blkM) (subKey keyK 4)) j.val = byteAt (lo blkM) j.val ∧
      byteAt (cat (lo blkM) (subKey keyK 4)) (8 + j.val) = byteAt (subKey keyK 4) j.val := by decide +kernel
  exact fun j h => all ⟨j, h⟩

/-- The last byte of a full block, and the last byte of a stream of 25, which stands in its tail (HfinResult). -/
theorem witness_HfinResult_stream :
    (15 < 16 ∧ 16 * 0 + 15 < (List.replicate 25 (0 : Byte)).length) ∧
      (8 < 16 ∧ 16 * 1 + 8 < (List.replicate 25 (0 : Byte)).length ∧
        1 = (List.replicate 25 (0 : Byte)).length / 16) := by decide

/-- At NB = 8 one block, at NB = 9 two (HfinResult, CencfResult, PadBytes). -/
theorem witness_PadShapes :
    (core0.len + BitVec.ofNat 64 8 = 8 ∧ ∃ B, pad core0.din 8 8 = (B, none)) ∧
      (core0.len + BitVec.ofNat 64 9 = 9 ∧ ∃ B B', pad core0.din 9 9 = (B, some B')) ∧
      selectKey core0.ksize = some .k128 :=
  ⟨⟨by decide, _, rfl⟩, ⟨by decide, _, _, rfl⟩, by decide⟩

theorem witness_CdecfResult :
    selectKey beforeCdecf.ksize = some .k128 ∧
      tail (trailerLen (decrypt beforeCdecf.sbox .k128 beforeCdecf.key (beforeCdecf.din ^^^ beforeCdecf.chain)))
        beforeCdecf.len = some (9, 0) := by decide +kernel

theorem witness_CdecfTrailerError :
    selectKey badTrailer.ksize = some .k128 ∧
      tail (trailerLen (decrypt badTrailer.sbox .k128 badTrailer.key (badTrailer.din ^^^ badTrailer.chain)))
        badTrailer.len = none := by decide +kernel

/-- A modulus that is not 0 (MexpResult, MmulResult, MsubResult, MredResult), the least one among them. -/
theorem witness_Modulus :
    zval { core0 with z := #v[2267, 1, 0, 0, 0, 0, 0, 0] } 0 ≠ 0 ∧
      zval { core0 with z := #v[2267, 1, 0, 0, 0, 0, 0, 0] } 1 = 1 := by decide +kernel

theorem witness_ZeroModulusRaises :
    modulusOf (.mexp 1 2 3 4) = some 4 ∧ modulusOf (.mmul 1 2 3 4) = some 4 ∧ modulusOf (.msub 1 2 3 4) = some 4 ∧
      modulusOf (.mred 1 2 7) = some 7 ∧ zval core0 4 = 0 ∧ zval core0 7 = 0 := by decide +kernel

/-- The edges of the clauses: differences 0 and 8, then 9 and 15, then 9 in the one shape and 8 in the other. -/
theorem witness_TailMatchesRule :
    ((16 : Int) ≤ 16 ∧ (16 : Int) - 16 ≤ 8) ∧ ((16 : Int) ≤ 24 ∧ (24 : Int) - 16 ≤ 8) ∧
      ((9 : Int) < 16 ∧ (16 : Int) ≤ 16 ∧ 9 ≤ (9 : Int) - (16 - 16) ∧ (9 : Int) - (16 - 16) ≤ 15) ∧
      ((15 : Int) < 16 ∧ (16 : Int) ≤ 16 ∧ 9 ≤ (15 : Int) - (16 - 16) ∧ (15 : Int) - (16 - 16) ≤ 15) ∧
      (¬ ((16 : Int) ≤ 25 ∧ (25 : Int) - 16 ≤ 8) ∧ ¬ ((25 : Int) < 16)) ∧
      (¬ ((16 : Int) ≤ 8) ∧ ¬ (9 ≤ (8 : Int) - (16 - 16))) := by decide

/-- Two different keys that agree on the bytes the 128-bit variant uses. -/
theorem witness_UnusedKeyBytesIgnored :
    (∀ j, j < keyBytes .k128 → byteAt keyK j = byteAt (keyK.setWidth 128 |>.setWidth 256) j) ∧
      keyK ≠ (keyK.setWidth 128 |>.setWidth 256) := by
  constructor
  · have all : ∀ j : Fin 16, byteAt keyK j.val = byteAt (keyK.setWidth 128 |>.setWidth 256) j.val := by decide +kernel
    exact fun j h => all ⟨j, h⟩
  · decide +kernel

/-- Two different blocks that agree on NB bytes, and both commands answering a next state. -/
theorem witness_StaleInputBytesIgnored :
    (∀ j, j < (1 : Fin 16).val →
        byteAt ({ core0 with din := 0x41 }).din j = byteAt (blk 0x41FFFFFFFFFFFFFFFFFFFFFFFFFFFFFF) j) ∧
      (∃ t, exec (.hfin 1) { core0 with din := 0x41 } = .next t) ∧
      (∃ t, exec (.cencf 1) { core0 with din := 0x41 } = .next t) := by
  refine ⟨fun j h => ?_, ⟨_, rfl⟩, ⟨_, rfl⟩⟩
  have all : ∀ j : Fin 1, byteAt ({ core0 with din := 0x41 }).din j.val =
      byteAt (blk 0x41FFFFFFFFFFFFFFFFFFFFFFFFFFFFFF) j.val := by decide +kernel
  exact all ⟨j, h⟩

theorem stream_of_length (n : Nat) : ∃ s : List Byte, s.length = n := ⟨List.replicate n 0, List.length_replicate⟩

/-- The empty stream, the longest one that is recovered, and the longest one of all. -/
theorem witness_CodecRoundTrip :
    (∃ s : List Byte, s.length = 0 ∧ s.length < 2 ^ 64) ∧
      (∃ s : List Byte, s.length < 2 ^ 64 ∧ s.length + 8 = 2 ^ 64) ∧
      ∃ s : List Byte, s.length < 2 ^ 64 ∧ ¬ s.length + 8 ≤ 2 ^ 64 := by
  obtain ⟨a, ha⟩ := stream_of_length 0
  obtain ⟨b, hb⟩ := stream_of_length 18446744073709551608
  obtain ⟨c, hc⟩ := stream_of_length 18446744073709551615
  exact ⟨⟨a, ha, by omega⟩, ⟨b, by omega, by omega⟩, ⟨c, by omega, by omega⟩⟩

/-- Ciphertext of one block, whose trailer CDECF refuses, and of two, of which it puts out the last (CodecRoundTrip). -/
theorem witness_CodecRoundTrip_lines :
    selectKey core0.ksize = some .k128 ∧ [badTrailer.din] ≠ [] ∧ [badTrailer.din, beforeCdecf.din] ≠ [] ∧
      (runFeeds (decodeFeeds [badTrailer.din]) core0).map (fun x => x.2.nout) = some 0 ∧
      (runFeeds (decodeFeeds [badTrailer.din, beforeCdecf.din]) core0).map (fun x => (x.1.length, x.2.nout)) =
        some (2, 1) := by decide +kernel

/-- The toy domain. -/
theorem witness_Domain : 0 < toy.q ∧ toy.g ^ toy.q % toy.p = 1 := by decide +kernel

/-- The toy domain in Z0 to Z2, x and k in Z3 and Z4, and the digest of section 1.8 in OUT0 (SignatureEquations). -/
def toSign : State :=
  { core0 with z := #v[2267, 103, 354, 47, 29, 0, 0, 0], out0 := blk 0x7331EE2710E1996B22EF8B5E8CBF6E15 }

/-- The same domain and digest, and y, r and s in Z3 to Z5 (SignatureEquations). -/
def toVerify : State := { toSign with z := #v[2267, 103, 354, 2094, 964, 39, 0, 0] }

theorem witness_SignatureEquations :
    toy = { p := zval toSign 0, q := zval toSign 1, g := zval toSign 2 } ∧ 0 < toy.p ∧ 0 < toy.q ∧
      toy = { p := zval toVerify 0, q := zval toVerify 1, g := zval toVerify 2 } := by decide +kernel

/-- The commands of Sign lead from the first state to one whose y, r and s the second holds (SignThenVerifyAccepts). -/
theorem witness_SignThenVerifyAccepts :
    (zval toSign 0 ≠ 0 ∧ zval toSign 1 ≠ 0 ∧ zval toSign 2 ^ zval toSign 1 % zval toSign 0 = 1) ∧
      ∃ t, runFeeds (signCommands.map fun i => (none, i)) toSign = some ([], t) ∧ toVerify.out0 = toSign.out0 ∧
        zval toVerify 0 = zval toSign 0 ∧ zval toVerify 1 = zval toSign 1 ∧ zval toVerify 2 = zval toSign 2 ∧
        zval toVerify 3 = zval t 4 ∧ zval toVerify 4 = zval t 6 ∧ zval toVerify 5 = zval t 5 := by
  refine ⟨by decide +kernel, ?_⟩
  have h : (runFeeds (signCommands.map fun i => (none, i)) toSign).map
      (fun x => (x.1, zval x.2 4, zval x.2 6, zval x.2 5)) = some ([], 2094, 964, 39) := by decide +kernel
  obtain ⟨⟨bs, t⟩, h1, h2⟩ := Option.map_eq_some_iff.mp h
  have hb : bs = [] := congrArg Prod.fst h2
  have h4 : zval t 4 = 2094 := congrArg (fun x => x.2.1) h2
  have h6 : zval t 6 = 964 := congrArg (fun x => x.2.2.1) h2
  have h5 : zval t 5 = 39 := congrArg (fun x => x.2.2.2) h2
  have z : zval toVerify 3 = 2094 ∧ zval toVerify 4 = 964 ∧ zval toVerify 5 = 39 := by decide +kernel
  have d : zval toVerify 0 = zval toSign 0 ∧ zval toVerify 1 = zval toSign 1 ∧ zval toVerify 2 = zval toSign 2 := by
    decide +kernel
  rw [hb] at h1
  exact ⟨t, h1, rfl, d.1, d.2.1, d.2.2, z.1.trans h4.symm, z.2.1.trans h6.symm, z.2.2.trans h5.symm⟩

theorem test_verify_commands :
    (runFeeds (verifyCommands.map fun i => (none, i)) toVerify).map (fun x => x.2.eq) = some true := by decide +kernel

/-- Both ends of each reserved range. -/
theorem witness_ReservedOffsetsReadZero :
    [0x024, 0x03F, 0x0A0, 0x0FF, 0x900, 0xFFF].all (fun a =>
      0x024 ≤ a && a < 0x040 || 0x0A0 ≤ a && a < 0x100 || 0x900 ≤ a) = true := by decide

/-- With MODW = 128 word 3 is the last one and word 4 the first reserved one (HighZWordsAreReserved, ZRegisterWords). -/
theorem witness_ZWords :
    core0.busy = false ∧ (3 : Fin 64).val < core0.modw / 32 ∧ core0.zWords ≤ (4 : Fin 64).val ∧
      core0.modw / 32 ≤ (4 : Fin 64).val := by decide

theorem witness_WrittenWordReadsBack :
    core0.busy = false ∧ [RegWord.lenLo, .lenHi, .key 7, .din 3, .chain 0, .z 7 3].all (readWrite core0) = true ∧
      readWrite core0 (.z 7 4) = false ∧
      [RegWord.keep, .tlenLo, .tlenHi, .zcfg, .out0 0, .out1 3].all readOnly = true := by decide

/-- A stream saved and restored by the same names, of both kinds. -/
theorem witness_WrittenWordReadsBack_stream (codec : Bool) :
    ∃ s u t : State, s.busy = false ∧ s.hostOps = saveStream codec 1 ++ [.reset] ∧
      u.busy = false ∧ u.hostOps = restoreStream codec 1 ++ [] ∧
      Sys2Proof.core.run (streamWords codec).length s = .next t ∧
      ∀ k, k < 15 → lookupVar (1 + k) u.hostVars = lookupVar (1 + k) t.hostVars := by
  obtain ⟨vs, h, _⟩ := run_readWords (streamWords codec) 1
    { core0 with chain := 5, len := 16, hostOps := saveStream codec 1 ++ [.reset] } [HostOp.reset] rfl rfl
  exact ⟨_, { core0 with hostOps := restoreStream codec 1 ++ [], hostVars := vs }, _, rfl, rfl, rfl, rfl, h,
    fun _ _ => rfl⟩

theorem witness_BusyWritesAreLost :
    busy0.busy = true ∧ regAt 0x000 ≠ .status ∧ (regAt 0x000).isReserved busy0 = false ∧
      regAt 0x10C ≠ .status ∧ (regAt 0x10C).isReserved busy0 = false ∧ ({ busy0 with err := true }).err = true := by
  decide

theorem witness_BusyReads :
    core0.busy = false ∧ busy0.busy = true ∧ regAt 0x060 ∉ [RegWord.cmd, .status, .ctrl, .zcfg] ∧
      (regAt 0x060).isReserved busy0 = false ∧
      ({ core0 with hostOps := rdblk .out1 7 ++ [HostOp.reset] }).hostOps = rdblk .out1 7 ++ [HostOp.reset] ∧
      ({ core0 with hostOps := rdz core0.zWords 7 1 ++ [] }).hostOps = rdz core0.zWords 7 1 ++ [] := by decide +kernel

theorem witness_BusErrorsFault :
    (8 ≠ 32 ∨ (0x004 : Offset).toNat % 4 ≠ 0) ∧ (32 ≠ 32 ∨ (0x006 : Offset).toNat % 4 ≠ 0) ∧
      (32 = 32 ∧ (0xFFC : Offset).toNat % 4 = 0) := by decide

theorem witness_AccessesAreIdempotent :
    core0.busy = false ∧ regAt 0x008 ≠ .cmd ∧ regAt 0x008 ≠ .status := by decide

theorem witness_FirstErrorIsKept : core0.err = false ∧ ({ core0 with err := true, ecode := 3 }).err = true := by decide

/-- An error that stays, one that the host clears, and one that a reset in mid-command clears. -/
theorem witness_ErrorClearedOnlyByHostOrReset :
    (∃ t, step { core0 with err := true, ecode := 3 } = .next t ∧ t.err = true) ∧
      (∃ t, step { core0 with err := true, ecode := 3, hostOps := [.wr 0x004 0x4] } = .next t ∧ t.err = false) ∧
      (∃ t, step { busy0 with err := true, ecode := 3, hostOps := [.reset] } = .next t ∧ t.err = false) ∧
      core0.pend = none ∧ busy0.delay ≠ 0 :=
  ⟨⟨_, rfl, by decide⟩, ⟨_, rfl, by decide⟩, ⟨_, rfl, by decide⟩, rfl, by decide⟩

/-- ZCMP, with a reset next in the host's list, and the reset both change EQ. -/
theorem witness_EqWrittenOnlyByZcmp :
    (∃ t, step ({ core0 with hostOps := [.reset] }.withFetchWord 32 0x00170035) = .next t ∧ t.eq ≠ core0.eq) ∧
      engineTurn ({ core0 with hostOps := [.reset] }.withFetchWord 32 0x00170035) ∧
      (∃ t, step { core0 with eq := true, hostOps := [.reset] } = .next t ∧ t.eq ≠ true) ∧ core0.pend = none :=
  ⟨⟨_, rfl, by decide +kernel⟩, .inl rfl, ⟨_, rfl, by decide⟩, rfl⟩

/-- Each of the five clauses has a command that changes its register. -/
theorem witness_ResultRegistersHaveTheirWriters :
    seen (fun t => t.out1 != core0.out1) (.cencf 9) core0 = some true ∧
      seen (fun t => t.keepp != beforeCdecf.keepp) .cdecf beforeCdecf = some true ∧
      seen (fun t => t.out0 != core0.out0) .enc core0 = some true ∧
      seen (fun t => t.len != core0.len) .hblk core0 = some true ∧
      seen (fun t => t.z[3] != core0.z[3]) (.zldb 3) { core0 with out0 := 1 } = some true := by decide +kernel

theorem witness_CompletionRaisesInterrupt :
    ({ core0 with ie := true }).ie = true ∧ (∃ t, exec .nop { core0 with ie := true } = .next t) ∧
      (0x6 : Word).getLsbD 1 = true ∧ (0x6 : Word).getLsbD 2 = true ∧ core0.busy = false ∧
      (0x30 : Word).getLsbD 0 = false :=
  ⟨rfl, ⟨_, rfl⟩, by decide, by decide, rfl, by decide⟩

/-- The host resets an idle core, and one with a command in flight. -/
theorem witness_ResetLeaves :
    ({ core0 with hostOps := [.reset] }).pend = none ∧ ({ busy0 with hostOps := [.reset] }).delay ≠ 0 := by decide

theorem witness_ConstantsNeverChange : ∃ t, step { core0 with hostOps := [.reset] } = .next t := ⟨_, rfl⟩

theorem witness_OperandsHeldWhileBusy :
    busy0.pend = some 0x10 ∧ busy0.delay = 0 + 1 ∧ HostOp.wr 0x060 7 ≠ .reset ∧
      ∃ t, step { busy0 with hostOps := [.wr 0x060 7] } = .next t ∧ t.err = true :=
  ⟨rfl, rfl, by decide, _, rfl, by decide⟩

/-- The completion may be any number of host steps away. -/
theorem witness_WaitTerminates :
    busy0.pend = some 0x10 ∧ ({ busy0 with hostOps := [.wait 0], delay := 0 }).hostOps = .wait 0 :: [] ∧
      ({ busy0 with hostOps := [.wait 0], delay := 9 }).hostOps = .wait 0 :: [] := by decide

/-- A busy core with an error recorded, MODW-bit values in Z registers and KEEPP at its edge meets the invariant, and
both its host's step and its engine's answer. -/
def full0 : State :=
  { busy0 with err := true, ecode := 5, nout := 2, keepp := 9, keepl := 8, hostOps := [.wr 0x008 1],
               z := #v[BitVec.ofNat 2048 (2 ^ 128 - 1), 1, 2, 3, 4, 5, 6, 7] }

theorem witness_InvKeptByStep :
    Inv full0 ∧ (∃ t, step full0 = .next t) ∧ (∃ t, step { full0 with delay := 0 } = .next t) :=
  ⟨⟨by decide +kernel, fun w h => by cases h; exact ⟨rfl, rfl⟩, by decide, by decide⟩, ⟨_, rfl⟩, ⟨_, rfl⟩⟩

end Sys2Proof.Tests
end

section
/-! The host's turn (R6, R7, R65): one equation of `step` for each way in which no command completes. -/

namespace Sys2Proof.Machine

section HostTurn
variable {s : State} {op : HostOp} {ops : List HostOp}

/-- With no command in flight the host may act at once, whatever the latency counter holds. -/
theorem step_idle_hostOp (hp : s.pend = none) (ho : s.hostOps = op :: ops) :
    step s = hostStep op { s with hostOps := ops } := by
  rcases step_cases s with ⟨_, hnil, _⟩ | ⟨op', ops', d, hcons, hturn, hstep⟩ | ⟨w, hw, _⟩
  case inl => simp [ho] at hnil
  case inr.inr => simp [hp] at hw
  case inr.inl =>
    obtain ⟨rfl, rfl⟩ := List.cons.inj (ho.symm.trans hcons)
    obtain rfl : d = s.delay := by simpa [hp] using hturn
    exact hstep

/-- With a command in flight the host may act while the free latency lasts, and uses up one step of it (R65). -/
theorem step_busy_hostOp {d : Nat} (hp : s.pend ≠ none) (hd : s.delay = d + 1) (ho : s.hostOps = op :: ops) :
    step s = hostStep op { s with hostOps := ops, delay := d } := by
  rcases step_cases s with ⟨hnone, _⟩ | ⟨op', ops', d', hcons, hturn, hstep⟩ | ⟨w, _, hengine, _⟩
  case inl => exact absurd hnone hp
  case inr.inr => simp [hd, ho] at hengine
  case inr.inl =>
    obtain ⟨rfl, rfl⟩ := List.cons.inj (ho.symm.trans hcons)
    obtain rfl : d = d' := by simpa [hp, hd] using hturn
    exact hstep

/-- An idle core does nothing on its own (R263). -/
theorem step_idle_noHostOp (hp : s.pend = none) (ho : s.hostOps = []) : step s = .next s := by
  rcases step_cases s with ⟨_, _, hstep⟩ | ⟨op, ops, d, hcons, _⟩ | ⟨w, hw, _⟩
  case inl => exact hstep
  case inr.inl => simp [ho] at hcons
  case inr.inr => simp [hp] at hw

end HostTurn

/-- Settles O8: one equation of the step for each of its three clauses. -/
theorem stepPerformsTheHostOperation : Obligations.StepPerformsTheHostOperation := by
  intro s
  refine ⟨fun op ops ho hp => step_idle_hostOp hp ho, fun op ops w d ho hp hd => ?_, step_idle_noHostOp⟩
  exact step_busy_hostOp (by simp [hp]) hd ho

end Sys2Proof.Machine
end

section
/-! KEY (R23): a cipher variant uses its own bytes of KEY and no others. -/

namespace Sys2Proof.Machine

open Sys2Proof.Safety

/-- Sub-key `i` is bytes `8(i-1)` to `8i-1` of KEY (R120). -/
theorem byteAt_subKey (key : KeyReg) (i j : Nat) (hj : j < 8) :
    byteAt (subKey key i) j = byteAt key (8 * (i - 1) + j) := by
  have hbits : 64 * (i - 1) + 8 * j = 8 * (8 * (i - 1) + j) := by omega
  apply BitVec.eq_of_getLsbD_eq
  intro k hk
  have hk64 : 8 * j + k < 64 := by omega
  simp [byteAt, subKey, hk, hk64, ← hbits, Nat.add_assoc]

/-- Every sub-key of a schedule lies within the bytes its variant uses (R33, R121). -/
theorem schedule_within_keyBytes (ks : KeySize) : ∀ i ∈ schedule ks, 8 * (i - 1) + 8 ≤ keyBytes ks := by
  cases ks <;> decide

section UsedKeyBytes
variable {ks : KeySize} {key key' : KeyReg} (hkey : ∀ j, j < keyBytes ks → byteAt key j = byteAt key' j)
include hkey

/-- Keys with the same used bytes have the same sub-keys (R23, R120). -/
theorem subKey_eq_of_keyBytes (i : Nat) (hi : i ∈ schedule ks) : subKey key i = subKey key' i := by
  have hwithin := schedule_within_keyBytes ks i hi
  apply eq_of_byteAt
  intro j hj
  have hj8 : j < 8 := by omega
  rw [byteAt_subKey key i j hj8, byteAt_subKey key' i j hj8]
  exact hkey _ (by omega)

/-- `encrypt` reads KEY through the sub-keys of the schedule alone (R122). -/
theorem encrypt_eq_of_keyBytes (S : SboxTable) (X : Block) : encrypt S ks key X = encrypt S ks key' X := by
  apply List.foldl_ext
  intro x i hi
  rw [subKey_eq_of_keyBytes hkey i hi]

theorem decrypt_eq_of_keyBytes (S : SboxTable) (X : Block) : decrypt S ks key X = decrypt S ks key' X := by
  rw [decrypt, decrypt, encrypt_eq_of_keyBytes hkey]

end UsedKeyBytes

/-- Settles O32: both directions of the cipher read KEY through the sub-keys of the schedule. -/
theorem unusedKeyBytesIgnored : Obligations.UnusedKeyBytesIgnored := by
  intro S ks key key' X hkey
  exact ⟨encrypt_eq_of_keyBytes hkey S X, decrypt_eq_of_keyBytes hkey S X⟩

end Sys2Proof.Machine
end

section
/-! What a completion leaves (R88, R233): a command error, or the command's own register writes and then STATUS. -/

namespace Sys2Proof.Machine

open Host Sys2Proof.Safety

/-- A command error is the state the rules describe: STATUS alone is written, and ECODE only
the first time (R233, R234). -/
theorem raise_eq_erred (e : ErrorCode) (s : State) : raise e s = erred s e.code := by
  cases herr : s.err <;> simp [raise, recordError, finish, erred, herr]

/-- The registers that a command which raises no error may write, by R22 and R25 to R30, STATUS aside: `u` is `s` but
for those. EQ of a ZCMP is given in full (R38, R198). -/
def WritesOwnRegisters (s u : State) : Instr → Prop
  | .nop => u = s
  | .enc | .dec => ∃ o, u = { s with out0 := o }
  | .hinit | .hblk | .cinit => ∃ c l, u = { s with chain := c, len := l }
  | .hfin _ | .cenc | .cdec => ∃ o c l, u = { s with out0 := o, chain := c, len := l }
  | .cencf _ => ∃ o o' c l, u = { s with out0 := o, out1 := o', chain := c, len := l }
  | .cdecf => ∃ o c tl kp kl l,
      u = { s with out0 := o, chain := c, tlen := tl, keepp := kp, keepl := kl, len := l }
  | .mexp zd _ _ _ | .mmul zd _ _ _ | .msub zd _ _ _ | .mred zd _ _ | .zldb zd => ∃ v, u = setZ s zd v
  | .zcmp za zb => u = { s with eq := decide (s.z[za] = s.z[zb]) }

/-- The two ways a command of the engine completes (R88): with an error, or with its writes done. -/
def Completes (i : Instr) (s t : State) : Prop :=
  (∃ e, t = raise e s) ∨ ∃ n u, WritesOwnRegisters s u i ∧ t = finish n u

theorem Completes.raised {i : Instr} {s : State} (e : ErrorCode) : Completes i s (raise e s) := .inl ⟨e, rfl⟩

theorem Completes.finished {i : Instr} {s u : State} (n : BitVec 2) (h : WritesOwnRegisters s u i) :
    Completes i s (finish n u) := .inr ⟨n, u, h, rfl⟩

/-- A key-using command completes if what it does for each variant is a completion of it (R33). -/
theorem Completes.of_withKeySize {i : Instr} {s t : State} {f : KeySize → State} (h : withKeySize s f = .next t)
    (hf : ∀ ks, Completes i s (f ks)) : Completes i s t := by
  rcases withKeySize_cases s f with ⟨_, hraise⟩ | ⟨ks, _, hnext⟩
  · obtain rfl := Outcome.next.inj (hraise.symm.trans h)
    exact .raised _
  · obtain rfl := Outcome.next.inj (hnext.symm.trans h)
    exact hf ks

/-- A command with a modulus completes if its write of the result is a completion of it (R191). -/
theorem Completes.of_withModulus {i : Instr} {s t : State} {zm : ZReg} {f : Nat → State}
    (h : withModulus s zm f = .next t) (hf : ∀ m, Completes i s (f m)) : Completes i s t := by
  rcases withModulus_cases s zm f with ⟨_, hraise⟩ | ⟨_, hnext⟩
  · obtain rfl := Outcome.next.inj (hraise.symm.trans h)
    exact .raised _
  · obtain rfl := Outcome.next.inj (hnext.symm.trans h)
    exact hf _

theorem execCencf_completes {nb : Fin 16} {s t : State} (h : execCencf nb s = .next t) : Completes (.cencf nb) s t := by
  apply Completes.of_withKeySize h
  intro ks
  dsimp only
  split
  · exact .finished 1 ⟨_, s.out1, _, _, rfl⟩
  · exact .finished 2 ⟨_, _, _, _, rfl⟩

theorem execCdecf_completes {s t : State} (h : execCdecf s = .next t) : Completes .cdecf s t := by
  apply Completes.of_withKeySize h
  intro ks
  dsimp only
  split
  · exact .raised .trailer
  · exact .finished 1 ⟨_, _, _, _, _, _, rfl⟩

theorem execZcmp_completes {za zb : ZReg} {s t : State} (h : execZcmp za zb s = .next t) :
    Completes (.zcmp za zb) s t := by
  obtain rfl := Outcome.next.inj h
  apply Completes.finished
  simp [WritesOwnRegisters, zval, beq_eq_decide, BitVec.toNat_inj]

/-- All that a command can do: it raises an error, or writes its own registers and finishes. -/
theorem exec_completes {i : Instr} {s t : State} (h : exec i s = .next t) : Completes i s t := by
  cases i with
  | nop => obtain rfl := Outcome.next.inj h; exact .finished 0 rfl
  | enc | dec => exact .of_withKeySize h fun ks => .finished 1 ⟨_, rfl⟩
  | hinit | hblk | cinit => obtain rfl := Outcome.next.inj h; exact .finished 0 ⟨_, _, rfl⟩
  | hfin nb => obtain rfl := Outcome.next.inj h; exact .finished 1 ⟨_, _, _, rfl⟩
  | cenc | cdec => exact .of_withKeySize h fun ks => .finished 1 ⟨_, _, _, rfl⟩
  | cencf nb => exact execCencf_completes h
  | cdecf => exact execCdecf_completes h
  | mexp zd za zb zm | mmul zd za zb zm | msub zd za zb zm | mred zd za zm =>
    simp only [exec, execMexp, execMmul, execMsub, execMred] at h
    exact .of_withModulus h fun m => .finished 0 ⟨_, rfl⟩
  | zldb zd => obtain rfl := Outcome.next.inj h; exact .finished 0 ⟨_, rfl⟩
  | zcmp za zb => exact execZcmp_completes h

end Sys2Proof.Machine
end

section
/-! What commands leave unchanged (R22 to R30, R38), read off the two ways a command completes. -/

namespace Sys2Proof.Machine

open Host Sys2Proof.Safety

section Commands
variable {i : Instr} {s t u : State}

/-- No command's own writes touch the control fields, the error fields and the constants, and EQ is a ZCMP's
alone (R38). -/
theorem WritesOwnRegisters.frame (h : WritesOwnRegisters s u i) :
    u.ie = s.ie ∧ u.err = s.err ∧ u.ecode = s.ecode ∧ u.zsize = s.zsize ∧ u.sbox = s.sbox ∧
      (u.eq = s.eq ∨ ∃ za zb, i = .zcmp za zb ∧ u.eq = decide (s.z[za] = s.z[zb])) := by
  cases i with
  | nop => obtain rfl := h; simp
  | enc | dec => obtain ⟨o, rfl⟩ := h; simp
  | hinit | hblk | cinit => obtain ⟨c, l, rfl⟩ := h; simp
  | hfin nb | cenc | cdec => obtain ⟨o, c, l, rfl⟩ := h; simp
  | cencf nb => obtain ⟨o, o', c, l, rfl⟩ := h; simp
  | cdecf => obtain ⟨o, c, tl, kp, kl, l, rfl⟩ := h; simp
  | mexp zd za zb zm | mmul zd za zb zm | msub zd za zb zm | mred zd za zm | zldb zd => obtain ⟨v, rfl⟩ := h; simp
  | zcmp za zb => obtain rfl := h; exact ⟨rfl, rfl, rfl, rfl, rfl, .inr ⟨za, zb, rfl, rfl⟩⟩

/-- CTRL.IE is the host's, ZCFG and SBOX are constants, and DONE is set by every completion (R32, R36, R40, R41). -/
theorem exec_frame (h : exec i s = .next t) : t.ie = s.ie ∧ t.done = true ∧ t.zsize = s.zsize ∧ t.sbox = s.sbox := by
  rcases exec_completes h with ⟨e, rfl⟩ | ⟨n, u, hu, rfl⟩
  · simp
  · obtain ⟨hie, -, -, hzsize, hsbox, -⟩ := hu.frame
    exact ⟨hie, finish_done n u, hzsize, hsbox⟩

/-- A recorded error outlives every command (R37, R234). -/
theorem exec_keeps_error (h : exec i s = .next t) (herr : s.err = true) : t.err = true ∧ t.ecode = s.ecode := by
  rcases exec_completes h with ⟨e, rfl⟩ | ⟨n, u, hu, rfl⟩
  · simp [herr]
  · obtain ⟨-, huerr, hcode, -⟩ := hu.frame
    exact ⟨huerr.trans herr, hcode⟩

/-- Of the commands ZCMP alone writes EQ (R38). -/
theorem exec_eq_flag (h : exec i s = .next t) :
    t.eq = s.eq ∨ ∃ za zb, i = .zcmp za zb ∧ t.eq = decide (s.z[za] = s.z[zb]) := by
  rcases exec_completes h with ⟨e, rfl⟩ | ⟨n, u, hu, rfl⟩
  · simp
  · obtain ⟨-, -, -, -, -, heq⟩ := hu.frame
    exact heq

/-- A write of one Z register changes no other (R190). -/
theorem eq_of_setZ_changes {zd r : ZReg} {v : Nat} (h : (setZ s zd v).z[r] ≠ s.z[r]) : zd = r := by
  by_contra hne
  exact h (by rw [getElem_setZ, if_neg (Ne.symm hne)])

end Commands

/-- Settles O52: by the list of every command's own writes; an error writes none of these registers. -/
theorem resultRegistersHaveTheirWriters : Obligations.ResultRegistersHaveTheirWriters := by
  intro i s t h
  rcases exec_completes h with ⟨e, rfl⟩ | ⟨n, u, hu, rfl⟩
  · simp
  · cases i with
    | nop | zcmp za zb => obtain rfl := hu; simp
    | enc | dec => obtain ⟨o, rfl⟩ := hu; simp
    | hinit | hblk | cinit => obtain ⟨c, l, rfl⟩ := hu; simp
    | hfin nb | cenc | cdec => obtain ⟨o, c, l, rfl⟩ := hu; simp
    | cencf nb => obtain ⟨o, o', c, l, rfl⟩ := hu; simp
    | cdecf => obtain ⟨o, c, tl, kp, kl, l, rfl⟩ := hu; simp
    | mexp zd za zb zm | mmul zd za zb zm | msub zd za zb zm | mred zd za zm | zldb zd =>
      obtain ⟨v, rfl⟩ := hu
      exact ⟨by simp, by simp, by simp, by simp, fun r hr => congrArg some (eq_of_setZ_changes hr)⟩

/-- Settles O27: each of the six commands begins with the check of KSIZE. -/
theorem reservedKeySizeRaises : Obligations.ReservedKeySizeRaises := by
  refine ⟨⟨rfl, rfl, rfl⟩, fun s i hi hk => ?_⟩
  have hreserved : selectKey s.ksize = none := by rw [hk]; rfl
  have hcheck (f : KeySize → State) : withKeySize s f = .next (erred s 3) := by
    rw [withKeySize_none s f hreserved, raise_eq_erred]
    rfl
  cases i with
  | enc | dec | cenc | cencf nb | cdec | cdecf => exact hcheck _
  | nop | hinit | hblk | hfin nb | cinit | mexp zd za zb zm | mmul zd za zb zm | msub zd za zb zm | mred zd za zm
  | zldb zd | zcmp za zb => cases hi

end Sys2Proof.Machine
end

section
/-! What a step can do to the error fields, EQ and the constants (R37, R38, R40, R241). -/

namespace Sys2Proof.Machine

open Host Sys2Proof.Safety

/-- STATUS is the word at offset 0x004 (R51). -/
theorem offset_of_regAt_status {off : Offset} (h : regAt off = .status) (ha : aligned off = true) : off = 0x004 := by
  have hrange : 4 ≤ off.toNat ∧ off.toNat < 8 := by
    simp only [regAt, ite_eq_iff, reduceCtorEq, and_false, false_or, or_false, and_true] at h
    omega
  have hmod : off.toNat % 4 = 0 := by simpa [aligned] using ha
  apply BitVec.eq_of_toNat_eq
  change off.toNat = 4
  omega

section HostOperations
variable {s t : State} {op : HostOp}

theorem writeWord_frame (s : State) (v : Word) (r : RegWord) :
    (writeWord s v r).eq = s.eq ∧ (writeWord s v r).err = s.err ∧ (writeWord s v r).ecode = s.ecode ∧
      (writeWord s v r).zsize = s.zsize ∧ (writeWord s v r).sbox = s.sbox := by
  rcases writeWord_cases s v r with h | ⟨-, h⟩ | ⟨x, h⟩ | ⟨x, h⟩ | ⟨x, h⟩ | ⟨x, h⟩ | ⟨n, w, -, -, h⟩ <;> simp [h]

theorem busWrite_frame (off : Offset) (v : Word) (s : State) :
    (busWrite off v s).eq = s.eq ∧ (busWrite off v s).zsize = s.zsize ∧ (busWrite off v s).sbox = s.sbox := by
  rcases busWrite_cases off v s with ⟨-, h⟩ | ⟨-, -, h⟩ | ⟨-, -, -, h⟩ | ⟨-, -, h⟩ | ⟨-, -, -, -, h⟩
  case inr.inr.inr.inr =>
    obtain ⟨heq, -, -, hzsize, hsbox⟩ := writeWord_frame s v (regAt off)
    rw [h]
    exact ⟨heq, hzsize, hsbox⟩
  all_goals simp [h]

/-- A bus write clears a recorded error only at STATUS and with bit 2 set (R37, R241). -/
theorem busWrite_keeps_error (off : Offset) (v : Word) (herr : s.err = true) :
    ((busWrite off v s).err = true ∧ (busWrite off v s).ecode = s.ecode) ∨
    (regAt off = .status ∧ v.getLsbD 2 = true) := by
  rcases busWrite_cases off v s with ⟨hr, h⟩ | ⟨-, -, h⟩ | ⟨-, -, -, h⟩ | ⟨-, -, h⟩ | ⟨-, -, -, -, h⟩
  case inl =>
    cases hbit : v.getLsbD 2 with
    | true => exact .inr ⟨hr, rfl⟩
    | false =>
      rw [h, writeStatus_err, writeStatus_ecode, herr, hbit]
      exact .inl ⟨rfl, rfl⟩
  case inr.inr.inr.inr =>
    obtain ⟨-, hwerr, hcode, -, -⟩ := writeWord_frame s v (regAt off)
    rw [h]
    exact .inl ⟨hwerr.trans herr, hcode⟩
  all_goals exact .inl (by simp [h, herr])

/-- A host step that answers is the reset, a reading, which touches only the host's own fields and the count of draws, or
a bus write. -/
theorem hostStep_next (h : hostStep op s = .next t) :
    (op = .reset ∧ t = resetEvent s) ∨
    (∃ ops vs n, t = { s with hostOps := ops, hostVars := vs, draws := n }) ∨
    (∃ off v x, op = .write 32 off v ∧ aligned off = true ∧ hostValue s v = .ok x ∧ t = busWrite off x s) := by
  rcases hostStep_cases op s t h with hreset | ⟨n, -, rfl⟩ | ⟨off, n, -, -, rfl⟩ | hwrite
  · exact .inl hreset
  · rcases hostRead_cases RegWord.status.offset n s with hread | hread
    all_goals
      rw [hread]
      split <;> exact .inr (.inl ⟨_, _, _, rfl⟩)
  · rcases hostRead_cases off n s with hread | hread
    all_goals
      rw [hread]
      exact .inr (.inl ⟨_, _, _, rfl⟩)
  · exact .inr (.inr hwrite)

/-- No host operation changes the constants (R40, R262). -/
theorem hostStep_constants (h : hostStep op s = .next t) : t.zsize = s.zsize ∧ t.sbox = s.sbox := by
  rcases hostStep_next h with ⟨-, rfl⟩ | ⟨ops, vs, n, rfl⟩ | ⟨off, v, x, -, -, -, rfl⟩
  · simp
  · simp
  · exact (busWrite_frame off x s).2

/-- Of the host's operations the reset alone changes EQ (R38). -/
theorem hostStep_eq_flag (h : hostStep op s = .next t) : t.eq = s.eq ∨ op = .reset := by
  rcases hostStep_next h with ⟨rfl, -⟩ | ⟨ops, vs, n, rfl⟩ | ⟨off, v, x, -, -, -, rfl⟩
  · exact .inr rfl
  · exact .inl rfl
  · exact .inl (busWrite_frame off x s).1

/-- Of the host's operations the reset and the write of 1 to STATUS bit 2 alone clear a recorded error (R37, R241). -/
theorem hostStep_keeps_error (h : hostStep op s = .next t) (herr : s.err = true) :
    (t.err = true ∧ t.ecode = s.ecode) ∨
    (∃ v x, op = .write 32 0x004 v ∧ hostValue s v = .ok x ∧ x.getLsbD 2 = true) ∨ op = .reset := by
  rcases hostStep_next h with ⟨rfl, -⟩ | ⟨ops, vs, n, rfl⟩ | ⟨off, v, x, rfl, ha, hv, rfl⟩
  · exact .inr (.inr rfl)
  · exact .inl ⟨herr, rfl⟩
  · rcases busWrite_keeps_error off x herr with hkept | ⟨hstatus, hbit⟩
    · exact .inl hkept
    · obtain rfl := offset_of_regAt_status hstatus ha
      exact .inr (.inl ⟨v, x, rfl, hv, hbit⟩)

end HostOperations

section Steps
variable {s t : State}

/-- A completion is that of a legal command, or the error of an illegal word (R86, R89). -/
theorem engineStep_next {w : Word} (h : engineStep w s = .next t) :
    (∃ i, decode w = .ok i ∧ exec i s = .next t) ∨ t = raise .illegal s := by
  unfold engineStep at h
  split at h
  · exact .inl ⟨_, ‹_›, h⟩
  · exact .inr (Outcome.next.inj h).symm

/-- A step that answers: an idle core stays, the host has its turn, a legal command completes, or an illegal word does. -/
theorem step_next (h : step s = .next t) :
    t = s ∨
    ((s.pend = none ∨ s.delay ≠ 0) ∧
      ∃ op ops d, s.hostOps = op :: ops ∧ hostStep op { s with hostOps := ops, delay := d } = .next t) ∨
    (engineTurn s ∧ ∃ w i, s.pend = some w ∧ decode w = .ok i ∧ exec i s = .next t) ∨
    t = raise .illegal s := by
  rcases step_cases s with ⟨-, -, hidle⟩ | ⟨op, ops, d, hops, hturn, hhost⟩ | ⟨w, hw, hturn, hengine⟩
  · exact .inl (Outcome.next.inj (h.symm.trans hidle))
  · have hfree : s.pend = none ∨ s.delay ≠ 0 := by
      rcases hturn with ⟨hidle, -⟩ | ⟨-, hdelay⟩
      · exact .inl hidle
      · exact .inr (by omega)
    exact .inr (.inl ⟨hfree, op, ops, d, hops, hhost.symm.trans h⟩)
  · rcases engineStep_next (hengine.symm.trans h) with ⟨i, hi, hexec⟩ | hillegal
    · exact .inr (.inr (.inl ⟨hturn, w, i, hw, hi, hexec⟩))
    · exact .inr (.inr (.inr hillegal))

/-- The constants outlive every step (R40, R262). -/
theorem step_constants (h : step s = .next t) : t.zsize = s.zsize ∧ t.sbox = s.sbox := by
  rcases step_next h with rfl | ⟨-, op, ops, d, -, hhost⟩ | ⟨-, w, i, -, -, hexec⟩ | rfl
  · exact ⟨rfl, rfl⟩
  · obtain ⟨hzsize, hsbox⟩ := hostStep_constants hhost
    exact ⟨hzsize, hsbox⟩
  · exact (exec_frame hexec).2.2
  · simp

end Steps

/-- ZCFG does not wrap: `MODW / 32` is far below 2^32 (R40). -/
theorem zcfgWord_toNat (s : State) : s.zcfgWord.toNat = s.zWords := by
  have hbounds := modw_bounds s
  rw [State.zcfgWord, BitVec.toNat_ofNat]
  unfold State.modw at hbounds
  omega

/-- Settles O50: a step that leaves the error as it was, or the host's turn. -/
theorem errorClearedOnlyByHostOrReset : Obligations.ErrorClearedOnlyByHostOrReset := by
  intro s t h herr
  rcases step_next h with rfl | ⟨hturn, op, ops, d, hops, hhost⟩ | ⟨-, w, i, -, -, hexec⟩ | rfl
  · exact .inl ⟨herr, rfl⟩
  · rcases hostStep_keeps_error hhost herr with hkept | ⟨v, x, rfl, hv, hbit⟩ | rfl
    · exact .inl hkept
    · exact .inr (.inl ⟨hturn, v, x, ops, hops, hv, hbit⟩)
    · exact .inr (.inr ⟨hturn, ops, hops⟩)
  · exact .inl (exec_keeps_error hexec herr)
  · exact .inl (by simp [herr])

/-- Settles O51: of the ways to step, only a ZCMP and the host's reset do not keep EQ. -/
theorem eqWrittenOnlyByZcmp : Obligations.EqWrittenOnlyByZcmp := by
  intro s t h hchanged
  rcases step_next h with rfl | ⟨hturn, op, ops, d, hops, hhost⟩ | ⟨hturn, w, i, hw, hi, hexec⟩ | rfl
  · exact absurd rfl hchanged
  · obtain rfl := (hostStep_eq_flag hhost).resolve_left hchanged
    exact .inr ⟨hturn, ops, hops⟩
  · obtain ⟨za, zb, rfl, heq⟩ := (exec_eq_flag hexec).resolve_left hchanged
    exact .inl ⟨hturn, w, za, zb, hw, hi, heq⟩
  · exact absurd (raise_eq .illegal s) hchanged

/-- Settles O55: ZCFG and MODW are computed from the field `zsize`, which every step keeps. -/
theorem constantsNeverChange : Obligations.ConstantsNeverChange := by
  refine ⟨fun s => ?_, fun s t h => ?_⟩
  · have hbounds := modw_bounds s
    rw [zcfgWord_toNat, modw_div]
    unfold State.modw at hbounds
    omega
  · obtain ⟨hzsize, hsbox⟩ := step_constants h
    simp [State.zcfgWord, State.modw, State.zWords, hzsize, hsbox]

end Sys2Proof.Machine
end

section
/-! Reset (R44, R260 to R263) and the interrupt output (R43, R237, R238). -/

namespace Sys2Proof.Machine

open Host Sys2Proof.Safety

/-- After a reset every register word but ZCFG reads 0 (R44). -/
theorem readWord_resetEvent (s : State) (r : RegWord) (hr : r ≠ .zcfg) : readWord (resetEvent s) r = 0 := by
  cases r with
  | zcfg => exact absurd rfl hr
  | z n w => simp [readWord, wordAt]
  | _ => simp [readWord, wordAt, State.statusWord, State.ctrlWord, State.keepWord, packStatus]

theorem readWord_zcfg_resetEvent (s : State) : readWord (resetEvent s) .zcfg = readWord s .zcfg := rfl

theorem irq_resetEvent (s : State) : (resetEvent s).irq = false := rfl

/-- The host's reset, idle or with a command in flight, is the event; only the host's list moves on (R260, R261). -/
theorem step_reset {s : State} {ops : List HostOp} (ho : s.hostOps = .reset :: ops)
    (hturn : s.pend = none ∨ s.delay ≠ 0) : step s = .next (resetEvent { s with hostOps := ops }) := by
  by_cases hp : s.pend = none
  · exact step_idle_hostOp hp ho
  · obtain ⟨d, hd⟩ := Nat.exists_eq_succ_of_ne_zero (hturn.resolve_left hp)
    exact step_busy_hostOp hp hd ho

/-- Settles O54: `State.reset` is what the event makes of itself, and so the facts about the event serve both. -/
theorem resetLeaves : Obligations.ResetLeaves := by
  refine ⟨readWord_resetEvent State.reset, rfl, irq_resetEvent State.reset, rfl, fun s ops ho hturn => ?_⟩
  exact ⟨_, step_reset ho hturn, readWord_resetEvent _, busy_resetEvent _, irq_resetEvent _,
    readWord_zcfg_resetEvent _, rfl, rfl⟩

/-- Every completion raises IRQ when it is enabled, with an error or without (R237). -/
theorem exec_irq {i : Instr} {s t : State} (h : exec i s = .next t) (hie : s.ie = true) : t.irq = true := by
  obtain ⟨htie, hdone, -, -⟩ := exec_frame h
  simp [State.irq, htie, hie, hdone]

/-- A write to STATUS always acts (R62). -/
theorem busWrite_status (v : Word) (s : State) : busWrite RegWord.status.offset v s = s.writeStatus v := rfl

theorem busWrite_ctrl_idle {s : State} (v : Word) (hb : s.busy = false) :
    busWrite RegWord.ctrl.offset v s = s.writeCtrl v := by
  simp only [busWrite, regAt_offset]
  simp [RegWord.isReserved, hb, writeWord]

theorem busWrite_cmd_idle {s : State} (w : Word) (hb : s.busy = false) :
    busWrite RegWord.cmd.offset w s = accept w s := by
  simp only [busWrite, regAt_offset]
  simp [RegWord.isReserved, hb]

/-- Clearing DONE and ERR together lowers IRQ (R238). -/
theorem irq_writeStatus {s : State} {v : Word} (hdone : v.getLsbD 1 = true) (herr : v.getLsbD 2 = true) :
    (s.writeStatus v).irq = false := by
  rw [State.irq, writeStatus_done, writeStatus_err, hdone, herr]
  simp

/-- Clearing IE lowers IRQ (R43). -/
theorem irq_writeCtrl {s : State} {v : Word} (hie : v.getLsbD 0 = false) : (s.writeCtrl v).irq = false := by
  rw [State.irq, writeCtrl_ie, hie, Bool.false_and]

/-- Acceptance clears DONE and leaves ERR to IRQ (R87, R237). -/
theorem irq_accept (w : Word) (s : State) : (accept w s).irq = (s.ie && s.err) := by simp [State.irq]

/-- Settles O53: IRQ after a completion, and after each of the three writes. -/
theorem completionRaisesInterrupt : Obligations.CompletionRaisesInterrupt := by
  refine fun s => ⟨rfl, fun hie i t h => exec_irq h hie, fun v hdone herr => ?_, fun hb v hie => ?_, fun hb w => ?_⟩
  · exact (congrArg State.irq (busWrite_status v s)).trans (irq_writeStatus hdone herr)
  · exact (congrArg State.irq (busWrite_ctrl_idle v hb)).trans (irq_writeCtrl hie)
  · exact (congrArg State.irq (busWrite_cmd_idle w hb)).trans (irq_accept w s)

/-- Settles O59: after a reset every field of the invariant is 0. -/
theorem invHoldsAtReset : Obligations.InvHoldsAtReset where
  zFits r := by
    have hz : State.reset.z[r] = 0#2048 := by simp [State.reset]
    rw [zval, hz, BitVec.toNat_zero]
    exact Nat.two_pow_pos _
  pendAgrees w hw := by cases hw
  errAgrees := by decide
  fieldsLegal := by decide

end Sys2Proof.Machine
end

section
/-! Words, bytes and bits of the registers (R30, R32, R52 to R55). -/

namespace Sys2Proof.Machine

/-- Bit `k` of word `i` is bit `32·i + k` of the register (R54). -/
theorem getLsbD_wordAt {n : Nat} (x : BitVec n) (i k : Nat) (hk : k < 32) :
    (wordAt x i).getLsbD k = x.getLsbD (32 * i + k) := by
  simp [wordAt, hk]

/-- Registers of the same width with the same words are equal. -/
theorem eq_of_wordAt {n : Nat} (x y : BitVec n) (h : ∀ i, 32 * i < n → wordAt x i = wordAt y i) : x = y := by
  apply BitVec.eq_of_getLsbD_eq
  intro k hk
  have hword := congrArg (BitVec.getLsbD · (k % 32)) (h (k / 32) (by omega))
  simpa only [getLsbD_wordAt _ _ _ (Nat.mod_lt k (by decide)), Nat.div_add_mod] using hword

/-- Byte `j` stands in bits `8·(j mod 4)+7 : 8·(j mod 4)` of word `j / 4` (R52, R53). -/
theorem byteAt_eq_extract_wordAt {n : Nat} (x : BitVec n) (j : Nat) :
    byteAt x j = (wordAt x (j / 4)).extractLsb' (8 * (j % 4)) 8 := by
  apply BitVec.eq_of_getLsbD_eq
  intro k hk
  have hbit : 8 * (j % 4) + k < 32 := by omega
  simp only [byteAt, BitVec.getLsbD_extractLsb', getLsbD_wordAt _ _ _ hbit]
  congr 2
  omega

/-- A 64-bit register is its low word and 2^32 times its high word (R55). -/
theorem toNat_wordAt_halves (x : BitVec 64) : (wordAt x 0).toNat + 2 ^ 32 * (wordAt x 1).toNat = x.toNat := by
  have hx := x.isLt
  simp only [wordAt_eq, BitVec.toNat_ofNat]
  omega

/-- Bit by bit, the layout of CTRL (R32). -/
theorem ctrlWord_bits (s : State) (k : Nat) (hk : k < 32) :
    s.ctrlWord.getLsbD k = if k = 0 then s.ie else if 4 ≤ k ∧ k ≤ 5 then s.ksize.getLsbD (k - 4) else false := by
  unfold State.ctrlWord
  change BitVec.getLsbD (w := 26 + 2 + 3 + 1) _ k = _
  simp only [BitVec.getLsbD_append, BitVec.getLsbD_ofBool, BitVec.getLsbD_zero]
  interval_cases k <;> simp

/-- Bit by bit, the layout of KEEP (R30). -/
theorem keepWord_bits (s : State) (k : Nat) (hk : k < 32) :
    s.keepWord.getLsbD k =
      if k ≤ 4 then s.keepp.getLsbD k else if 8 ≤ k ∧ k ≤ 11 then s.keepl.getLsbD (k - 8) else false := by
  unfold State.keepWord
  change BitVec.getLsbD (w := 20 + 4 + 3 + 5) _ k = _
  simp only [BitVec.getLsbD_append, BitVec.getLsbD_zero]
  interval_cases k <;> simp

@[simp] theorem ctrlWord_ie (s : State) : s.ctrlWord.getLsbD 0 = s.ie := ctrlWord_bits s 0 (by decide)

@[simp] theorem ctrlWord_ksize (s : State) : s.ctrlWord.extractLsb' 4 2 = s.ksize := by
  apply BitVec.eq_of_getLsbD_eq
  intro k hk
  have hbits : 4 ≤ 4 + k ∧ 4 + k ≤ 5 := by omega
  simp [hk, ctrlWord_bits s (4 + k) (by omega), hbits]

/-- CTRL is its two fields and nothing else (R32). -/
theorem ctrlWord_inj {s u : State} : u.ctrlWord = s.ctrlWord ↔ u.ie = s.ie ∧ u.ksize = s.ksize := by
  refine ⟨fun h => ⟨?_, ?_⟩, fun ⟨hie, hksize⟩ => by rw [State.ctrlWord, State.ctrlWord, hie, hksize]⟩
  · rw [← ctrlWord_ie u, h, ctrlWord_ie]
  · rw [← ctrlWord_ksize u, h, ctrlWord_ksize]

/-- CTRL takes back the word it read as (R32). -/
theorem ctrlWord_writeCtrl (s u : State) : (u.writeCtrl s.ctrlWord).ctrlWord = s.ctrlWord :=
  ctrlWord_inj.mpr ⟨ctrlWord_ie s, ctrlWord_ksize s⟩

end Sys2Proof.Machine
end

section
/-! The plain read and write of one register word (R51 to R54, R59, R63, R64). -/

namespace Sys2Proof.Machine

open Sys2Proof.Safety

/-! ## Words that ignore writes -/

/-- Which words are reserved depends on MODW alone (R54). -/
theorem isReserved_congr {s t : State} (r : RegWord) (h : t.zsize = s.zsize) : r.isReserved t = r.isReserved s := by
  cases r with
  | z n w => exact congrArg (fun size : Fin 61 => decide (4 + size.val ≤ w.val)) h
  | _ => rfl

theorem readWord_reserved {s : State} {r : RegWord} (h : r.isReserved s = true) : readWord s r = 0 := by
  cases r with
  | z n w => exact if_neg (by simpa [RegWord.isReserved] using h)
  | reserved => rfl
  | _ => cases h

theorem writeWord_reserved {s : State} {r : RegWord} (v : Word) (h : r.isReserved s = true) : writeWord s v r = s := by
  cases r with
  | z n w => exact if_neg (by simpa [RegWord.isReserved] using h)
  | reserved => rfl
  | _ => cases h

theorem writeWord_readOnly {r : RegWord} (s : State) (v : Word) (h : readOnly r = true) : writeWord s v r = s := by
  cases r with
  | keep | tlenLo | tlenHi | zcfg | out0 | out1 => rfl
  | _ => cases h

/-! ## What a write leaves -/

section ReadAfterWrite
variable (s : State) (v : Word)

theorem readWord_z {n : ZReg} {w : Fin 64} (hw : w.val < s.zWords) : readWord s (.z n w) = wordAt s.z[n] w := if_pos hw

theorem writeWord_z {n : ZReg} {w : Fin 64} (hw : w.val < s.zWords) :
    writeWord s v (.z n w) = { s with z := s.z.set n (setWordAt s.z[n] w v) } := if_pos hw

/-- Every Z register after the write of one of its words (R54). -/
theorem getElem_writeWord_z {n : ZReg} {w : Fin 64} (hw : w.val < s.zWords) (m : ZReg) :
    (writeWord s v (.z n w)).z[m] = if m = n then setWordAt s.z[n] w v else s.z[m] := by
  simp only [writeWord_z s v hw, Fin.getElem_fin, Vector.getElem_set, Fin.ext_iff, eq_comm (a := m.val)]

@[simp] theorem zWords_writeWord (r : RegWord) : (writeWord s v r).zWords = s.zWords := by
  obtain ⟨-, -, hzsize, -⟩ := writeWord_host s v r
  rw [State.zWords, State.zWords, hzsize]

@[simp] theorem busy_writeWord (r : RegWord) : (writeWord s v r).busy = s.busy := by
  obtain ⟨hpend, -⟩ := writeWord_host s v r
  rw [State.busy, State.busy, hpend]

/-- Of two different words of a register, a write of one leaves the other (R56, R63). -/
theorem wordAt_setWordAt_fin {n k : Nat} (x : BitVec n) {w w' : Fin k} (hk : 32 * k ≤ n) (h : w' ≠ w) :
    wordAt (setWordAt x w v) w' = wordAt x w' :=
  wordAt_setWordAt_ne x w w' v (fun e => h (Fin.ext e.symm)) (by omega)

/-- A written read-write word reads back (R63). -/
theorem readWord_writeWord_self {r : RegWord} (h : readWrite s r = true) : readWord (writeWord s v r) r = v := by
  cases r with
  | lenLo | lenHi => exact wordAt_setWordAt_self _ _ _ (by decide)
  | key w | din w | chain w => exact wordAt_setWordAt_self _ _ _ (by omega)
  | z n w =>
    have hw : w.val < s.zWords := by simpa [readWrite] using h
    rw [readWord_z _ (by simpa using hw), getElem_writeWord_z s v hw, if_pos rfl]
    exact wordAt_setWordAt_self _ _ _ (by omega)
  | _ => cases h

/-- A write of one word leaves every other word as it was (R56, R63). -/
theorem readWord_writeWord_ne {r r' : RegWord} (h : r' ≠ r) : readWord (writeWord s v r) r' = readWord s r' := by
  cases r with
  | lenLo =>
    cases r' with
    | lenLo => exact absurd rfl h
    | lenHi => exact wordAt_setWordAt_ne s.len 0 1 v (by decide) (by decide)
    | _ => rfl
  | lenHi =>
    cases r' with
    | lenLo => exact wordAt_setWordAt_ne s.len 1 0 v (by decide) (by decide)
    | lenHi => exact absurd rfl h
    | _ => rfl
  | key w =>
    cases r' with
    | key w' => exact wordAt_setWordAt_fin v s.key (by decide) (mt (congrArg _) h)
    | _ => rfl
  | din w =>
    cases r' with
    | din w' => exact wordAt_setWordAt_fin v s.din (by decide) (mt (congrArg _) h)
    | _ => rfl
  | chain w =>
    cases r' with
    | chain w' => exact wordAt_setWordAt_fin v s.chain (by decide) (mt (congrArg _) h)
    | _ => rfl
  | ctrl =>
    cases r' with
    | ctrl => exact absurd rfl h
    | _ => rfl
  | z n w =>
    by_cases hw : w.val < s.zWords
    case neg => rw [writeWord, if_neg hw]
    case pos =>
      cases r' with
      | z m w' =>
        rw [readWord, readWord, zWords_writeWord, getElem_writeWord_z s v hw]
        by_cases hm : m = n
        · subst hm
          rw [if_pos rfl, wordAt_setWordAt_fin v _ (by decide) (mt (congrArg _) h)]
        · rw [if_neg hm]
      | _ => rw [writeWord_z s v hw]; rfl
  | _ => rfl

/-- Writing a word twice is writing it once (R64). -/
theorem writeWord_idem (r : RegWord) : writeWord (writeWord s v r) v r = writeWord s v r := by
  cases r with
  | lenLo | lenHi | key | din | chain => simp only [writeWord, setWordAt_idem]
  | z n w =>
    by_cases hw : w.val < s.zWords
    · rw [writeWord_z _ v (by simpa using hw), getElem_writeWord_z s v hw, if_pos rfl, setWordAt_idem,
        writeWord_z s v hw]
      simp only [Vector.set_set]
    · simp only [writeWord, if_neg hw]
  | _ => rfl

end ReadAfterWrite

end Sys2Proof.Machine
end

section
/-! The host's bus accesses: the register map, reserved words, writes and bus errors (R51, R54, R56 to R58,
R61 to R64). -/

namespace Sys2Proof.Machine

open Host Sys2Proof.Safety

/-! ## The register map (R51) -/

/-- Settles O39: each conjunct is the register map at one word's offset. -/
theorem registerMapOffsets : Obligations.RegisterMapOffsets :=
  ⟨⟨regAt_offset .cmd, regAt_offset .status, regAt_offset .ctrl, regAt_offset .keep, regAt_offset .lenLo,
      regAt_offset .lenHi, regAt_offset .tlenLo, regAt_offset .tlenHi, regAt_offset .zcfg⟩,
    fun i => regAt_offset (.key i), fun i => regAt_offset (.din i), fun i => regAt_offset (.out0 i),
    fun i => regAt_offset (.out1 i), fun i => regAt_offset (.chain i), fun n w => regAt_offset (.z n w)⟩

/-- The three reserved ranges of the map. -/
theorem regAt_eq_reserved {off : Offset}
    (h : 0x024 ≤ off.toNat ∧ off.toNat < 0x040 ∨ 0x0A0 ≤ off.toNat ∧ off.toNat < 0x100 ∨ 0x900 ≤ off.toNat) :
    regAt off = .reserved := by
  simp only [regAt, ite_eq_iff, reduceCtorEq, and_false, false_or, and_true]
  omega

/-! ## Reserved words (R54, R58) -/

section Reserved
variable {s : State} {off : Offset}

theorem busRead_reserved (h : (regAt off).isReserved s = true) : busRead off s = (0, s) := by
  simp [busRead, h, readWord_reserved h]

theorem busWrite_reserved (v : Word) (h : (regAt off).isReserved s = true) : busWrite off v s = s := by
  have hstatus : regAt off ≠ .status := by rintro e; simp [e, RegWord.isReserved] at h
  simp [busWrite, h, hstatus]

end Reserved

/-- Settles O40: the ranges are the map's reserved words. -/
theorem reservedOffsetsReadZero : Obligations.ReservedOffsetsReadZero := by
  intro s off v hrange
  have hreserved : (regAt off).isReserved s = true := by rw [regAt_eq_reserved hrange]; rfl
  exact ⟨busRead_reserved hreserved, busWrite_reserved v hreserved⟩

theorem isReserved_z_offset {s : State} (n : ZReg) {w : Fin 64} (hw : s.zWords ≤ w.val) :
    (regAt (RegWord.z n w).offset).isReserved s = true := by
  rw [regAt_offset]
  exact decide_eq_true hw

/-- Settles O41: in the model such a word counts as reserved, busy or not. -/
theorem highZWordsAreReserved : Obligations.HighZWordsAreReserved := fun _ n _ v hw =>
  ⟨busRead_reserved (isReserved_z_offset n hw), busWrite_reserved v (isReserved_z_offset n hw)⟩

/-- Settles O45: the W1C write of R34, which looks at no other part of the state. -/
theorem statusWriteClears : Obligations.StatusWriteClears := fun s v => busWrite_status v s

/-! ## Bus errors (R56, R57) -/

theorem wellFormed_read_iff {width : Nat} {off : Offset} {n : Nat} :
    (HostOp.read width off n).wellFormed = true ↔ width = 32 ∧ off.toNat % 4 = 0 := by
  simp [HostOp.wellFormed, aligned]

theorem wellFormed_write_iff {width : Nat} {off : Offset} {v : HostVal} :
    (HostOp.write width off v).wellFormed = true ↔ width = 32 ∧ off.toNat % 4 = 0 := by
  simp [HostOp.wellFormed, aligned]

/-- Settles O47: the host's step asks first whether the access is well formed. -/
theorem busErrorsFault : Obligations.BusErrorsFault := by
  intro s width off x v n
  refine ⟨fun himproper => ?_, fun hwidth haligned => ?_⟩
  · have hread : ¬ (HostOp.read width off n).wellFormed = true := by rw [wellFormed_read_iff]; omega
    have hwrite : ¬ (HostOp.write width off v).wellFormed = true := by rw [wellFormed_write_iff]; omega
    exact ⟨if_neg hread, if_neg hwrite⟩
  · exact ⟨if_pos (wellFormed_read_iff.mpr ⟨hwidth, haligned⟩), if_pos (wellFormed_write_iff.mpr ⟨hwidth, haligned⟩)⟩

/-! ## Writes to an idle core (R54, R61) -/

section Writes
variable {s : State} {off : Offset}

/-- An idle core performs the plain write of any word but CMD and STATUS. -/
theorem busWrite_idle (v : Word) (hb : s.busy = false) (hcmd : regAt off ≠ .cmd) (hstatus : regAt off ≠ .status) :
    busWrite off v s = writeWord s v (regAt off) := by
  rcases busWrite_cases off v s with ⟨h, -⟩ | ⟨-, hres, h⟩ | ⟨-, -, hbusy, -⟩ | ⟨h, -⟩ | ⟨-, -, -, -, h⟩
  · exact absurd h hstatus
  · rw [h, writeWord_reserved v hres]
  · rw [hb] at hbusy; cases hbusy
  · exact absurd h hcmd
  · exact h

theorem busWrite_offset_idle {r : RegWord} (v : Word) (hb : s.busy = false) (hcmd : r ≠ .cmd) (hstatus : r ≠ .status) :
    busWrite r.offset v s = writeWord s v r := by
  have h := busWrite_idle (off := r.offset) v hb
  rw [regAt_offset] at h
  exact h hcmd hstatus

/-- A busy core loses the write of any word but STATUS and the reserved ones, and records E_BUSY (R61, R235). -/
theorem busWrite_lost (v : Word) (hstatus : regAt off ≠ .status) (hres : (regAt off).isReserved s = false)
    (hb : s.busy = true) : busWrite off v s = recordError .busy s := by
  simp [busWrite, hstatus, hres, hb]

/-- A busy core's DONE, ERR and ECODE are all that a write can change (R61, R62). -/
theorem busWrite_busy (off : Offset) (v : Word) (hb : s.busy = true) :
    ∃ done err ecode, busWrite off v s = { s with done := done, err := err, ecode := ecode } := by
  rcases busWrite_cases off v s with ⟨-, h⟩ | ⟨-, -, h⟩ | ⟨-, -, -, h⟩ | ⟨-, hidle, -⟩ | ⟨-, -, -, hidle, -⟩
  · exact ⟨_, _, _, h⟩
  · exact ⟨_, _, _, h⟩
  · refine ⟨s.done, true, if s.err then s.ecode else ErrorCode.busy.code, h.trans ?_⟩
    cases herr : s.err with
    | true => rw [recordError, if_pos herr, if_pos rfl, ← herr]
    | false => simp [recordError, herr]
  all_goals rw [hb] at hidle; cases hidle

/-- A second error is not recorded (R37). -/
theorem recordError_idem (e : ErrorCode) (s : State) : recordError e (recordError e s) = recordError e s :=
  if_pos (recordError_err e s)

/-- A second write of the same value changes nothing more (R64). -/
theorem busWrite_idem (v : Word) (hcmd : regAt off ≠ .cmd) (hstatus : regAt off ≠ .status) :
    busWrite off v (busWrite off v s) = busWrite off v s := by
  rcases busWrite_cases off v s with ⟨h, -⟩ | ⟨-, -, h⟩ | ⟨-, hres, hbusy, h⟩ | ⟨h, -⟩ | ⟨-, -, -, hb, h⟩
  · exact absurd h hstatus
  · rw [h, h]
  · have hres' : (regAt off).isReserved (recordError .busy s) = false := by
      rw [isReserved_congr _ (recordError_zsize .busy s), hres]
    rw [h, busWrite_lost v hstatus hres' (by simpa using hbusy), recordError_idem]
  · exact absurd h hcmd
  · rw [h, busWrite_idle v (by simpa using hb) hcmd hstatus, writeWord_idem]

end Writes

/-- Settles O48: exact reads of an idle core, and the idempotence of writes. -/
theorem accessesAreIdempotent : Obligations.AccessesAreIdempotent := by
  refine fun s off v => ⟨fun hb => ?_, fun hcmd hstatus => busWrite_idem v hcmd hstatus⟩
  rw [busRead_idle off s hb, busRead_idle off s hb]

/-- Settles O43: below `MODW / 32` the word lanes of the Z register, from there on a reserved word. -/
theorem zRegisterWords : Obligations.ZRegisterWords := by
  intro s n w v hb
  rw [modw_div]
  refine ⟨fun hw => ?_, fun hw => highZWordsAreReserved s n w v hw⟩
  have hread : busRead (RegWord.z n w).offset s = (wordAt s.z[n] w, s) := by
    rw [busRead_idle _ s hb, regAt_offset, readWord_z s hw]
  have hwrite : busWrite (RegWord.z n w).offset v s = writeWord s v (.z n w) :=
    busWrite_offset_idle v hb (by simp) (by simp)
  rw [hread, hwrite]
  refine ⟨fun k hk => getLsbD_wordAt _ _ _ hk, fun k hk => ?_, fun m hm => ?_, ?_⟩
  · rw [getElem_writeWord_z s v hw, if_pos rfl]
    exact getLsbD_setWordAt _ _ v k hk
  · rw [getElem_writeWord_z s v hw, if_neg hm]
  · rw [writeWord_z s v hw]

/-! ## The busy window (R61, R65) -/

/-- Settles O56: of the host's operations only the reset and the writes touch the core, and what a write can change
while busy is no operand. -/
theorem operandsHeldWhileBusy : Obligations.OperandsHeldWhileBusy := by
  intro s t w d op ops hp hd ho hop hstep
  rw [step_busy_hostOp (by simp [hp]) hd ho] at hstep
  rcases hostStep_next hstep with ⟨hreset, -⟩ | ⟨ops', vs, n, rfl⟩ | ⟨off, v, x, -, -, -, rfl⟩
  · exact absurd hreset hop
  · simp [hp]
  · obtain ⟨done, err, ecode, hwrite⟩ :=
      busWrite_busy (s := { s with hostOps := ops, delay := d }) off x (by simp [State.busy, hp])
    rw [hwrite]
    simp [hp]

end Sys2Proof.Machine
end

section
/-! Reads of an idle and of a busy core, word by word and as the names of `rdblk` and `rdz` (R30, R32, R34, R52 to R55,
R60, R92). -/

namespace Sys2Proof.Machine

open Host Sys2Proof.Safety

/-! ## A busy core's reads (R60) -/

section BusyRead
variable {s : State} {off : Offset}

theorem busRead_exact (h : regAt off = .cmd ∨ regAt off = .ctrl ∨ regAt off = .zcfg) :
    busRead off s = (readWord s (regAt off), s) := by
  rcases h with h | h | h <;> simp [busRead, h]

theorem busRead_status_busy (hb : s.busy = true) :
    busRead RegWord.status.offset s = (s.statusWordDrawn (Config.draw s.draws), { s with draws := s.draws + 1 }) := by
  simp [busRead, regAt_offset, hb, RegWord.isReserved, drawWord]

/-- Every other word that is not reserved is a draw. -/
theorem busRead_drawn (hb : s.busy = true) (h : regAt off ∉ [RegWord.cmd, .status, .ctrl, .zcfg])
    (hres : (regAt off).isReserved s = false) :
    busRead off s = (Config.draw s.draws, { s with draws := s.draws + 1 }) := by
  simp only [List.mem_cons, List.not_mem_nil, or_false, not_or] at h
  obtain ⟨hcmd, hstatus, hctrl, hzcfg⟩ := h
  simp [busRead, hb, hres, hcmd, hstatus, hctrl, hzcfg, drawWord]

end BusyRead

/-- Bit by bit, the word STATUS (R34). -/
theorem statusWord_bits (s : State) (k : Nat) :
    s.statusWord.getLsbD k =
      if k = 0 then s.busy else if k = 1 then s.done else if k = 2 then s.err else if k = 3 then s.eq
      else if 4 ≤ k ∧ k ≤ 5 then s.nout.getLsbD (k - 4) else if 8 ≤ k ∧ k ≤ 11 then s.ecode.getLsbD (k - 8)
      else false := by
  rw [State.statusWord, packStatus_bits]
  grind

/-- Bits 3 and 5:4 of the word a busy core shows are the draw's, the others those of STATUS (R60). -/
theorem statusWordDrawn_bits (s : State) (draw : Word) (k : Nat) :
    (s.statusWordDrawn draw).getLsbD k =
      if k = 3 ∨ k = 4 ∨ k = 5 then draw.getLsbD k else s.statusWord.getLsbD k := by
  rw [State.statusWordDrawn, State.statusWord, packStatus_bits, packStatus_bits]
  by_cases hdrawn : k = 3 ∨ k = 4 ∨ k = 5
  · rw [if_pos hdrawn]
    rcases hdrawn with rfl | rfl | rfl <;> simp
  · rw [if_neg hdrawn]
    grind

/-! ## Lanes (R52, R53) -/

theorem readWord_blockWord (s : State) (r : BlockReg) (i : Fin 4) : readWord s (r.word i) = wordAt (r.value s) i := by
  cases r <;> rfl

/-- Byte `j` of a block register stands in word `j / 4` (R52). -/
theorem byteAt_blockReg (s : State) (r : BlockReg) {j : Nat} (hj : j < 16) :
    byteAt (r.value s) j = (readWord s (r.word (Fin.ofNat 4 (j / 4)))).extractLsb' (8 * (j % 4)) 8 := by
  have hword : (Fin.ofNat 4 (j / 4)).val = j / 4 := Nat.mod_eq_of_lt (by omega)
  rw [readWord_blockWord, hword, byteAt_eq_extract_wordAt]

/-- Byte `j` of KEY stands in word `j / 4` (R53). -/
theorem byteAt_keyReg (s : State) {j : Nat} (hj : j < 32) :
    byteAt s.key j = (readWord s (.key (Fin.ofNat 8 (j / 4)))).extractLsb' (8 * (j % 4)) 8 := by
  have hword : (Fin.ofNat 8 (j / 4)).val = j / 4 := Nat.mod_eq_of_lt (by omega)
  rw [readWord, hword, byteAt_eq_extract_wordAt]

/-! ## `rdblk` and `rdz` (R92) -/

/-- The words of a register, read by an idle core into names, join to the register's value (R52, R54). -/
theorem run_readWords_joinWords {s : State} (rs : List RegWord) {n : Nat} (x : BitVec n) (name : Nat)
    (ops : List HostOp) (hb : s.busy = false) (ho : s.hostOps = readWords rs name ++ ops)
    (hword : ∀ i (hi : i < rs.length), readWord s rs[i] = wordAt x i) :
    ∃ t : State, Sys2Proof.core.run rs.length s = .next t ∧ t.hostOps = ops ∧
      joinWords t.hostVars name rs.length = some (x.toNat % 2 ^ (32 * rs.length)) := by
  obtain ⟨vs, hrun, hnames, -⟩ := run_readWords rs name s ops (by simpa [State.busy] using hb) ho
  refine ⟨_, hrun, rfl, ?_⟩
  have hjoin := joinWords_eq vs x.toNat 0 rs.length name fun i hi => by
    rw [hnames i hi, hword i hi, wordAt_eq, Nat.zero_add]
  simpa using hjoin

theorem run_rdblk {s : State} (r : BlockReg) (name : Nat) (ops : List HostOp) (hb : s.busy = false)
    (ho : s.hostOps = rdblk r name ++ ops) :
    ∃ t : State, Sys2Proof.core.run 4 s = .next t ∧ t.hostOps = ops ∧
      namedBlock t.hostVars name = some (r.value s) := by
  obtain ⟨t, hrun, hops, hjoin⟩ := run_readWords_joinWords r.words (r.value s) name ops hb ho fun i hi => by
    simp [BlockReg.words, readWord_blockWord]
  have hlength : r.words.length = 4 := rfl
  rw [hlength] at hrun hjoin
  refine ⟨t, hrun, hops, ?_⟩
  rw [namedBlock, hjoin, Nat.mod_eq_of_lt (r.value s).isLt, Option.map_some, BitVec.ofNat_toNat, BitVec.setWidth_eq]

theorem length_zRegWords (s : State) (n : ZReg) : (zRegWords s.zWords n).length = s.zWords := by
  have hsize := s.zsize.isLt
  simp only [zRegWords, List.length_map, List.length_take, List.length_finRange, State.zWords]
  omega

theorem run_rdz {s : State} (n : ZReg) (name : Nat) (ops : List HostOp) (hb : s.busy = false)
    (ho : s.hostOps = rdz s.zWords n name ++ ops) :
    ∃ t : State, Sys2Proof.core.run s.zWords s = .next t ∧ t.hostOps = ops ∧
      namedInt s.zWords t.hostVars name = some (zval s n % 2 ^ s.modw) := by
  obtain ⟨t, hrun, hops, hjoin⟩ := run_readWords_joinWords (zRegWords s.zWords n) s.z[n] name ops hb ho fun i hi => by
    have hi' : i < s.zWords := by rwa [length_zRegWords] at hi
    simp [zRegWords, readWord, hi']
  rw [length_zRegWords] at hrun hjoin
  exact ⟨t, hrun, hops, hjoin⟩

/-- Settles O46: the idle core's reads by lanes, fields and names, then the busy core's. -/
theorem busyReads : Obligations.BusyReads := by
  intro s
  refine ⟨fun hb off => busRead_idle off s hb, ⟨fun j hj => byteAt_keyReg s hj, fun j hj => ?_,
    toNat_wordAt_halves s.len, toNat_wordAt_halves s.tlen⟩, fun k hk => ?_, fun hb name ops => ?_, fun hb => ?_⟩
  · exact ⟨byteAt_blockReg s .din hj, byteAt_blockReg s .out0 hj, byteAt_blockReg s .out1 hj,
      byteAt_blockReg s .chain hj⟩
  · exact ⟨statusWord_bits s k, ctrlWord_bits s k hk, keepWord_bits s k hk⟩
  · exact ⟨fun r => run_rdblk r name ops hb, fun n => run_rdz n name ops hb⟩
  · have hstatus : busRead 0x004 s = _ := busRead_status_busy hb
    refine ⟨busRead_exact (.inl rfl), busRead_exact (.inr (.inl rfl)), busRead_exact (.inr (.inr rfl)), ?_,
      fun k _ => ?_, fun off => busRead_drawn hb⟩
    · rw [hstatus]
    · rw [hstatus]
      exact statusWordDrawn_bits s _ k

end Sys2Proof.Machine
end

section
/-! What the host writes reads back, and a stream it saved is restored (R56, R59, R63, R268). -/

namespace Sys2Proof.Machine

open Host Sys2Proof.Safety

/-! ## Copying register words from one state to another (R268) -/

/-- The state `u` with the words of a list written as `s` reads them. -/
def copyWords (s : State) (rs : List RegWord) (u : State) : State :=
  rs.foldl (fun t r => writeWord t (readWord s r) r) u

@[simp] theorem copyWords_nil (s u : State) : copyWords s [] u = u := rfl

@[simp] theorem copyWords_cons (s : State) (r : RegWord) (rs : List RegWord) (u : State) :
    copyWords s (r :: rs) u = copyWords s rs (writeWord u (readWord s r) r) := rfl

/-- The writes of `writeNames`, of names that hold the words as `s` reads them, are the copy. -/
theorem foldl_zipIdx_eq_copyWords (s u : State) (rs : List RegWord) (val : Nat → Word)
    (hval : ∀ i (hi : i < rs.length), val i = readWord s rs[i]) :
    rs.zipIdx.foldl (fun t p => writeWord t (val p.2) p.1) u = copyWords s rs u := by
  have hpairs : ∀ (t : State), ∀ p ∈ rs.zipIdx, writeWord t (val p.2) p.1 = writeWord t (readWord s p.1) p.1 := by
    intro t p hp
    obtain ⟨hi, hword⟩ := List.getElem?_eq_some_iff.mp (List.mem_zipIdx_iff_getElem?.mp hp)
    rw [hval p.2 hi, hword]
  rw [List.foldl_ext _ _ u hpairs, copyWords]
  conv_rhs => rw [← List.zipIdx_map_fst 0 rs, List.foldl_map]

/-- A word that the host can put back as it read it. -/
def Restorable (r : RegWord) : Prop := r = .ctrl ∨ ∀ s : State, readWrite s r = true

theorem readWord_writeWord_restorable {r : RegWord} (s u : State) (h : Restorable r) :
    readWord (writeWord u (readWord s r) r) r = readWord s r := by
  rcases h with rfl | hrw
  · exact ctrlWord_writeCtrl s u
  · exact readWord_writeWord_self u _ (hrw u)

/-- A restorable word is one of those a plain write reaches. -/
theorem Restorable.plain {r : RegWord} (h : Restorable r) (s : State) :
    r ≠ .cmd ∧ r ≠ .status ∧ r.isReserved s = false := by
  rcases h with rfl | hrw
  · exact ⟨by simp, by simp, rfl⟩
  · have h := hrw s
    cases r with
    | z n w => simpa [readWrite, RegWord.isReserved] using h
    | lenLo | lenHi | key | din | chain => exact ⟨by simp, by simp, rfl⟩
    | _ => cases h

/-- Every copied word reads in the copy as in its source: once written, the later writes keep it. -/
theorem readWord_copyWords (s : State) {rs : List RegWord} (hrs : ∀ r ∈ rs, Restorable r) (u : State) (r : RegWord)
    (h : r ∈ rs ∨ readWord u r = readWord s r) : readWord (copyWords s rs u) r = readWord s r := by
  induction rs generalizing u with
  | nil => simpa using h
  | cons q rs ih =>
    refine ih (fun r hr => hrs r (List.mem_cons_of_mem q hr)) _ ?_
    by_cases hq : r = q
    · subst hq
      exact .inr (readWord_writeWord_restorable s u (hrs r List.mem_cons_self))
    · rw [readWord_writeWord_ne _ _ hq]
      exact h.imp_left fun hmem => (List.mem_cons.mp hmem).resolve_left hq

/-- Names that hold the words of `s`, written to an idle core, make it the copy. -/
theorem run_writeNames_copyWords {s u : State} {rs : List RegWord} {name : Nat} {ops : List HostOp}
    (hrs : ∀ r ∈ rs, Restorable r) (hb : u.busy = false) (ho : u.hostOps = writeNames rs name ++ ops)
    (hnames : ∀ i (hi : i < rs.length), lookupVar (name + i) u.hostVars = some (readWord s rs[i])) :
    Sys2Proof.core.run rs.length u = .next { copyWords s rs u with hostOps := ops } := by
  have hval : ∀ i (hi : i < rs.length), readWord s (rs.getD i .reserved) = readWord s rs[i] := fun i hi => by
    rw [List.getD_eq_getElem _ _ hi]
  rw [run_writeNames rs name u ops (fun i => readWord s (rs.getD i .reserved)) (by simpa [State.busy] using hb) ho
    (fun r hr => (hrs r hr).plain u) (fun i hi => by rw [hnames i hi, hval i hi]),
    foldl_zipIdx_eq_copyWords s u rs _ hval]

/-! ## The words of a stream (R268) -/

theorem mem_streamWords {codec : Bool} {r : RegWord} :
    r ∈ streamWords codec ↔
      (∃ i, r = .chain i) ∨ r = .lenLo ∨ r = .lenHi ∨ codec = true ∧ ((∃ i, r = .key i) ∨ r = .ctrl) := by
  cases codec <;> simp [streamWords, eq_comm]

theorem length_streamWords_le (codec : Bool) : (streamWords codec).length ≤ 15 := by
  cases codec <;> decide

theorem restorable_of_mem_streamWords {codec : Bool} {r : RegWord} (h : r ∈ streamWords codec) : Restorable r := by
  rcases mem_streamWords.mp h with ⟨i, rfl⟩ | rfl | rfl | ⟨-, ⟨i, rfl⟩ | rfl⟩
  case inr.inr.inr.inr => exact .inl rfl
  all_goals exact .inr fun _ => rfl

/-- A core that reads every word of a stream as another does holds the same stream. -/
theorem stream_eq_of_readWord {codec : Bool} {s v : State}
    (h : ∀ r ∈ streamWords codec, readWord v r = readWord s r) :
    v.chain = s.chain ∧ v.len = s.len ∧ (codec = true → v.key = s.key ∧ v.ie = s.ie ∧ v.ksize = s.ksize) := by
  refine ⟨eq_of_wordAt _ _ fun i hi => ?_, eq_of_wordAt _ _ fun i hi => ?_, fun hcodec => ⟨?_, ?_⟩⟩
  · exact h (.chain ⟨i, by omega⟩) (mem_streamWords.mpr (.inl ⟨_, rfl⟩))
  · obtain rfl | rfl : i = 0 ∨ i = 1 := by omega
    · exact h .lenLo (mem_streamWords.mpr (.inr (.inl rfl)))
    · exact h .lenHi (mem_streamWords.mpr (.inr (.inr (.inl rfl))))
  · exact eq_of_wordAt _ _ fun i hi =>
      h (.key ⟨i, by omega⟩) (mem_streamWords.mpr (.inr (.inr (.inr ⟨hcodec, .inl ⟨_, rfl⟩⟩))))
  · exact ctrlWord_inj.mp (h .ctrl (mem_streamWords.mpr (.inr (.inr (.inr ⟨hcodec, .inr rfl⟩)))))

/-- Settles O42: the rules of a plain write, and the names of a saved stream, which hold the words that the restoring
host copies. -/
theorem writtenWordReadsBack : Obligations.WrittenWordReadsBack := by
  refine ⟨fun s r v hb => ⟨fun hrw => ?_, ?_, fun hro => ?_⟩, fun codec name s u ops ops' hs hsave hu hrestore => ?_⟩
  · have hwrite : busWrite r.offset v s = writeWord s v r :=
      busWrite_offset_idle v hb (by rintro rfl; cases hrw) (by rintro rfl; cases hrw)
    rw [hwrite]
    exact ⟨readWord_writeWord_self s v hrw, fun r' hne => readWord_writeWord_ne s v hne⟩
  · rintro rfl
    exact busWrite_ctrl_idle v hb
  · rw [busWrite_offset_idle v hb (by rintro rfl; cases hro) (by rintro rfl; cases hro), writeWord_readOnly s v hro]
  · obtain ⟨vs, hrun, hnames, -⟩ :=
      run_readWords (streamWords codec) name s ops (by simpa [State.busy] using hs) hsave
    refine ⟨_, hrun, rfl, fun hsame => ⟨_, run_writeNames_copyWords (s := s) ?_ hu hrestore ?_, rfl, ?_⟩⟩
    · exact fun r => restorable_of_mem_streamWords
    · intro i hi
      rw [hsame i (hi.trans_le (length_streamWords_le codec)), hnames i hi]
    · exact stream_eq_of_readWord (v := copyWords s _ u) fun r hr =>
        readWord_copyWords s (fun r => restorable_of_mem_streamWords) u r (.inl hr)

end Sys2Proof.Machine
end

section
/-! The command words (R81 to R86): the fields of an assembled word, all that the decoder can answer, and the rows of
the opcode map. -/

namespace Sys2Proof

open Sys2Proof.Safety

/-! ## The fields of an assembled word (R81, R90) -/

section Assemble
variable {opc : Word} (nb : Fin 16) (zd za zb zm : ZReg) (hopc : opc.toNat < 2 ^ 8)
include hopc

/-- The fields do not overlap, and so the assembled word is their sum. -/
theorem toNat_assemble :
    (assemble opc nb zd za zb zm).toNat =
      opc.toNat + 2 ^ 8 * nb.val + 2 ^ 12 * zd.val + 2 ^ 15 * za.val + 2 ^ 18 * zb.val + 2 ^ 21 * zm.val := by
  have shifted (v k : Nat) (hv : v * 2 ^ k < 2 ^ 32) : (BitVec.ofNat 32 v <<< k).toNat = 2 ^ k * v := by
    have hle : v ≤ v * 2 ^ k := Nat.le_mul_of_pos_right v (Nat.two_pow_pos k)
    rw [BitVec.toNat_shiftLeft, BitVec.toNat_ofNat, Nat.shiftLeft_eq, Nat.mod_eq_of_lt (hle.trans_lt hv),
      Nat.mod_eq_of_lt hv, Nat.mul_comm]
  have above (k low v : Nat) (hlow : low < 2 ^ k) : low ||| 2 ^ k * v = low + 2 ^ k * v := by
    rw [Nat.or_comm, ← Nat.two_pow_add_eq_or_of_lt hlow, Nat.add_comm]
  simp only [assemble, BitVec.toNat_or]
  rw [shifted nb 8 (by omega), shifted zd 12 (by omega), shifted za 15 (by omega), shifted zb 18 (by omega),
    shifted zm 21 (by omega), above 8 _ _ hopc, above 12 _ _ (by omega), above 15 _ _ (by omega),
    above 18 _ _ (by omega), above 21 _ _ (by omega)]

theorem toNat_extract_assemble (k n : Nat) :
    ((assemble opc nb zd za zb zm).extractLsb' k n).toNat =
      (opc.toNat + 2 ^ 8 * nb.val + 2 ^ 12 * zd.val + 2 ^ 15 * za.val + 2 ^ 18 * zb.val + 2 ^ 21 * zm.val) / 2 ^ k
        % 2 ^ n := by
  rw [BitVec.extractLsb'_toNat, toNat_assemble _ _ _ _ _ hopc, Nat.shiftRight_eq_div_pow]

@[simp] theorem rsvOf_assemble : rsvOf (assemble opc nb zd za zb zm) = 0 := by
  apply BitVec.eq_of_toNat_eq
  rw [rsvOf, toNat_extract_assemble _ _ _ _ _ hopc]
  change _ = 0
  omega

@[simp] theorem opcOf_assemble : opcOf (assemble opc nb zd za zb zm) = opc.setWidth 8 := by
  apply BitVec.eq_of_toNat_eq
  rw [opcOf, toNat_extract_assemble _ _ _ _ _ hopc, BitVec.toNat_setWidth]
  omega

@[simp] theorem nbOf_assemble : nbOf (assemble opc nb zd za zb zm) = nb :=
  Fin.ext ((toNat_extract_assemble nb zd za zb zm hopc 8 4).trans (by omega))

@[simp] theorem zdOf_assemble : zdOf (assemble opc nb zd za zb zm) = zd :=
  Fin.ext ((toNat_extract_assemble nb zd za zb zm hopc 12 3).trans (by omega))

@[simp] theorem zaOf_assemble : zaOf (assemble opc nb zd za zb zm) = za :=
  Fin.ext ((toNat_extract_assemble nb zd za zb zm hopc 15 3).trans (by omega))

@[simp] theorem zbOf_assemble : zbOf (assemble opc nb zd za zb zm) = zb :=
  Fin.ext ((toNat_extract_assemble nb zd za zb zm hopc 18 3).trans (by omega))

@[simp] theorem zmOf_assemble : zmOf (assemble opc nb zd za zb zm) = zm :=
  Fin.ext ((toNat_extract_assemble nb zd za zb zm hopc 21 3).trans (by omega))

end Assemble

/-- Settles O1: the fields read back, and those that the command does not use were assembled as 0. -/
theorem decodeInvertsEncode : Obligations.DecodeInvertsEncode := by
  intro i
  cases i with
  | nop | enc | dec | hinit | hblk | cinit | cenc | cdec | cdecf => rfl
  | hfin nb | cencf nb | mexp zd za zb zm | mmul zd za zb zm | msub zd za zb zm | mred zd za zm | zldb zd
  | zcmp za zb =>
    simp [decode, encode, checked, fieldIsZero]

/-- Settles O5: each of the words is the encoding of its command. -/
theorem sampleWordsDecode : Obligations.SampleWordsDecode :=
  ⟨decodeInvertsEncode .nop, decodeInvertsEncode .dec, decodeInvertsEncode (.hfin 15),
    decodeInvertsEncode (.cencf 9), decodeInvertsEncode (.mexp 6 2 4 0), decodeInvertsEncode (.mred 7 6 1),
    decodeInvertsEncode (.zldb 5), decodeInvertsEncode (.zcmp 6 5)⟩

/-! ## All that the decoder can answer (R84 to R86) -/

/-- The fields that an opcode with the given used fields leaves unused, in the order of the decoder's check. -/
def unusedFields (used : List Field) : List Field := [.nb, .zd, .za, .zb, .zm].filter (· ∉ used)

@[simp] theorem mem_unusedFields {used : List Field} {f : Field} : f ∈ unusedFields used ↔ f ∉ used := by
  cases f <;> simp [unusedFields]

/-- The word with RSV and every field but the given ones cleared. -/
def onlyFields (used : List Field) (w : Word) : Word :=
  assemble ((opcOf w).setWidth 32) (if .nb ∈ used then nbOf w else 0) (if .zd ∈ used then zdOf w else 0)
    (if .za ∈ used then zaOf w else 0) (if .zb ∈ used then zbOf w else 0) (if .zm ∈ used then zmOf w else 0)

/-- Clearing fields that are 0 changes nothing. -/
theorem onlyFields_eq_self {w : Word} {used : List Field} (hrsv : rsvOf w = 0)
    (hzero : ∀ f, f ∉ used → fieldIsZero w f = true) : onlyFields used w = w := by
  have keep {k : Nat} [NeZero k] {f : Field} {v : Fin k} (hv : fieldIsZero w f = (v == 0)) :
      (if f ∈ used then v else 0) = v := by
    split
    · rfl
    · rename_i hf
      exact (eq_of_beq (hv ▸ hzero f hf)).symm
  rw [onlyFields, keep (f := .nb) rfl, keep (f := .zd) rfl, keep (f := .za) rfl, keep (f := .zb) rfl,
    keep (f := .zm) rfl, assemble_fields w hrsv]

/-- All that the check of unused fields can answer (R84). -/
theorem checked_cases (w : Word) (unused : List Field) (i : Instr) :
    ((∀ f ∈ unused, fieldIsZero w f = true) ∧ checked w unused i = .ok i) ∨
    ∃ f ∈ unused, fieldIsZero w f = false ∧ checked w unused i = .error (.unusedField f) := by
  unfold checked
  split
  · rename_i f hfind
    exact .inr ⟨f, List.mem_of_find?_eq_some hfind, by simpa using List.find?_some hfind, rfl⟩
  · rename_i hfind
    exact .inl ⟨by simpa using hfind, rfl⟩

/-- Every opcode but the 17 of R85 is unassigned. -/
theorem usedFields_eq_none {opc : BitVec 8} (h : opc ∉ [0x00, 0x01, 0x02, 0x10, 0x11, 0x12, 0x20, 0x21, 0x22, 0x23,
    0x24, 0x30, 0x31, 0x32, 0x33, 0x34, 0x35]) : usedFields opc = none := by
  simp only [usedFields, List.mem_cons, List.not_mem_nil, or_false, not_or] at h ⊢
  simp only [h, or_self, if_false]

/-- With RSV 0 the decoder follows the column "fields used" of R85: an assigned opcode has a command, of the used fields
of the word, and the check is of the unused ones. -/
theorem decode_of_rsv_zero {w : Word} (hrsv : rsvOf w = 0) :
    (usedFields (opcOf w) = none ∧ decode w = .error (.unassignedOpcode (opcOf w))) ∨
    ∃ used i, usedFields (opcOf w) = some used ∧ decode w = checked w (unusedFields used) i ∧
      encode i = onlyFields used w := by
  have opcode {k : Nat} (h : (opcOf w).toNat = k) : opcOf w = BitVec.ofNat 8 k := by
    rw [← h, BitVec.ofNat_toNat, BitVec.setWidth_eq]
  simp only [decode, hrsv, ne_eq, not_true_eq_false, if_false]
  split
  case h_18 =>
    refine .inl ⟨usedFields_eq_none ?_, rfl⟩
    simp only [List.mem_cons, List.not_mem_nil, not_or, ← BitVec.toNat_inj]
    and_intros <;> trivial
  all_goals
    rename_i hk
    refine .inr ⟨_, _, (congrArg usedFields (opcode hk)).trans rfl, rfl, ?_⟩
    rw [onlyFields, opcode hk]
    rfl

/-- All that the decoder can do: it refuses the words that R86 calls illegal, and reads the others in full. -/
theorem decode_cases (w : Word) :
    (Illegal w ∧ ∃ e, decode w = .error e) ∨ (¬ Illegal w ∧ ∃ i, decode w = .ok i ∧ encode i = w) := by
  by_cases hrsv : rsvOf w = 0
  case neg => exact .inl ⟨.inl hrsv, _, if_pos hrsv⟩
  rcases decode_of_rsv_zero hrsv with ⟨hused, herror⟩ | ⟨used, i, hused, hdecode, hencode⟩
  · exact .inl ⟨.inr (.inl hused), _, herror⟩
  · rcases checked_cases w (unusedFields used) i with ⟨hzero, hok⟩ | ⟨f, hf, hone, herror⟩
    · simp only [mem_unusedFields] at hzero
      refine .inr ⟨?_, i, hdecode.trans hok, hencode.trans (onlyFields_eq_self hrsv hzero)⟩
      rintro (h | h | ⟨used', f, h, hf, hone⟩)
      · exact h hrsv
      · simp [hused] at h
      · obtain rfl : used = used' := Option.some.inj (hused.symm.trans h)
        simp [hzero f hf] at hone
    · exact .inl ⟨.inr (.inr ⟨used, f, hused, mem_unusedFields.mp hf, hone⟩), _, hdecode.trans herror⟩

/-- Settles O2: a word that decodes is not one of the illegal ones. -/
theorem encodeInvertsDecode : Obligations.EncodeInvertsDecode := by
  intro w i h
  rcases decode_cases w with ⟨-, e, herror⟩ | ⟨-, j, hok, hencode⟩
  · rw [herror] at h; cases h
  · obtain rfl := Except.ok.inj (hok.symm.trans h)
    exact hencode

/-- The words that decode to a command are its encoding and no other. -/
theorem decode_eq_ok_iff {w : Word} {i : Instr} : decode w = .ok i ↔ encode i = w := by
  refine ⟨encodeInvertsDecode w i, ?_⟩
  rintro rfl
  exact decodeInvertsEncode i

/-! ## The rows of the opcode map (R85) -/

/-- The least significant bit of a field (R81). -/
def Field.pos : Field → Nat
  | .nb => 8
  | .zd => 12
  | .za => 15
  | .zb => 18
  | .zm => 21

/-- The number of bits of a field (R81). -/
def Field.width : Field → Nat
  | .nb => 4
  | .zd | .za | .zb | .zm => 3

theorem fieldIsZero_iff {w : Word} {f : Field} : fieldIsZero w f = true ↔ w.extractLsb' f.pos f.width = 0 := by
  cases f <;> exact beq_iff_eq.trans BitVec.toFin_inj

/-- The columns match and mask of a row: RSV, OPC and the fields that the opcode does not use lie under the mask, and
all of these but OPC are 0 in the match value. -/
theorem row_columns : ∀ row ∈ opcodeMap,
    row.mask.extractLsb' 24 8 = BitVec.allOnes 8 ∧ rsvOf row.pattern = 0 ∧
      row.mask.extractLsb' 0 8 = BitVec.allOnes 8 ∧
      ∃ used ∈ usedFields (opcOf row.pattern), ∀ f ∈ unusedFields used,
        row.mask.extractLsb' f.pos f.width = BitVec.allOnes f.width ∧ fieldIsZero row.pattern f = true := by
  decide

/-- The rows of the map have different opcodes and different mnemonics. -/
theorem row_unique : ∀ row ∈ opcodeMap, ∀ row' ∈ opcodeMap,
    opcOf row.pattern = opcOf row'.pattern ∨ row.mnemonic = row'.mnemonic → row = row' := by
  decide

/-- The bits of a covered word that lie under the mask are those of the match value. -/
theorem extract_of_covers {row : OpcodeRow} {w : Word} (h : row.covers w = true) {a k : Nat}
    (hmask : row.mask.extractLsb' a k = BitVec.allOnes k) : w.extractLsb' a k = row.pattern.extractLsb' a k := by
  have hpattern : w &&& row.mask = row.pattern := by simpa [OpcodeRow.covers] using h
  rw [← hpattern, BitVec.extractLsb'_and, hmask, BitVec.and_allOnes]

/-- A word of a row has the opcode of the row and is legal (R85). -/
theorem covers_legal {row : OpcodeRow} {w : Word} (hrow : row ∈ opcodeMap) (h : row.covers w = true) :
    opcOf w = opcOf row.pattern ∧ ¬ Illegal w := by
  obtain ⟨hrsv, hrsv0, hopc, used, hused, hunused⟩ := row_columns row hrow
  have hopcode : opcOf w = opcOf row.pattern := extract_of_covers h hopc
  refine ⟨hopcode, ?_⟩
  rintro (hne | hnone | ⟨used', f, hused', hf, hone⟩)
  · exact hne ((extract_of_covers h hrsv).trans hrsv0)
  · rw [hopcode, Option.mem_def.mp hused] at hnone
    cases hnone
  · rw [hopcode, Option.mem_def.mp hused] at hused'
    obtain rfl := Option.some.inj hused'
    obtain ⟨hmask, hzero⟩ := hunused f (mem_unusedFields.mpr hf)
    have hw : fieldIsZero w f = true :=
      fieldIsZero_iff.mpr ((extract_of_covers h hmask).trans (fieldIsZero_iff.mp hzero))
    rw [hw] at hone
    cases hone

/-- The row of every command covers its word (R85, R90). -/
theorem encodeLegal (i : Instr) : Laws.EncodeLegal.Statement i := by
  cases i with
  | nop => exact Laws.EncodeLegal.nop
  | enc => exact Laws.EncodeLegal.enc
  | dec => exact Laws.EncodeLegal.dec
  | hinit => exact Laws.EncodeLegal.hinit
  | hblk => exact Laws.EncodeLegal.hblk
  | hfin nb => exact Laws.EncodeLegal.hfin nb
  | cinit => exact Laws.EncodeLegal.cinit
  | cenc => exact Laws.EncodeLegal.cenc
  | cencf nb => exact Laws.EncodeLegal.cencf nb
  | cdec => exact Laws.EncodeLegal.cdec
  | cdecf => exact Laws.EncodeLegal.cdecf
  | mexp zd za zb zm => exact Laws.EncodeLegal.mexp zd za zb zm
  | mmul zd za zb zm => exact Laws.EncodeLegal.mmul zd za zb zm
  | msub zd za zb zm => exact Laws.EncodeLegal.msub zd za zb zm
  | mred zd za zm => exact Laws.EncodeLegal.mred zd za zm
  | zldb zd => exact Laws.EncodeLegal.zldb zd
  | zcmp za zb => exact Laws.EncodeLegal.zcmp za zb

/-- Settles O3: the row that covers the encoding of a command is the only one with its opcode and the only one with its
mnemonic. -/
theorem opcodeMapRowsAreDecoded : Obligations.OpcodeMapRowsAreDecoded := by
  intro w row hrow
  constructor
  · intro hcovers
    obtain ⟨hopc, hlegal⟩ := covers_legal hrow hcovers
    obtain ⟨-, i, hdecode, rfl⟩ := (decode_cases w).resolve_left fun h => hlegal h.1
    obtain ⟨row', hrow', hname, hcovers'⟩ := encodeLegal i
    obtain rfl := row_unique row hrow row' hrow' (.inl (hopc.symm.trans (covers_legal hrow' hcovers').1))
    exact ⟨i, hdecode, hname.symm⟩
  · rintro ⟨i, hdecode, hname⟩
    obtain ⟨row', hrow', hname', hcovers'⟩ := encodeLegal i
    obtain rfl := row_unique row hrow row' hrow' (.inr (hname.symm.trans hname'.symm))
    rwa [decode_eq_ok_iff.mp hdecode] at hcovers'

/-- The legal words are those that R86 does not call illegal. -/
theorem legalWord_iff (w : Word) : legalWord w = true ↔ ¬ Illegal w := by
  rw [legalWord, List.any_eq_true]
  constructor
  · rintro ⟨row, hrow, hcovers⟩
    exact (covers_legal hrow hcovers).2
  · intro hlegal
    obtain ⟨-, i, -, rfl⟩ := (decode_cases w).resolve_left fun h => hlegal h.1
    obtain ⟨row, hrow, -, hcovers⟩ := encodeLegal i
    exact ⟨row, hrow, hcovers⟩

/-- The decoder refuses the illegal words (R86). -/
theorem decode_of_illegal {w : Word} (h : Illegal w) : ∃ e, decode w = .error e := by
  rcases decode_cases w with ⟨-, herror⟩ | ⟨hlegal, -⟩
  · exact herror
  · exact absurd h hlegal

end Sys2Proof
end

section
/-! The completion of the command in flight (R88, R89), acceptance (R87) and the end of a wait (R92, R272). -/

namespace Sys2Proof.Machine

open Host Sys2Proof.Safety

/-! ## The engine's turn (R88, R89) -/

section EngineTurn
variable {s : State} {w : Word}

theorem step_engineTurn (hp : s.pend = some w) (hturn : engineTurn s) : step s = engineStep w s := by
  rcases step_cases s with ⟨hnone, -⟩ | ⟨op, ops, d, hops, hhost, -⟩ | ⟨w', hw, -, hstep⟩
  · simp [hp] at hnone
  · rcases hturn with hdelay | hnil
    · simp [hp, hdelay] at hhost
    · simp [hops] at hnil
  · obtain rfl := Option.some.inj (hp.symm.trans hw)
    exact hstep

theorem engineStep_ok {i : Instr} (h : decode w = .ok i) (s : State) : engineStep w s = exec i s := by
  simp only [engineStep, h]

theorem engineStep_illegal (h : Illegal w) (s : State) : engineStep w s = .next (erred s 1) := by
  obtain ⟨e, herror⟩ := decode_of_illegal h
  simp only [engineStep, herror, raise_eq_erred, ErrorCode.code]

end EngineTurn

/-- Settles O7: the engine's step is the completion of the word in flight, and a decoded word completes by `exec`. -/
theorem stepRunsTheCommandInFlight : Obligations.StepRunsTheCommandInFlight := by
  intro s w i hp hdecode hturn
  rw [step_engineTurn hp hturn, engineStep_ok hdecode]

/-- Settles O4: the decoder refuses the illegal words and no others; the acceptance does not look at the word. -/
theorem illegalWordRecordsEIllegal : Obligations.IllegalWordRecordsEIllegal := by
  refine fun w => ⟨legalWord_iff w, fun hillegal => ⟨fun s hb => ?_, fun s hp hturn => ?_⟩⟩
  · have haccept : busWrite 0x000 w s = accept w s := busWrite_cmd_idle w hb
    rw [haccept]
    exact ⟨accept_pend w s, accept_cmd w s⟩
  · rw [step_engineTurn hp hturn, engineStep_illegal hillegal]

/-- No command faults or is refused: each arm answers a next state (R230). -/
theorem exec_answers (i : Instr) (s : State) : ∃ t, exec i s = .next t := by
  cases i <;> exact ⟨_, rfl⟩

/-- What no command writes: the operands KEY, DIN and CTRL.KSIZE, CMD, and the host's own fields (R23, R24, R31,
R32). -/
theorem WritesOwnRegisters.keeps {i : Instr} {s u : State} (h : WritesOwnRegisters s u i) :
    u.key = s.key ∧ u.din = s.din ∧ u.cmd = s.cmd ∧ u.ksize = s.ksize ∧ u.hostOps = s.hostOps ∧
      u.hostVars = s.hostVars ∧ u.accepted = s.accepted ∧ u.draws = s.draws := by
  cases i with
  | nop | zcmp za zb => obtain rfl := h; simp
  | enc | dec => obtain ⟨o, rfl⟩ := h; simp
  | hinit | hblk | cinit => obtain ⟨c, l, rfl⟩ := h; simp
  | hfin nb | cenc | cdec => obtain ⟨o, c, l, rfl⟩ := h; simp
  | cencf nb => obtain ⟨o, o', c, l, rfl⟩ := h; simp
  | cdecf => obtain ⟨o, c, tl, kp, kl, l, rfl⟩ := h; simp
  | mexp zd za zb zm | mmul zd za zb zm | msub zd za zb zm | mred zd za zm | zldb zd => obtain ⟨v, rfl⟩ := h; simp

/-- Settles O9: both ways to complete keep what no command writes. -/
theorem everyCommandCompletes : Obligations.EveryCommandCompletes := by
  intro i s
  obtain ⟨t, h⟩ := exec_answers i s
  refine ⟨t, h, ?_⟩
  rcases exec_completes h with ⟨e, rfl⟩ | ⟨n, u, hu, rfl⟩
  · simp [State.busy]
  · obtain ⟨hie, -, -, hzsize, hsbox, -⟩ := hu.frame
    simp [State.busy, hu.keeps, hie, hzsize, hsbox]

/-- Legal or not, the word in flight completes, and the host's operations wait for it (R88). -/
theorem engineStep_completes (w : Word) (s : State) :
    ∃ t, engineStep w s = .next t ∧ t.pend = none ∧ t.hostOps = s.hostOps := by
  rcases decode_cases w with ⟨hillegal, -⟩ | ⟨-, i, hdecode, -⟩
  · exact ⟨_, engineStep_illegal hillegal s, rfl, rfl⟩
  · obtain ⟨t, hexec, -, hidle, -, -, -, -, -, -, -, hops, -⟩ := everyCommandCompletes i s
    exact ⟨t, (engineStep_ok hdecode s).trans hexec, by simpa [State.busy] using hidle, hops⟩

/-! ## Acceptance (R87) -/

/-- The host's write of a number at the offset of a register word is a bus write (R91). -/
theorem hostStep_wr (r : RegWord) (v : Word) (s : State) :
    hostStep (.wr r.offset v) s = .next (busWrite r.offset v s) := by
  simp [hostStep, HostOp.wellFormed, aligned_offset, hostValue]

/-- Settles O6: a write to CMD is the acceptance of the word in an idle core, and is lost in a busy one. -/
theorem commandWriteIsAccepted : Obligations.CommandWriteIsAccepted := by
  intro s w ops hops
  replace hops : s.hostOps = .wr RegWord.cmd.offset w :: ops := hops
  refine ⟨fun hp => ⟨accept w { s with hostOps := ops }, ?_, ?_, rfl⟩, fun w' d hp hd => ?_⟩
  · rw [step_idle_hostOp hp hops, hostStep_wr, busWrite_cmd_idle w (by simp [State.busy, hp])]
  · rw [statusWord_busy, State.busy, accept_pend, Option.isSome_some]
  · refine ⟨recordError .busy { s with hostOps := ops, delay := d }, ?_, by simp, by simp, by simp⟩
    rw [step_busy_hostOp (by simp [hp]) hd hops, hostStep_wr,
      busWrite_lost w (by simp [regAt_offset]) (by simp [regAt_offset, RegWord.isReserved]) (by simp [State.busy, hp])]

/-! ## The end of a wait (R92, R272) -/

/-- A read leaves the command in flight and the rest of the host's program (R91). -/
theorem hostRead_frame (off : Offset) (n : Nat) (s : State) :
    (hostRead off n s).pend = s.pend ∧ (hostRead off n s).delay = s.delay ∧
      (hostRead off n s).hostOps = s.hostOps := by
  rcases hostRead_cases off n s with h | h <;> simp [h]

section Wait
variable {s : State} {n : Nat} {ops : List HostOp}

/-- A `wait` that reads BUSY = 1 stays the next operation and uses up one step of the latency. -/
theorem step_wait_busy {w : Word} {d : Nat} (hp : s.pend = some w) (hd : s.delay = d + 1)
    (ho : s.hostOps = .wait n :: ops) :
    ∃ t, step s = .next t ∧ t.pend = some w ∧ t.delay = d ∧ t.hostOps = .wait n :: ops := by
  have hb : State.busy { s with hostOps := ops, delay := d } = true := by simp [State.busy, hp]
  rw [step_busy_hostOp (by simp [hp]) hd ho, hostStep, hb, if_pos rfl]
  obtain ⟨hpend, hdelay, hops⟩ := hostRead_frame RegWord.status.offset n { s with hostOps := ops, delay := d }
  exact ⟨_, rfl, hpend.trans hp, hdelay, congrArg (.wait n :: ·) hops⟩

/-- A `wait` that reads BUSY = 0 is done. -/
theorem step_wait_idle (hp : s.pend = none) (ho : s.hostOps = .wait n :: ops) :
    step s = .next { s with hostOps := ops, hostVars := setVar n s.statusWord s.hostVars } := by
  have hb : State.busy { s with hostOps := ops } = false := by simp [State.busy, hp]
  rw [step_idle_hostOp hp ho]
  simp only [hostStep, hb, hostRead, busRead_idle _ _ hb, regAt_offset]
  rfl

end Wait

/-- Settles O57: by induction on the latency, the wait is read again until the engine's turn comes. -/
theorem waitTerminates : Obligations.WaitTerminates := by
  intro s w n ops hp ho
  induction hd : s.delay generalizing s with
  | zero =>
    obtain ⟨t, hengine, hidle, hops⟩ := engineStep_completes w s
    have hdone := step_wait_idle hidle (hops.trans ho)
    refine ⟨{ t with hostOps := ops, hostVars := setVar n t.statusWord t.hostVars }, ?_, hidle, rfl, t.statusWord,
      lookupVar_setVar_self _ _ _, ?_⟩
    · rw [run_succ 1 s t ((step_engineTurn hp (.inl hd)).trans hengine), run_succ 0 t _ hdone]
      rfl
    · rw [statusWord_busy, State.busy, hidle, Option.isSome_none]
  | succ d ih =>
    obtain ⟨t, hstep, hpend, hdelay, hops⟩ := step_wait_busy hp hd ho
    rw [run_succ (d + 2) s t hstep]
    exact ih t hpend hops hdelay

end Sys2Proof.Machine
end

section
/-! The block cipher, byte by byte (R112 to R122), and the commands ENC and DEC (R125, R126). -/

namespace Sys2Proof.Machine

/-! ## The bytes of `Π`, `SPLIT`, `F` and a round (R114 to R119) -/

/-- The even bytes of `Π` are the first components of its pairs (R113, R114). -/
theorem byteAt_permute_even (S : SboxTable) (X : Block) {i : Nat} (hi : i < 8) :
    byteAt (permute S X) (2 * i) = combine S (byteAt X i) (byteAt X (i + 8)) := by
  have hhalf : 2 * i / 2 = i := by omega
  rw [permute, byteAt_blockOf _ _ (by omega)]
  simp [pairTransform, hhalf]

/-- The odd bytes of `Π` are the second components of its pairs (R113, R114). -/
theorem byteAt_permute_odd (S : SboxTable) (X : Block) {i : Nat} (hi : i < 8) :
    byteAt (permute S X) (2 * i + 1) = combine S (byteAt X (i + 8)) (byteAt X i) := by
  have hhalf : (2 * i + 1) / 2 = i := by omega
  rw [permute, byteAt_blockOf _ _ (by omega)]
  simp [pairTransform, hhalf]

/-- The first half of SPLIT is the even bytes (R116). -/
theorem byteAt_split_low (X : Block) {j : Nat} (hj : j < 8) : byteAt (split X) j = byteAt X (2 * j) := by
  rw [split, byteAt_blockOf _ _ (by omega), if_pos hj]

/-- The second half of SPLIT is the odd bytes (R116). -/
theorem byteAt_split_high (X : Block) {j : Nat} (hj : j < 8) : byteAt (split X) (8 + j) = byteAt X (2 * j + 1) := by
  rw [split, byteAt_blockOf _ _ (by omega), if_neg (by omega), Nat.add_sub_cancel_left]

/-- Byte `j` of a concatenation is that of its first half, byte `8 + j` that of its last (R10). -/
theorem byteAt_cat_halves (a b : Half) {j : Nat} (hj : j < 8) :
    byteAt (cat a b) j = byteAt a j ∧ byteAt (cat a b) (8 + j) = byteAt b j := by
  constructor
  · rw [byteAt_cat _ _ _ (by omega), if_pos hj]
  · rw [byteAt_cat _ _ _ (by omega), if_neg (by omega), Nat.add_sub_cancel_left]

/-- A block is known by the bytes of its two halves (R10). -/
theorem eq_cat_of_byteAt {W : Block} {a b : Half}
    (h : ∀ j, j < 8 → byteAt W j = byteAt a j ∧ byteAt W (8 + j) = byteAt b j) : W = cat a b := by
  have hhi : hi W = a := eq_of_byteAt _ _ fun j hj => by
    rw [byteAt_hi W j (by omega)]
    exact (h j (by omega)).1
  have hlo : lo W = b := eq_of_byteAt _ _ fun j hj => by
    rw [byteAt_lo W j (by omega)]
    exact (h j (by omega)).2
  rw [← hhi, ← hlo, cat_hi_lo]

/-- `F` takes the even bytes of `C(3, x2 ‖ SK)` (R118). -/
theorem byteAt_roundFunction (S : SboxTable) (x2 sk : Half) {j : Nat} (hj : j < 8) :
    byteAt (roundFunction S x2 sk) j = byteAt (mixDeep S (cat x2 sk) 2) (2 * j) := by
  rw [roundFunction, byteAt_hi _ _ hj, byteAt_split_low _ hj]

/-- The first half of a round is the second half of its input (R119). -/
theorem byteAt_feistelRound_low (S : SboxTable) (X : Block) (sk : Half) {j : Nat} (hj : j < 8) :
    byteAt (feistelRound S X sk) j = byteAt (lo X) j := (byteAt_cat_halves _ _ hj).1

/-- The second half of a round is the first half of its input, masked by `F` (R119). -/
theorem byteAt_feistelRound_high (S : SboxTable) (X : Block) (sk : Half) {j : Nat} (hj : j < 8) :
    byteAt (feistelRound S X sk) (8 + j) = byteAt X j ^^^ byteAt (roundFunction S (lo X) sk) j := by
  rw [feistelRound, (byteAt_cat_halves _ _ hj).2, byteAt_xor, byteAt_hi X j hj]

/-! ## The commands (R125, R126) -/

/-- ENC under a legal key size (R33, R125). -/
theorem exec_enc {s : State} {ks : KeySize} (hks : selectKey s.ksize = some ks) :
    exec .enc s = .next (finish 1 { s with out0 := encrypt s.sbox ks s.key s.din }) := withKeySize_some s _ ks hks

/-- DEC under a legal key size (R33, R126). -/
theorem exec_dec {s : State} {ks : KeySize} (hks : selectKey s.ksize = some ks) :
    exec .dec s = .next (finish 1 { s with out0 := decrypt s.sbox ks s.key s.din }) := withKeySize_some s _ ks hks

/-- Settles O11: the command, the schedules, the sub-keys, a round on named halves, and the bytes of `Π` and SPLIT. -/
theorem encResult : Obligations.EncResult := by
  refine ⟨fun s ks hks => exec_enc hks, fun S key X round hround => ?schedules,
    fun key i j _ _ hj => byteAt_subKey key i j hj, fun S X W x2 SK T hT hbytes j hj => ?round,
    fun S X i hi => ⟨byteAt_permute_even S X hi, byteAt_permute_odd S X hi, byteAt_split_low X hi,
      byteAt_split_high X hi⟩⟩
  case schedules =>
    obtain rfl : round = fun Y i => feistelRound S Y (subKey key i) := funext₂ hround
    exact ⟨rfl, rfl, rfl⟩
  case round =>
    obtain rfl : T = mix S := funext hT
    obtain rfl : W = cat x2 SK := eq_cat_of_byteAt fun k hk => (hbytes k hk).2
    obtain rfl : x2 = lo X := eq_of_byteAt _ _ fun k hk => by
      rw [byteAt_lo X k (by omega)]
      exact (hbytes k (by omega)).1
    exact ⟨byteAt_roundFunction S (lo X) SK hj, byteAt_feistelRound_low S X SK hj,
      byteAt_feistelRound_high S X SK hj⟩

/-- Settles O12: DEC runs `decrypt` once the key size is legal. -/
theorem decResult : Obligations.DecResult := fun _ _ hks => exec_dec hks

end Sys2Proof.Machine
end

section
/-! Decryption undoes encryption (R124), and so do the commands (R126, R162, R164). -/

namespace Sys2Proof.Machine

/-! ## The cipher functions (R122 to R124) -/

/-- The rounds of a list of sub-key numbers, in order: `encrypt` for any schedule (R122). -/
def runRounds (S : SboxTable) (key : KeyReg) (numbers : List Nat) (X : Block) : Block :=
  numbers.foldl (fun x i => feistelRound S x (subKey key i)) X

theorem encrypt_eq_runRounds (S : SboxTable) (ks : KeySize) (key : KeyReg) (X : Block) :
    encrypt S ks key X = runRounds S key (schedule ks) X := rfl

theorem runRounds_cons (S : SboxTable) (key : KeyReg) (i : Nat) (numbers : List Nat) (X : Block) :
    runRounds S key (i :: numbers) X = runRounds S key numbers (feistelRound S X (subKey key i)) := rfl

theorem runRounds_concat (S : SboxTable) (key : KeyReg) (numbers : List Nat) (i : Nat) (X : Block) :
    runRounds S key (numbers ++ [i]) X = feistelRound S (runRounds S key numbers X) (subKey key i) := by
  simp [runRounds]

/-- The Feistel inversion: between two swaps the same rounds in reverse order undo the rounds. -/
theorem runRounds_reverse_inverse (S : SboxTable) (key : KeyReg) (numbers : List Nat) (X : Block) :
    swapHalves (runRounds S key numbers.reverse (swapHalves (runRounds S key numbers X))) = X := by
  induction numbers generalizing X with
  | nil => exact swapHalves_swapHalves X
  | cons i numbers ih =>
    have hinner : runRounds S key numbers.reverse (swapHalves (runRounds S key (i :: numbers) X)) =
        swapHalves (feistelRound S X (subKey key i)) := by
      rw [runRounds_cons, ← swapHalves_swapHalves (runRounds S key numbers.reverse _), ih]
    rw [List.reverse_cons, runRounds_concat, hinner]
    exact feistelRound_inverse S X (subKey key i)

/-- A schedule is its own reverse, so `decrypt` undoes `encrypt` (R121, R124). -/
@[simp] theorem decrypt_encrypt (S : SboxTable) (ks : KeySize) (key : KeyReg) (X : Block) :
    decrypt S ks key (encrypt S ks key X) = X := by
  have hrounds := runRounds_reverse_inverse S key (schedule ks) X
  rwa [schedule_reverse] at hrounds

/-- `decrypt` is `encrypt` between two swaps, so the other order follows (R123, R124). -/
@[simp] theorem encrypt_decrypt (S : SboxTable) (ks : KeySize) (key : KeyReg) (X : Block) :
    encrypt S ks key (decrypt S ks key X) = X := by
  have hswapped := congrArg swapHalves (decrypt_encrypt S ks key (swapHalves X))
  simpa only [decrypt, swapHalves_swapHalves] using hswapped

/-- One block of the chained codec is undone from the same previous block (R160). -/
@[simp] theorem chainDecrypt_chainEncrypt (S : SboxTable) (ks : KeySize) (key : KeyReg) (prev p : Block) :
    chainDecrypt S ks key prev (chainEncrypt S ks key prev p) = p := by
  rw [chainDecrypt, chainEncrypt, BitVec.xor_assoc, BitVec.xor_self, BitVec.xor_zero, decrypt_encrypt]

/-- Settles O29: the first clause is the definition of `decrypt`, the others are the two inversions. -/
theorem decryptInvertsEncrypt : Obligations.DecryptInvertsEncrypt := fun S ks key X =>
  ⟨rfl, decrypt_encrypt S ks key X, encrypt_decrypt S ks key X⟩

/-! ## The commands (R126, R162, R164) -/

/-- CENC under a legal key size (R33, R162). -/
theorem exec_cenc {s : State} {ks : KeySize} (hks : selectKey s.ksize = some ks) :
    exec .cenc s = .next (finish 1
      { s with out0 := chainEncrypt s.sbox ks s.key s.chain s.din, chain := s.din, len := s.len + 16 }) :=
  withKeySize_some s _ ks hks

/-- CDEC under a legal key size (R33, R164). -/
theorem exec_cdec {s : State} {ks : KeySize} (hks : selectKey s.ksize = some ks) :
    exec .cdec s = .next (finish 1
      { s with out0 := chainDecrypt s.sbox ks s.key s.chain s.din,
               chain := chainDecrypt s.sbox ks s.key s.chain s.din, len := s.len + 16 }) :=
  withKeySize_some s _ ks hks

/-- Settles O34: neither ENC nor the host's write of DIN touches KEY, KSIZE or the S-box, so the functions' inversions
carry over. -/
theorem decryptCommandsInvertEncryptCommands : Obligations.DecryptCommandsInvertEncryptCommands := by
  intro s ks hks
  constructor
  · exact ⟨_, _, exec_enc hks, exec_dec hks, decrypt_encrypt s.sbox ks s.key s.din⟩
  · have hblock := chainDecrypt_chainEncrypt s.sbox ks s.key s.chain s.din
    exact ⟨_, _, exec_cenc hks, exec_cdec hks, hblock, hblock, rfl⟩

end Sys2Proof.Machine
end

section
/-! The default S-box (R111): the register SBOX after reset holds the bytes of the table, one by one. -/

namespace Sys2Proof.Machine

/-- A register packed from a list of bytes that fits it holds these bytes (R41, R53). -/
theorem byteAt_ofNat_packBytes {n : Nat} {l : List Byte} (hn : 8 * l.length ≤ n) {j : Nat} (hj : j < l.length) :
    byteAt (BitVec.ofNat n (packBytes l)) j = l[j] := by
  have hfits : packBytes l < 2 ^ n := calc
    packBytes l < (2 ^ 8) ^ l.length := packBytes_lt l
    _ = 2 ^ (8 * l.length) := (pow_mul 2 8 l.length).symm
    _ ≤ 2 ^ n := Nat.pow_le_pow_right (by decide) hn
  apply BitVec.eq_of_toNat_eq
  rw [byteAt_toNat, BitVec.toNat_ofNat, Nat.mod_eq_of_lt hfits, packBytes_byte l j hj]

theorem length_defaultSboxBytes : defaultSboxBytes.length = 256 := by decide +kernel

/-- `S[x]` after reset is entry `x` of the table of R111 (R41, R44). -/
theorem sub_reset_sbox (x : Byte) :
    sub State.reset.sbox x = defaultSboxBytes[x.toNat]'(x.isLt.trans_eq length_defaultSboxBytes.symm) :=
  byteAt_ofNat_packBytes (by rw [length_defaultSboxBytes]) _

/-- Multiplication by 2 in GF(2^8) modulo 0x165 (R111). -/
def gfDouble (v : Nat) : Nat := if 2 * v < 256 then 2 * v else (2 * v) ^^^ 0x165

/-- The recurrence of R111: but for the last one, each entry is the double of the one before it. -/
theorem isChain_gfDouble_defaultSboxBytes :
    (defaultSboxBytes.take 255).IsChain fun a b => b.toNat = gfDouble a.toNat := by decide +kernel

/-- Sorted, the table is all the byte values once. -/
theorem insertionSort_defaultSboxBytes :
    (defaultSboxBytes.map BitVec.toNat).insertionSort (· ≤ ·) = List.range 256 := by decide +kernel

theorem nodup_defaultSboxBytes : defaultSboxBytes.Nodup := by
  have hperm := List.perm_insertionSort (· ≤ ·) (defaultSboxBytes.map BitVec.toNat)
  rw [insertionSort_defaultSboxBytes] at hperm
  exact (hperm.nodup_iff.mp List.nodup_range).of_map

/-- Settles O38: the register's entries are the table's bytes, and the rule holds of these. -/
theorem defaultSboxRule : Obligations.DefaultSboxRule := by
  refine ⟨sub_reset_sbox 0, sub_reset_sbox 255, fun x => ?recurrence, fun x y hxy => ?injective⟩
  case recurrence =>
    have hnext : (BitVec.ofNat 8 (x.val + 1)).toNat = x.val + 1 := by simp; omega
    have hthis : (BitVec.ofNat 8 x.val).toNat = x.val := by simp; omega
    have hlt : x.val + 1 < (defaultSboxBytes.take 255).length := by
      rw [List.length_take, length_defaultSboxBytes]
      omega
    have hstep := isChain_gfDouble_defaultSboxBytes.getElem x.val hlt
    simp only [List.getElem_take] at hstep
    simp only [sub_reset_sbox, hnext, hthis]
    exact hstep
  case injective =>
    rw [sub_reset_sbox, sub_reset_sbox, nodup_defaultSboxBytes.getElem_inj_iff] at hxy
    exact BitVec.eq_of_toNat_eq hxy

end Sys2Proof.Machine
end

section
/-! Padding (R141, R142): the bytes of the terminal blocks. -/

namespace Sys2Proof.Machine

/-- Bytes 8 to 15 of a block with a trailer are the length, most significant byte first (R12, R141). -/
theorem byteAt_withTrailer (B : Block) (L : BitVec 64) {j : Nat} (hj : j < 16) :
    byteAt (withTrailer B L) j = if 8 ≤ j then BitVec.ofNat 8 (L.toNat / 256 ^ (15 - j)) else byteAt B j := by
  rw [withTrailer, byteAt_cat _ _ _ hj]
  by_cases hlow : j < 8
  · rw [if_pos hlow, if_neg (by omega), byteAt_hi B j hlow]
  · have hmirror : 7 - (j - 8) = 15 - j := by omega
    rw [if_neg hlow, if_pos (by omega), byteAt_be64 L _ (by omega), hmirror]
    apply BitVec.eq_of_toNat_eq
    rw [byteAt_toNat, BitVec.toNat_ofNat]

/-- The data bytes, the marker and zeros (R142). -/
theorem byteAt_markerBlock (D : Block) (r : Fin 16) {j : Nat} (hj : j < 16) :
    byteAt (markerBlock D r) j = if j < r.val then byteAt D j else if j = r.val then 0x40 else 0 :=
  byteAt_blockOf _ j hj

@[simp] theorem byteAt_zero {n : Nat} (j : Nat) : byteAt (0 : BitVec n) j = 0 := by simp [byteAt]

/-- Up to eight data bytes leave room for the trailer in the same block (R142). -/
theorem pad_of_le_eight {r : Fin 16} (hr : r.val ≤ 8) (D : Block) (L : BitVec 64) :
    pad D r L = (withTrailer (markerBlock D r) L, none) := if_neg (by omega)

/-- From nine data bytes on the trailer needs a block of its own (R142). -/
theorem pad_of_nine_le {r : Fin 16} (hr : 9 ≤ r.val) (D : Block) (L : BitVec 64) :
    pad D r L = (markerBlock D r, some (withTrailer 0 L)) := if_pos (by omega)

/-- Settles O30: the two shapes of PAD, each read byte by byte. -/
theorem padBytes : Obligations.PadBytes := by
  intro D r L
  refine ⟨fun hr => ?oneBlock, fun hr => ?twoBlocks⟩
  case oneBlock =>
    rw [pad_of_le_eight hr]
    refine ⟨rfl, fun j hj => ?_⟩
    rw [byteAt_withTrailer _ _ hj, byteAt_markerBlock D r hj]
  case twoBlocks =>
    rw [pad_of_nine_le hr]
    refine ⟨fun j hj => byteAt_markerBlock D r hj, _, rfl, fun j hj => ?_⟩
    rw [byteAt_withTrailer _ _ hj, byteAt_zero]

end Sys2Proof.Machine
end

section
/-! The hash (R140 to R147): the blocks of a stream, the commands HINIT, HBLK and HFIN, and the sequence that hashes a
stream. -/

namespace Sys2Proof.Machine

/-! ## The blocks of a stream and their fold (R140, R146, R147) -/

/-- Byte `16·i + j` of a stream is byte `j` of its block `i`, full or not (R147). -/
theorem getElem?_eq_byteAt_streamBlock {stream : List Byte} {i j : Nat} (hj : j < 16) (h : 16 * i + j < stream.length) :
    stream[16 * i + j]? = some (byteAt (streamBlock stream i) j) := by
  have hdrop : j < (stream.drop (16 * i)).length := by rw [List.length_drop]; omega
  rw [streamBlock, byteAt_blockFrom _ j hj hdrop, List.getElem_drop, List.getElem?_eq_getElem h]

/-- One or two terminal blocks are compressed in order (R146). -/
theorem compressPadded_eq_foldl (S : SboxTable) (h : Block) (B : Block × Option Block) :
    compressPadded S h B = (B.1 :: B.2.toList).foldl (compress S) h := by
  obtain ⟨B, _ | B'⟩ := B <;> rfl

/-- HASH is the fold of COMPRESS from `0^16` over the padded stream (R140, R147). -/
theorem hashStream_eq_foldl_paddedBlocks (S : SboxTable) (stream : List Byte) :
    hashStream S stream = (paddedBlocks stream).foldl (compress S) 0 := by
  rw [hashStream, compressPadded_eq_foldl, paddedBlocks, List.foldl_append, List.foldl_map]

/-- The lengths of the full blocks and of the rest add up to the stream's, modulo 2^64 (R28, R147). -/
theorem len_fullBlocks_add_tail (n : Nat) :
    BitVec.ofNat 64 (16 * (n / 16)) + BitVec.ofNat 64 (Fin.ofNat 16 n).val = BitVec.ofNat 64 n := by
  rw [← BitVec.ofNat_add, Fin.val_ofNat, Nat.div_add_mod]

/-! ## The commands (R144 to R146) -/

theorem exec_hinit (s : State) : exec .hinit s = .next (finish 0 { s with chain := 0, len := 0 }) := rfl

theorem exec_cinit (s : State) : exec .cinit s = .next (finish 0 { s with chain := 0, len := 0 }) := rfl

theorem exec_hblk (s : State) :
    exec .hblk s = .next (finish 0 { s with chain := compress s.sbox s.chain s.din, len := s.len + 16 }) := rfl

theorem exec_hfin {nb : Fin 16} {s : State} {L : BitVec 64} (hL : s.len + BitVec.ofNat 64 nb.val = L) :
    exec (.hfin nb) s = .next (finish 1
      { s with len := L, chain := compressPadded s.sbox s.chain (pad s.din nb L),
               out0 := compressPadded s.sbox s.chain (pad s.din nb L) }) := by
  subst hL
  rfl

/-- Settles O13: both commands set CHAIN and LEN and finish without output. -/
theorem streamInitResult : Obligations.StreamInitResult := fun s => ⟨exec_hinit s, exec_cinit s⟩

/-- Settles O14: HBLK is `compress` of DIN, which names neither KEY nor KSIZE. -/
theorem hblkResult : Obligations.HblkResult := exec_hblk

/-! ## The sequence that hashes a stream (R147) -/

/-- A line whose command puts out no block adds nothing to the output (R39). -/
theorem runFeeds_cons_noOutput {D : Option Block} {i : Instr} {s t : State} (fs : List Feed)
    (h : exec i { s with din := D.getD s.din } = .next t) (hnout : t.nout = 0) :
    runFeeds ((D, i) :: fs) s = runFeeds fs t := by
  have hnone : outBlocks t = [] := by simp [outBlocks, hnout]
  simp [runFeeds_cons D i fs s t h, hnone]

/-- HBLK for each block of a list folds COMPRESS over it into CHAIN and counts its bytes in LEN (R145, R147). -/
theorem runFeeds_hblks (blocks : List Block) (fs : List Feed) (s : State) :
    ∃ t, runFeeds (blocks.map (fun B => (some B, .hblk)) ++ fs) s = runFeeds fs t ∧ t.sbox = s.sbox ∧
      t.chain = blocks.foldl (compress s.sbox) s.chain ∧ t.len = s.len + BitVec.ofNat 64 (16 * blocks.length) := by
  induction blocks generalizing s with
  | nil => exact ⟨s, rfl, rfl, rfl, by simp⟩
  | cons B blocks ih =>
    obtain ⟨t, hrun, hsbox, hchain, hlen⟩ :=
      ih (finish 0 { s with din := B, chain := compress s.sbox s.chain B, len := s.len + 16 })
    refine ⟨t, ?_, hsbox, hchain, ?_⟩
    · rw [List.map_cons, List.cons_append, runFeeds_cons_noOutput _ (exec_hblk _) rfl]
      exact hrun
    · rw [hlen, List.length_cons, Nat.mul_succ, Nat.add_comm _ 16, BitVec.ofNat_add, ← BitVec.add_assoc]
      rfl

/-- The lines that hash a stream leave its digest in OUT0 and CHAIN, and its length in LEN (R147). -/
theorem runFeeds_hashFeeds (stream : List Byte) (s : State) :
    ∃ t, runFeeds (hashFeeds stream) s = some ([t.out0], t) ∧ t.out0 = hashStream s.sbox stream ∧
      t.chain = t.out0 ∧ t.len = BitVec.ofNat 64 stream.length := by
  obtain ⟨t, hrun, hsbox, hchain, hlen⟩ :=
    runFeeds_hblks ((List.range (stream.length / 16)).map (streamBlock stream))
      [(some (blockFrom (streamTail stream)), .hfin (Fin.ofNat 16 stream.length))]
      (finish 0 { s with chain := 0, len := 0 })
  have hL : t.len + BitVec.ofNat 64 (Fin.ofNat 16 stream.length).val = BitVec.ofNat 64 stream.length := by
    simpa [hlen] using len_fullBlocks_add_tail stream.length
  have hdigest : compressPadded t.sbox t.chain (padStream stream) = hashStream s.sbox stream := by
    rw [hsbox, hchain, List.foldl_map]
    rfl
  have hlast := runFeeds_cons (some (blockFrom (streamTail stream))) _ [] t _ (exec_hfin hL)
  refine ⟨_, Eq.trans ?_ hlast, hdigest, rfl, rfl⟩
  rw [List.map_map] at hrun
  rw [hashFeeds, List.cons_append, runFeeds_cons_noOutput _ (exec_hinit _) rfl]
  exact hrun

/-- Settles O15: HFIN on each shape of PAD, the run of R147's lines, and what HASH and the blocks of a stream are. -/
theorem hfinResult : Obligations.HfinResult := by
  refine ⟨fun s nb L hL => ⟨fun B hpad => ?oneBlock, fun B B' hpad => ?twoBlocks⟩,
    fun s stream => runFeeds_hashFeeds stream s, hashStream_eq_foldl_paddedBlocks, fun stream i j hj h => ?bytes⟩
  case oneBlock | twoBlocks =>
    rw [exec_hfin hL.symm, hpad]
    rfl
  case bytes =>
    refine ⟨getElem?_eq_byteAt_streamBlock hj h, fun hi => ?_⟩
    rw [hi, streamBlock, streamTail]

end Sys2Proof.Machine
end

section
/-! The codec commands (R162 to R166): the tail classification, and the whole next state of each command. -/

namespace Sys2Proof.Machine

/-! ## The tail classification (R166) -/

/-- The data ends in the final block, and the previous block, if there is one, is all data (R166). -/
theorem tail_inFinalBlock {L base : BitVec 64} (h : base.toNat ≤ L.toNat ∧ L.toNat - base.toNat ≤ 8) :
    tail L base = some (if 16 ≤ base.toNat then 16 else 0, BitVec.ofNat 4 (L.toNat - base.toNat)) := if_pos h

/-- The data ends in the previous block, 9 to 15 bytes into it (R166). -/
theorem tail_inPreviousBlock {L base : BitVec 64} (hlt : L.toNat < base.toNat) (hbase : 16 ≤ base.toNat)
    (hlow : 9 ≤ L.toNat + 16 - base.toNat) (hhigh : L.toNat + 16 - base.toNat ≤ 15) :
    tail L base = some (BitVec.ofNat 5 (L.toNat + 16 - base.toNat), 0) := by
  rw [tail, if_neg (by omega), if_pos ⟨hlt, hbase, hlow, hhigh⟩]

/-- A trailer of neither shape is E_TRAILER (R166). -/
theorem tail_inconsistent {L base : BitVec 64} (hfinal : ¬ (base.toNat ≤ L.toNat ∧ L.toNat - base.toNat ≤ 8))
    (hprevious : ¬ (L.toNat < base.toNat ∧ 16 ≤ base.toNat ∧ 9 ≤ L.toNat + 16 - base.toNat ∧
      L.toNat + 16 - base.toNat ≤ 15)) :
    tail L base = none := by
  rw [tail, if_neg hfinal, if_neg hprevious]

/-- Settles O31: the three cases of R166, where the integer differences are the model's natural ones. -/
theorem tailMatchesRule : Obligations.TailMatchesRule := by
  intro L base l b hl hb
  refine ⟨fun hfinal => ?final, fun hprevious => ?previous, fun hfinal hprevious => ?neither⟩
  case final =>
    refine ⟨_, _, tail_inFinalBlock (by omega), ?_, ?_⟩
    · rw [BitVec.toNat_ofNat, Nat.mod_eq_of_lt (by omega)]
      omega
    · by_cases hbase : 16 ≤ base.toNat
      · rw [if_pos hbase, if_pos (by omega)]
        rfl
      · rw [if_neg hbase, if_neg (by omega)]
        rfl
  case previous =>
    refine ⟨_, _, tail_inPreviousBlock (by omega) (by omega) (by omega) (by omega), ?_, rfl⟩
    rw [BitVec.toNat_ofNat, Nat.mod_eq_of_lt (by omega)]
    omega
  case neither => exact tail_inconsistent (by omega) (by omega)

/-! ## The commands (R162 to R165) -/

section Commands
variable {s : State} {ks : KeySize} (hks : selectKey s.ksize = some ks)
include hks

/-- CENCF when the padding fills one block: OUT1 is not written (R163). -/
theorem exec_cencf_oneBlock {nb : Fin 16} {L : BitVec 64} {B : Block} (hL : s.len + BitVec.ofNat 64 nb.val = L)
    (hpad : pad s.din nb L = (B, none)) :
    exec (.cencf nb) s = .next (finish 1
      { s with out0 := chainEncrypt s.sbox ks s.key s.chain B, chain := B, len := L }) := by
  refine (withKeySize_some s _ ks hks).trans ?_
  simp only [hL, hpad]

/-- CENCF when the padding fills two blocks (R163). -/
theorem exec_cencf_twoBlocks {nb : Fin 16} {L : BitVec 64} {B B' : Block} (hL : s.len + BitVec.ofNat 64 nb.val = L)
    (hpad : pad s.din nb L = (B, some B')) :
    exec (.cencf nb) s = .next (finish 2
      { s with out0 := chainEncrypt s.sbox ks s.key s.chain B, out1 := chainEncrypt s.sbox ks s.key B B',
               chain := B', len := L }) := by
  refine (withKeySize_some s _ ks hks).trans ?_
  simp only [hL, hpad]

/-- CDECF of a block whose trailer fits (R165). -/
theorem exec_cdecf_fits {P : Block} {kp : BitVec 5} {kl : BitVec 4}
    (hP : chainDecrypt s.sbox ks s.key s.chain s.din = P) (htail : tail (trailerLen P) s.len = some (kp, kl)) :
    exec .cdecf s = .next (finish 1
      { s with out0 := P, chain := P, tlen := trailerLen P, keepp := kp, keepl := kl, len := s.len + 16 }) := by
  refine (withKeySize_some s _ ks hks).trans ?_
  simp only [hP, htail]

/-- CDECF of a block whose trailer fits no shape of PAD (R165, R233). -/
theorem exec_cdecf_trailerError {P : Block} (hP : chainDecrypt s.sbox ks s.key s.chain s.din = P)
    (htail : tail (trailerLen P) s.len = none) : exec .cdecf s = .next (raise .trailer s) := by
  refine (withKeySize_some s _ ks hks).trans ?_
  simp only [hP, htail]

end Commands

/-- Settles O16: CENC runs `chainEncrypt` once the key size is legal. -/
theorem cencResult : Obligations.CencResult := fun _ _ hks => exec_cenc hks

/-- Settles O17: the two shapes of PAD. -/
theorem cencfResult : Obligations.CencfResult := fun _ _ _ _ hks hL =>
  ⟨fun _ hpad => exec_cencf_oneBlock hks hL.symm hpad, fun _ _ hpad => exec_cencf_twoBlocks hks hL.symm hpad⟩

/-- Settles O18: CDEC runs `chainDecrypt` once the key size is legal. -/
theorem cdecResult : Obligations.CdecResult := fun _ _ hks => exec_cdec hks

/-- Settles O19: CDECF when TAIL answers. -/
theorem cdecfResult : Obligations.CdecfResult := fun _ _ _ _ _ hks hP htail => exec_cdecf_fits hks hP.symm htail

/-- Settles O20: CDECF when TAIL does not answer, and what a command error leaves. -/
theorem cdecfTrailerError : Obligations.CdecfTrailerError := by
  intro s ks hks htail
  rw [exec_cdecf_trailerError hks rfl htail, raise_eq_erred]
  rfl

end Sys2Proof.Machine
end

section
/-! Whole codec streams (R160, R168, R169): what is decoded of an encoded stream, and the sequences of commands that
encode and decode. -/

namespace Sys2Proof.Machine

/-! ## Encoding and decoding block by block (R160) -/

/-- The ciphertext blocks of plaintext blocks after the plaintext block `prev`: `encodeStream` from any block
on (R160). -/
def encodeBlocks (S : SboxTable) (ks : KeySize) (key : KeyReg) (prev : Block) (ps : List Block) : List Block :=
  List.zipWith (chainEncrypt S ks key) (prev :: ps) ps

section Blocks
variable (S : SboxTable) (ks : KeySize) (key : KeyReg) (prev : Block)

theorem encodeStream_eq_encodeBlocks (stream : List Byte) :
    encodeStream S ks key stream = encodeBlocks S ks key 0 (paddedBlocks stream) := rfl

theorem encodeBlocks_cons (p : Block) (ps : List Block) :
    encodeBlocks S ks key prev (p :: ps) = chainEncrypt S ks key prev p :: encodeBlocks S ks key p ps := rfl

@[simp] theorem length_encodeBlocks (ps : List Block) : (encodeBlocks S ks key prev ps).length = ps.length := by
  simp [encodeBlocks]

theorem decodeBlocks_cons (c : Block) (cs : List Block) :
    decodeBlocks S ks key prev (c :: cs) =
      chainDecrypt S ks key prev c :: decodeBlocks S ks key (chainDecrypt S ks key prev c) cs := rfl

@[simp] theorem length_decodeBlocks (cs : List Block) : (decodeBlocks S ks key prev cs).length = cs.length := by
  induction cs generalizing prev with
  | nil => rfl
  | cons c cs ih => rw [decodeBlocks_cons, List.length_cons, List.length_cons, ih]

/-- The last block is decoded after the plaintext block before it (R160). -/
theorem decodeBlocks_concat (cs : List Block) (c : Block) :
    decodeBlocks S ks key prev (cs ++ [c]) = decodeBlocks S ks key prev cs ++
      [chainDecrypt S ks key ((decodeBlocks S ks key prev cs).getLastD prev) c] := by
  induction cs generalizing prev with
  | nil => rfl
  | cons c' cs ih =>
    rw [List.cons_append, decodeBlocks_cons, ih, decodeBlocks_cons, List.getLastD_cons, List.cons_append]

/-- Decoding undoes encoding, block by block (R160). -/
@[simp] theorem decodeBlocks_encodeBlocks (ps : List Block) :
    decodeBlocks S ks key prev (encodeBlocks S ks key prev ps) = ps := by
  induction ps generalizing prev with
  | nil => rfl
  | cons p ps ih => rw [encodeBlocks_cons, decodeBlocks_cons, chainDecrypt_chainEncrypt, ih]

end Blocks

/-- What the host of R169 makes of decoded blocks whose last one is `P`. -/
theorem decodeStream_of_decodeBlocks {S : SboxTable} {ks : KeySize} {key : KeyReg} {cipher ps : List Block} {P : Block}
    (h : decodeBlocks S ks key 0 cipher = ps ++ [P]) :
    decodeStream S ks key cipher = (tail (trailerLen P) (BitVec.ofNat 64 (16 * ps.length))).map
      fun (kp, kl) => keptBytes (ps ++ [P]) kp.toNat kl.toNat := by
  rw [decodeStream, h]
  simp only [List.getLast?_concat, List.length_append, List.length_singleton, Nat.add_sub_cancel]

/-! ## The padded blocks of a stream (R142, R160) -/

/-- The full 16-byte blocks of a stream (R147, R160). -/
def fullBlocks (stream : List Byte) : List Block := (List.range (stream.length / 16)).map (streamBlock stream)

@[simp] theorem length_fullBlocks (stream : List Byte) : (fullBlocks stream).length = stream.length / 16 := by
  simp [fullBlocks]

theorem paddedBlocks_eq (stream : List Byte) :
    paddedBlocks stream = fullBlocks stream ++ (padStream stream).1 :: (padStream stream).2.toList := rfl

/-- The rest of a stream with the marker after it (R142). -/
def restBlock (stream : List Byte) : Block := markerBlock (blockFrom (streamTail stream)) (Fin.ofNat 16 stream.length)

section Padding
variable {stream : List Byte}

theorem padStream_oneBlock (hr : stream.length % 16 ≤ 8) :
    padStream stream = (withTrailer (restBlock stream) (BitVec.ofNat 64 stream.length), none) :=
  pad_of_le_eight hr _ _

theorem padStream_twoBlocks (hr : 9 ≤ stream.length % 16) :
    padStream stream = (restBlock stream, some (withTrailer 0 (BitVec.ofNat 64 stream.length))) :=
  pad_of_nine_le hr _ _

/-- A stream takes one or two blocks more than its full ones (R168). -/
theorem length_paddedBlocks (stream : List Byte) :
    (paddedBlocks stream).length = stream.length / 16 + if stream.length % 16 ≤ 8 then 1 else 2 := by
  rw [paddedBlocks_eq, List.length_append, length_fullBlocks]
  by_cases hr : stream.length % 16 ≤ 8
  · rw [padStream_oneBlock hr, if_pos hr]
    rfl
  · rw [padStream_twoBlocks (by omega), if_neg hr]
    rfl

/-! ## The bytes of the blocks (R147) -/

/-- The first bytes of a block that holds those of the stream from byte `16·i` on. -/
theorem take_bytesOf {B : Block} {i n : Nat} (hn : n ≤ 16) (hlen : 16 * i + n ≤ stream.length)
    (hB : ∀ j, j < n → byteAt B j = byteAt (streamBlock stream i) j) :
    (bytesOf B).take n = (stream.drop (16 * i)).take n := by
  apply List.ext_getElem?
  intro j
  by_cases hj : j < n
  · have hbyte := getElem?_eq_byteAt_streamBlock (stream := stream) (i := i) (j := j) (by omega) (by omega)
    rw [List.getElem?_take_of_lt hj, List.getElem?_take_of_lt hj, List.getElem?_drop, hbyte, ← hB j hj]
    simp [bytesOf, show j < 16 by omega]
  · rw [List.getElem?_take_eq_none (by omega), List.getElem?_take_eq_none (by omega)]

@[simp] theorem length_bytesOf (B : Block) : (bytesOf B).length = 16 := by simp [bytesOf]

/-- The blocks below `n` hold the first `16·n` bytes (R147). -/
theorem flatMap_bytesOf_streamBlock {n : Nat} (hn : 16 * n ≤ stream.length) :
    ((List.range n).map (streamBlock stream)).flatMap bytesOf = stream.take (16 * n) := by
  induction n with
  | zero => rfl
  | succ n ih =>
    have hblock : bytesOf (streamBlock stream n) = (stream.drop (16 * n)).take 16 := by
      rw [← take_bytesOf (B := streamBlock stream n) le_rfl (by omega) fun _ _ => rfl,
        List.take_of_length_le (length_bytesOf _).le]
    rw [List.range_succ, List.map_append, List.flatMap_append, ih (by omega), List.map_singleton,
      List.flatMap_singleton, hblock, Nat.mul_succ, List.take_add]

/-- A block that begins with the rest of a stream completes the full blocks (R168, R169). -/
theorem flatMap_fullBlocks_append_rest {B : Block}
    (hB : ∀ j, j < stream.length % 16 → byteAt B j = byteAt (blockFrom (streamTail stream)) j) :
    (fullBlocks stream).flatMap bytesOf ++ (bytesOf B).take (stream.length % 16) = stream := by
  have hrest : (stream.drop (16 * (stream.length / 16))).take (stream.length % 16) =
      stream.drop (16 * (stream.length / 16)) := List.take_of_length_le (by rw [List.length_drop]; omega)
  rw [fullBlocks, flatMap_bytesOf_streamBlock (by omega), take_bytesOf (by omega) (by omega) hB, hrest,
    List.take_append_drop]

theorem byteAt_restBlock {j : Nat} (hj : j < stream.length % 16) :
    byteAt (restBlock stream) j = byteAt (blockFrom (streamTail stream)) j := by
  rw [restBlock, byteAt_markerBlock _ _ (by omega), Fin.val_ofNat, if_pos hj]

/-! ## What the host keeps (R166, R169) -/

theorem keptBytes_concat (ps : List Block) (P : Block) (kp kl : Nat) :
    keptBytes (ps ++ [P]) kp kl =
      ps.dropLast.flatMap bytesOf ++ (ps.getLast?.toList.flatMap bytesOf).take kp ++ (bytesOf P).take kl := by
  simp [keptBytes]

/-- The data ends in the final block: the held block, if there is one, is all data (R166). -/
theorem keptBytes_inFinalBlock (ps : List Block) (P : Block) {kp : Nat} (kl : Nat) (hkp : ps ≠ [] → kp = 16) :
    keptBytes (ps ++ [P]) kp kl = ps.flatMap bytesOf ++ (bytesOf P).take kl := by
  rw [keptBytes_concat]
  rcases ps.eq_nil_or_concat' with rfl | ⟨init, Q, rfl⟩
  · simp
  · obtain rfl := hkp (by simp)
    simp [List.take_of_length_le]

/-- The data ends in the held block (R166). -/
theorem keptBytes_inPreviousBlock (ps : List Block) (Q P : Block) (kp : Nat) :
    keptBytes (ps ++ [Q, P]) kp 0 = ps.flatMap bytesOf ++ (bytesOf Q).take kp := by
  rw [List.append_cons, keptBytes_concat]
  simp

/-! ## The round trip (R169) -/

/-- TAIL of a stream whose rest is in the final block: `16·(n/16)` bytes come before that (R166). -/
theorem tail_oneBlock {n : Nat} (hlen : n < 2 ^ 64) (hr : n % 16 ≤ 8) :
    ∃ kp kl, tail (BitVec.ofNat 64 n) (BitVec.ofNat 64 (16 * (n / 16))) = some (kp, kl) ∧
      (0 < n / 16 → kp.toNat = 16) ∧ kl.toNat = n % 16 := by
  have hL : (BitVec.ofNat 64 n).toNat = n := by rw [BitVec.toNat_ofNat, Nat.mod_eq_of_lt hlen]
  have hbase : (BitVec.ofNat 64 (16 * (n / 16))).toNat = 16 * (n / 16) := by
    rw [BitVec.toNat_ofNat, Nat.mod_eq_of_lt (by omega)]
  obtain ⟨hfinal, -, -⟩ := tailMatchesRule (BitVec.ofNat 64 n) (BitVec.ofNat 64 (16 * (n / 16))) _ _ rfl rfl
  obtain ⟨kp, kl, htail, hkl, hkp⟩ := hfinal (by omega)
  refine ⟨kp, kl, htail, fun hfull => ?_, by omega⟩
  rw [hkp, if_pos (by omega)]

/-- TAIL of a stream whose rest is in the block before the final one, where LEN can count them (R28, R166). -/
theorem tail_twoBlocks {n : Nat} (hcount : n + 8 ≤ 2 ^ 64) (hr : 9 ≤ n % 16) :
    ∃ kp, tail (BitVec.ofNat 64 n) (BitVec.ofNat 64 (16 * (n / 16 + 1))) = some (kp, 0) ∧ kp.toNat = n % 16 := by
  have hL : (BitVec.ofNat 64 n).toNat = n := by rw [BitVec.toNat_ofNat, Nat.mod_eq_of_lt (by omega)]
  have hbase : (BitVec.ofNat 64 (16 * (n / 16 + 1))).toNat = 16 * (n / 16 + 1) := by
    rw [BitVec.toNat_ofNat, Nat.mod_eq_of_lt (by omega)]
  obtain ⟨-, hprevious, -⟩ := tailMatchesRule (BitVec.ofNat 64 n) (BitVec.ofNat 64 (16 * (n / 16 + 1))) _ _ rfl rfl
  obtain ⟨kp, kl, htail, hkp, rfl⟩ := hprevious (by omega)
  exact ⟨kp, htail, by omega⟩

/-- For the seven longest streams LEN has come round to 0 at the final block, and TAIL refuses (R28, R166). -/
theorem tail_uncounted {n : Nat} (hlen : n < 2 ^ 64) (hlong : 2 ^ 64 < n + 8) :
    tail (BitVec.ofNat 64 n) (BitVec.ofNat 64 (16 * (n / 16 + 1))) = none := by
  have hL : (BitVec.ofNat 64 n).toNat = n := by rw [BitVec.toNat_ofNat, Nat.mod_eq_of_lt hlen]
  have hbase : (BitVec.ofNat 64 (16 * (n / 16 + 1))).toNat = 0 := by
    rw [BitVec.toNat_ofNat]
    omega
  exact tail_inconsistent (by omega) (by omega)

section RoundTrip
variable (S : SboxTable) (ks : KeySize) (key : KeyReg) (hlen : stream.length < 2 ^ 64)
include hlen

/-- A rest of up to eight bytes is found in the final block (R166, R169). -/
theorem decodeStream_encodeStream_oneBlock (hr : stream.length % 16 ≤ 8) :
    decodeStream S ks key (encodeStream S ks key stream) = some stream := by
  have hblocks : decodeBlocks S ks key 0 (encodeStream S ks key stream) =
      fullBlocks stream ++ [withTrailer (restBlock stream) (BitVec.ofNat 64 stream.length)] := by
    rw [encodeStream_eq_encodeBlocks, decodeBlocks_encodeBlocks, paddedBlocks_eq, padStream_oneBlock hr]
    rfl
  obtain ⟨kp, kl, htail, hkp, hkl⟩ := tail_oneBlock hlen hr
  have hheld : fullBlocks stream ≠ [] → kp.toNat = 16 := fun hne => hkp <| by
    rw [← length_fullBlocks]
    exact List.length_pos_of_ne_nil hne
  rw [decodeStream_of_decodeBlocks hblocks, trailerLen_withTrailer, length_fullBlocks, htail]
  refine congrArg some ?_
  dsimp only
  rw [keptBytes_inFinalBlock _ _ _ hheld, hkl]
  refine flatMap_fullBlocks_append_rest fun j hj => ?_
  rw [byteAt_withTrailer _ _ (by omega), if_neg (by omega), byteAt_restBlock hj]

/-- A rest of nine bytes or more is found in the block before the final one (R166, R169). -/
theorem decodeStream_encodeStream_twoBlocks (hr : 9 ≤ stream.length % 16) :
    decodeStream S ks key (encodeStream S ks key stream) =
      if stream.length + 8 ≤ 2 ^ 64 then some stream else none := by
  have hblocks : decodeBlocks S ks key 0 (encodeStream S ks key stream) =
      (fullBlocks stream ++ [restBlock stream]) ++ [withTrailer 0 (BitVec.ofNat 64 stream.length)] := by
    rw [encodeStream_eq_encodeBlocks, decodeBlocks_encodeBlocks, paddedBlocks_eq, padStream_twoBlocks hr,
      List.append_assoc]
    rfl
  rw [decodeStream_of_decodeBlocks hblocks, trailerLen_withTrailer, List.length_append, length_fullBlocks,
    List.length_singleton, List.append_assoc]
  by_cases hcount : stream.length + 8 ≤ 2 ^ 64
  · obtain ⟨kp, htail, hkp⟩ := tail_twoBlocks hcount hr
    rw [htail, if_pos hcount]
    refine congrArg some ((keptBytes_inPreviousBlock _ _ _ _).trans ?_)
    rw [hkp]
    exact flatMap_fullBlocks_append_rest fun j hj => byteAt_restBlock hj
  · rw [tail_uncounted hlen (by omega), if_neg hcount, Option.map_none]

/-- Decoding gives an encoded stream back where LEN can count its blocks (R169, R28). -/
theorem decodeStream_encodeStream :
    decodeStream S ks key (encodeStream S ks key stream) =
      if stream.length + 8 ≤ 2 ^ 64 then some stream else none := by
  by_cases hr : stream.length % 16 ≤ 8
  · rw [decodeStream_encodeStream_oneBlock S ks key hlen hr, if_pos (by omega)]
  · exact decodeStream_encodeStream_twoBlocks S ks key hlen (by omega)

end RoundTrip

end Padding

/-! ## The state in mid-stream (R160 to R165) -/

/-- The core is in a codec stream of `n` bytes so far, whose last plaintext block is `prev` (R27, R28, R160). -/
structure InStream (S : SboxTable) (ks : KeySize) (key : KeyReg) (prev : Block) (n : Nat) (s : State) : Prop where
  sbox : s.sbox = S
  ksize : selectKey s.ksize = some ks
  key : s.key = key
  chain : s.chain = prev
  len : s.len = BitVec.ofNat 64 n

/-- CINIT begins a stream (R161). -/
theorem inStream_cinit {s : State} {ks : KeySize} (hks : selectKey s.ksize = some ks) :
    InStream s.sbox ks s.key 0 0 (finish 0 { s with chain := 0, len := 0 }) := ⟨rfl, hks, rfl, rfl, rfl⟩

/-- A line before lines that run: its command's output blocks come first. -/
theorem runFeeds_cons_some {D : Option Block} {i : Instr} {fs : List Feed} {s t u : State} {bs : List Block}
    (h : exec i { s with din := D.getD s.din } = .next t) (hrest : runFeeds fs t = some (bs, u)) :
    runFeeds ((D, i) :: fs) s = some (outBlocks t ++ bs, u) := by
  rw [runFeeds_cons D i fs s t h, hrest]
  rfl

section InStream
variable {S : SboxTable} {ks : KeySize} {key : KeyReg} {prev : Block} {n : Nat} {s : State}

/-- CENC puts out one block and takes the stream 16 bytes on (R162). -/
theorem InStream.cenc (h : InStream S ks key prev n s) (p : Block) :
    ∃ t, exec .cenc { s with din := p } = .next t ∧ outBlocks t = [chainEncrypt S ks key prev p] ∧
      InStream S ks key p (n + 16) t := by
  obtain ⟨rfl, hks, rfl, rfl, hlen⟩ := h
  refine ⟨_, exec_cenc hks, rfl, rfl, hks, rfl, rfl, ?_⟩
  rw [finish_len, hlen, BitVec.ofNat_add]
  rfl

/-- CDEC puts out one block and takes the stream 16 bytes on (R164). -/
theorem InStream.cdec (h : InStream S ks key prev n s) (c : Block) :
    ∃ t, exec .cdec { s with din := c } = .next t ∧ outBlocks t = [chainDecrypt S ks key prev c] ∧
      InStream S ks key (chainDecrypt S ks key prev c) (n + 16) t := by
  obtain ⟨rfl, hks, rfl, rfl, hlen⟩ := h
  refine ⟨_, exec_cdec hks, rfl, rfl, hks, rfl, rfl, ?_⟩
  rw [finish_len, hlen, BitVec.ofNat_add]
  rfl

/-! ## The sequence that encodes (R168) -/

/-- CENCF puts out the encoded terminal blocks (R163). -/
theorem InStream.cencf (h : InStream S ks key prev n s) (D : Block) (nb : Fin 16) :
    ∃ t, exec (.cencf nb) { s with din := D } = .next t ∧
      outBlocks t = encodeBlocks S ks key prev
        ((pad D nb (BitVec.ofNat 64 (n + nb.val))).1 :: (pad D nb (BitVec.ofNat 64 (n + nb.val))).2.toList) := by
  obtain ⟨rfl, hks, rfl, rfl, hlen⟩ := h
  have hL : s.len + BitVec.ofNat 64 nb.val = BitVec.ofNat 64 (n + nb.val) := by rw [hlen, BitVec.ofNat_add]
  rcases hpad : pad D nb (BitVec.ofNat 64 (n + nb.val)) with ⟨B, _ | B'⟩
  · exact ⟨_, exec_cencf_oneBlock (s := { s with din := D }) hks hL hpad, rfl⟩
  · exact ⟨_, exec_cencf_twoBlocks (s := { s with din := D }) hks hL hpad, rfl⟩

/-- CENC for each block of a list and CENCF put out the blocks and the terminal blocks, encoded in order (R168). -/
theorem InStream.runFeeds_cencs_cencf (h : InStream S ks key prev n s) (ps : List Block) (D : Block) (nb : Fin 16)
    {B : Block × Option Block} (hB : pad D nb (BitVec.ofNat 64 (n + 16 * ps.length + nb.val)) = B) :
    ∃ t, runFeeds (ps.map (fun p => (some p, .cenc)) ++ [(some D, .cencf nb)]) s =
      some (encodeBlocks S ks key prev (ps ++ B.1 :: B.2.toList), t) := by
  induction ps generalizing prev n s with
  | nil =>
    subst hB
    obtain ⟨t, hexec, hout⟩ := h.cencf D nb
    refine ⟨t, ?_⟩
    rw [List.map_nil, List.nil_append, runFeeds_cons_some hexec rfl, hout, List.append_nil]
    rfl
  | cons p ps ih =>
    obtain ⟨t, hexec, hout, ht⟩ := h.cenc p
    have hcount : n + 16 + 16 * ps.length + nb.val = n + 16 * (p :: ps).length + nb.val := by
      rw [List.length_cons]
      omega
    obtain ⟨u, hrun⟩ := ih ht (by rw [hcount, hB])
    refine ⟨u, ?_⟩
    rw [List.map_cons, List.cons_append, runFeeds_cons_some hexec hrun, hout]
    rfl

/-! ## The sequence that decodes (R169) -/

/-- CDEC for each block of a list puts out the blocks decoded in order (R164, R169). -/
theorem InStream.runFeeds_cdecs (h : InStream S ks key prev n s) (cs : List Block) :
    ∃ t, InStream S ks key ((decodeBlocks S ks key prev cs).getLastD prev) (n + 16 * cs.length) t ∧
      ∀ {fs bs u}, runFeeds fs t = some (bs, u) →
        runFeeds (cs.map (fun c => (some c, .cdec)) ++ fs) s = some (decodeBlocks S ks key prev cs ++ bs, u) := by
  induction cs generalizing prev n s with
  | nil => exact ⟨s, h, fun hrest => hrest⟩
  | cons c cs ih =>
    obtain ⟨t, hexec, hout, ht⟩ := h.cdec c
    obtain ⟨u, hu, hrun⟩ := ih ht
    have hcount : n + 16 + 16 * cs.length = n + 16 * (c :: cs).length := by
      rw [List.length_cons]
      omega
    rw [hcount] at hu
    refine ⟨u, ?_, fun hrest => ?_⟩
    · rwa [decodeBlocks_cons, List.getLastD_cons]
    · rw [List.map_cons, List.cons_append, runFeeds_cons_some hexec (hrun hrest), hout]
      rfl

/-- CDECF of a block whose trailer fits (R165). -/
theorem InStream.cdecf_fits (h : InStream S ks key prev n s) (c : Block) {kp : BitVec 5} {kl : BitVec 4}
    (htail : tail (trailerLen (chainDecrypt S ks key prev c)) (BitVec.ofNat 64 n) = some (kp, kl)) :
    ∃ t, exec .cdecf { s with din := c } = .next t ∧ outBlocks t = [chainDecrypt S ks key prev c] ∧
      t.nout = 1 ∧ t.keepp = kp ∧ t.keepl = kl := by
  obtain ⟨rfl, hks, rfl, rfl, hlen⟩ := h
  rw [← hlen] at htail
  exact ⟨_, exec_cdecf_fits (s := { s with din := c }) hks rfl htail, rfl, rfl, rfl, rfl⟩

/-- CDECF of a block whose trailer fits no shape of PAD puts out nothing (R165). -/
theorem InStream.cdecf_trailerError (h : InStream S ks key prev n s) (c : Block)
    (htail : tail (trailerLen (chainDecrypt S ks key prev c)) (BitVec.ofNat 64 n) = none) :
    ∃ t, exec .cdecf { s with din := c } = .next t ∧ t.nout = 0 := by
  obtain ⟨rfl, hks, rfl, rfl, hlen⟩ := h
  rw [← hlen] at htail
  exact ⟨_, exec_cdecf_trailerError (s := { s with din := c }) hks rfl htail, raise_nout _ _⟩

end InStream

/-- The lines of R168 put out the encoded stream. -/
theorem runFeeds_encodeFeeds (stream : List Byte) {s : State} {ks : KeySize} (hks : selectKey s.ksize = some ks) :
    ∃ t, runFeeds (encodeFeeds stream) s = some (encodeStream s.sbox ks s.key stream, t) := by
  have hpad : pad (blockFrom (streamTail stream)) (Fin.ofNat 16 stream.length)
      (BitVec.ofNat 64 (0 + 16 * (fullBlocks stream).length + (Fin.ofNat 16 stream.length).val)) =
        padStream stream := by
    rw [Nat.zero_add, length_fullBlocks, Fin.val_ofNat, Nat.div_add_mod]
    rfl
  obtain ⟨t, hrun⟩ := (inStream_cinit hks).runFeeds_cencs_cencf (fullBlocks stream) _ _ hpad
  rw [fullBlocks, List.map_map] at hrun
  refine ⟨t, ?_⟩
  rw [encodeFeeds, List.cons_append, runFeeds_cons_noOutput _ (exec_cinit _) rfl]
  exact hrun

/-- The lines of R169 put out the decoded blocks, of which KEEP makes the stream, or end without output. -/
theorem runFeeds_decodeFeeds (cs : List Block) (c : Block) {s : State} {ks : KeySize}
    (hks : selectKey s.ksize = some ks) :
    ∃ ps t, runFeeds (decodeFeeds (cs ++ [c])) s = some (ps, t) ∧
      decodeStream s.sbox ks s.key (cs ++ [c]) =
        if t.nout = 0 then none else some (keptBytes ps t.keepp.toNat t.keepl.toNat) := by
  have hfeeds {ps : List Block} {t : State}
      (h : runFeeds (cs.map (fun c => (some c, .cdec)) ++ [(some c, .cdecf)])
        (finish 0 { s with chain := 0, len := 0 }) = some (ps, t)) :
      runFeeds (decodeFeeds (cs ++ [c])) s = some (ps, t) := by
    rw [decodeFeeds, List.cons_append, runFeeds_cons_noOutput _ (exec_cinit _) rfl]
    simpa using h
  obtain ⟨t, ht, hrun⟩ := (inStream_cinit hks).runFeeds_cdecs cs
  rw [Nat.zero_add] at ht
  have hstream := decodeStream_of_decodeBlocks (decodeBlocks_concat s.sbox ks s.key 0 cs c)
  rw [length_decodeBlocks] at hstream
  rcases htail : tail (trailerLen (chainDecrypt s.sbox ks s.key
      ((decodeBlocks s.sbox ks s.key 0 cs).getLastD 0) c)) (BitVec.ofNat 64 (16 * cs.length)) with _ | ⟨kp, kl⟩
  · obtain ⟨u, hexec, hnout⟩ := ht.cdecf_trailerError c htail
    refine ⟨_, u, hfeeds (hrun (runFeeds_cons_some hexec rfl)), ?_⟩
    rw [hstream, htail, if_pos hnout, Option.map_none]
  · obtain ⟨u, hexec, hout, hnout, rfl, rfl⟩ := ht.cdecf_fits c htail
    refine ⟨_, u, hfeeds (hrun (runFeeds_cons_some hexec rfl)), ?_⟩
    rw [hstream, htail, if_neg (by rw [hnout]; decide), hout, Option.map_some, List.append_nil]

/-- Settles O35: the round trip of the functions, and the runs of the two sequences. -/
theorem codecRoundTrip : Obligations.CodecRoundTrip := by
  refine ⟨fun S ks key stream hlen => decodeStream_encodeStream S ks key hlen,
    fun s ks hks => ⟨fun stream => ⟨runFeeds_encodeFeeds stream hks, ?count⟩, fun cipher hne => ?decode⟩⟩
  case count => rw [encodeStream_eq_encodeBlocks, length_encodeBlocks, length_paddedBlocks]
  case decode =>
    obtain ⟨cs, c, rfl⟩ := cipher.eq_nil_or_concat'.resolve_left hne
    exact runFeeds_decodeFeeds cs c hks

end Sys2Proof.Machine
end

section
/-! The commands of the modular unit (R190 to R198): the whole next state of each, and what WritesZ says of it. -/

namespace Sys2Proof.Machine

open Host Sys2Proof.Safety

/-! ## The functions (R12, R195) -/

/-- `uint_be` as a sum of digits, byte 0 at the highest power (R12). -/
theorem uintBe_eq_sum (b : Nat → Byte) (n : Nat) :
    uintBe b n = ∑ i ∈ Finset.range n, (b i).toNat * 256 ^ (n - 1 - i) := by
  induction n with
  | zero => rfl
  | succ n ih =>
    have hshift : ∀ i ∈ Finset.range n,
        (b i).toNat * 256 ^ (n + 1 - 1 - i) = (b i).toNat * 256 ^ (n - 1 - i) * 256 := by
      intro i hi
      have hexp : n + 1 - 1 - i = n - 1 - i + 1 := by have := Finset.mem_range.mp hi; omega
      rw [hexp, pow_succ, mul_assoc]
    rw [uintBe, ih, Finset.sum_range_succ, Finset.sum_congr rfl hshift, ← Finset.sum_mul]
    simp

/-- The 128 bits of OUT0 are an integer of MODW bits (R8, R196). -/
theorem uintBe_out0_lt_modw (s : State) : uintBe (byteAt s.out0) 16 < 2 ^ s.modw :=
  calc uintBe (byteAt s.out0) 16 < 256 ^ 16 := uintBe_lt (byteAt s.out0) 16
    _ = 2 ^ 128 := by norm_num
    _ ≤ 2 ^ s.modw := pow_le_pow_right₀ one_le_two (modw_bounds s).1

/-! ## The commands (R191 to R198) -/

section Commands
variable {s : State} {zd za zb zm : ZReg}

/-- A modulus of 0 is refused before any computation (R191). -/
theorem withModulus_zero (f : Nat → State) (hm : zval s zm = 0) : withModulus s zm f = .next (raise .zeroMod s) :=
  congrArg Outcome.next (if_pos hm)

theorem withModulus_nonzero (f : Nat → State) (hm : zval s zm ≠ 0) : withModulus s zm f = .next (f (zval s zm)) :=
  congrArg Outcome.next (if_neg hm)

/-- MEXP is the check of its modulus and then the power (R191, R192). -/
theorem exec_mexp_eq_withModulus : exec (.mexp zd za zb zm) s =
    withModulus s zm fun m => finish 0 (setZ s zd (powMod (zval s za) (zval s zb) m)) := rfl

/-- MMUL is the check of its modulus and then the product (R191, R194). -/
theorem exec_mmul_eq_withModulus : exec (.mmul zd za zb zm) s =
    withModulus s zm fun m => finish 0 (setZ s zd (mulMod (zval s za) (zval s zb) m)) := rfl

/-- MSUB is the check of its modulus and then the difference (R191, R195). -/
theorem exec_msub_eq_withModulus : exec (.msub zd za zb zm) s =
    withModulus s zm fun m => finish 0 (setZ s zd (subMod (zval s za) (zval s zb) m)) := rfl

/-- MRED is the check of its modulus and then the remainder (R191, R197). -/
theorem exec_mred_eq_withModulus : exec (.mred zd za zm) s =
    withModulus s zm fun m => finish 0 (setZ s zd (zval s za % m)) := rfl

/-- ZLDB needs no modulus (R196). -/
theorem exec_zldb : exec (.zldb zd) s = .next (finish 0 (setZ s zd (uintBe (byteAt s.out0) 16))) := rfl

/-- Equal integers are equal registers (R22). -/
theorem zval_beq_zval : (zval s za == zval s zb) = decide (s.z[za] = s.z[zb]) := by
  simp [zval, beq_eq_decide, BitVec.toNat_inj]

/-- ZCMP compares the registers themselves (R198). -/
theorem exec_zcmp : exec (.zcmp za zb) s = .next (finish 0 { s with eq := decide (s.z[za] = s.z[zb]) }) := by
  rw [← zval_beq_zval]
  rfl

end Commands

/-! ## What they write (R190, R203) -/

section Writes
variable {s : State} {zd zm : ZReg} {v : Nat}

/-- A value reduced by a modulus register fits the container of a Z register (R190). -/
theorem lt_container_of_lt_zval (h : v < zval s zm) : v < 2 ^ 2048 := Nat.lt_trans h s.z[zm].isLt

/-- So does a value of MODW bits (R8, R22). -/
theorem lt_container_of_lt_modw (h : v < 2 ^ s.modw) : v < 2 ^ 2048 :=
  h.trans_le (pow_le_pow_right₀ one_le_two (modw_bounds s).2)

theorem mod_zval_lt (n : Nat) (hm : zval s zm ≠ 0) : n % zval s zm < zval s zm := Nat.mod_lt n (Nat.pos_of_ne_zero hm)

/-- A completion that put a fitting value into one Z register is one of which WritesZ speaks. -/
theorem writesZ_setZ {P : Nat → Prop} {o : Outcome State Fault Refusal} (ho : o = .next (finish 0 (setZ s zd v)))
    (hv : v < 2 ^ 2048) (hP : P v) : WritesZ s zd P o := by
  refine ⟨_, ho, ?_, fun r hr => ?_, rfl⟩
  · rwa [zval_finish, zval_setZ_self s zd v hv]
  · rw [finish_z, getElem_setZ, if_neg hr]

end Writes

/-- Settles O21: the loop's value is the exact power, reduced. -/
theorem mexpResult : Obligations.MexpResult := fun s zd za zb zm hm => by
  rw [exec_mexp_eq_withModulus, withModulus_nonzero _ hm, powMod_eq]
  exact writesZ_setZ rfl (lt_container_of_lt_zval (mod_zval_lt _ hm)) rfl

/-- Settles O22: the product is reduced after it is formed. -/
theorem mmulResult : Obligations.MmulResult := fun s zd za zb zm hm => by
  rw [exec_mmul_eq_withModulus, withModulus_nonzero _ hm]
  exact writesZ_setZ rfl (lt_container_of_lt_zval (mod_zval_lt _ hm)) rfl

/-- Settles O23: the function's value is the integer remainder, which is not negative and below the modulus. -/
theorem msubResult : Obligations.MsubResult := fun s zd za zb zm hm => by
  have hpos := Nat.pos_of_ne_zero hm
  rw [exec_msub_eq_withModulus, withModulus_nonzero _ hm]
  exact writesZ_setZ rfl (lt_container_of_lt_zval (subMod_lt _ _ _ hpos)) (subMod_eq _ _ _ hpos)

/-- Settles O24: the remainder is below the modulus, and so it fits. -/
theorem mredResult : Obligations.MredResult := fun s zd za zm hm => by
  rw [exec_mred_eq_withModulus, withModulus_nonzero _ hm]
  exact writesZ_setZ rfl (lt_container_of_lt_zval (mod_zval_lt _ hm)) rfl

/-- Settles O25: the 128 bits of OUT0 fit every MODW. -/
theorem zldbResult : Obligations.ZldbResult := fun s _ =>
  writesZ_setZ exec_zldb (lt_container_of_lt_modw (uintBe_out0_lt_modw s)) (uintBe_eq_sum (byteAt s.out0) 16)

/-- Settles O26: the comparison of integers is that of registers. -/
theorem zcmpResult : Obligations.ZcmpResult := fun _ _ _ => exec_zcmp

/-- Settles O28: each of the four commands begins with the check of its modulus. -/
theorem zeroModulusRaises : Obligations.ZeroModulusRaises := by
  intro s i zm hi hzero
  have hcheck (f : Nat → State) : withModulus s zm f = .next (erred s 4) := by
    rw [withModulus_zero f hzero, raise_eq_erred]
    rfl
  cases i with
  | mexp zd za zb zm' | mmul zd za zb zm' | msub zd za zb zm' | mred zd za zm' =>
    obtain rfl := Option.some.inj hi
    simp only [exec_mexp_eq_withModulus, exec_mmul_eq_withModulus, exec_msub_eq_withModulus, exec_mred_eq_withModulus,
      hcheck]
  | nop | enc | dec | hinit | hblk | hfin nb | cinit | cenc | cencf nb | cdec | cdecf | zldb zd | zcmp za zb => cases hi

end Sys2Proof.Machine
end

section
/-! The signature scheme (R199, R200): what its functions compute, and what its sequences of commands leave. -/

namespace Sys2Proof.Machine

open Host Sys2Proof.Safety

/-! ## The functions -/

/-- A difference of remainders leaves the remainder of the difference (R195, R199). -/
theorem subMod_mod_mod (a b : Nat) {q : Nat} (hq : 0 < q) :
    (subMod (a % q) (b % q) q : Int) = ((a : Int) - (b : Int)) % (q : Int) := by
  rw [subMod_eq _ _ _ hq, Int.natCast_mod, Int.natCast_mod, ← Int.sub_emod]

@[simp] theorem sign_y (d : Domain) (x k h : Nat) : (sign d x k h).y = d.g ^ x % d.p := powMod_eq _ _ _

@[simp] theorem sign_r (d : Domain) (x k h : Nat) : (sign d x k h).r = d.g ^ k % d.p := powMod_eq _ _ _

/-- The value `s` of a signature is `h·k - rho·x` as an integer, reduced (R199). -/
theorem sign_s_eq {d : Domain} (hq : 0 < d.q) (x k h : Nat) :
    ((sign d x k h).s : Int) = ((h : Int) * k - ((d.g ^ k % d.p % d.q : Nat) : Int) * x) % (d.q : Int) := by
  rw [sign, mulMod, mulMod, subMod_mod_mod _ _ hq, powMod_eq, Nat.cast_mul, Nat.cast_mul]

/-- Verify is the equation of R200. -/
theorem verify_iff (d : Domain) (y r s h : Nat) :
    verify d y r s h = true ↔ r ^ h % d.p = (d.g ^ s % d.p) * (y ^ (r % d.q) % d.p) % d.p := by
  rw [verify, beq_iff_eq, powMod_eq, powMod_eq, powMod_eq, mulMod]

/-- Powers of an element whose order divides `q` depend on the exponent modulo `q` alone. -/
theorem pow_modEq_pow_of_modEq {g p q a b : Nat} (hg : g ^ q % p = 1) (hab : a ≡ b [MOD q]) :
    g ^ a ≡ g ^ b [MOD p] := by
  have hone : g ^ q ≡ 1 [MOD p] := by
    have hmod := Nat.mod_mod (g ^ q) p
    rw [hg] at hmod
    exact hg.trans hmod.symm
  have hreduce (n : Nat) : g ^ n ≡ g ^ (n % q) [MOD p] := by
    calc g ^ n = (g ^ q) ^ (n / q) * g ^ (n % q) := by rw [← pow_mul, ← pow_add, Nat.div_add_mod]
      _ ≡ 1 ^ (n / q) * g ^ (n % q) [MOD p] := (hone.pow _).mul_right _
      _ = g ^ (n % q) := by rw [one_pow, one_mul]
  have hexp : a % q = b % q := hab
  exact (hreduce a).trans (hexp ▸ (hreduce b).symm)

/-- Modulo `q` the exponents of the two factors in R200 add up to the exponent `h·k` of the other side. -/
theorem sign_exponents_modEq {d : Domain} (hq : 0 < d.q) (x k h : Nat) :
    k * h ≡ (sign d x k h).s + x * ((sign d x k h).r % d.q) [MOD d.q] := by
  have hs : ((sign d x k h).s : Int) ≡ (h : Int) * k - ((d.g ^ k % d.p % d.q : Nat) : Int) * x [ZMOD d.q] := by
    rw [sign_s_eq hq]
    exact Int.mod_modEq _ _
  rw [sign_r, ← Int.natCast_modEq_iff, Nat.cast_mul, Nat.cast_add, Nat.cast_mul]
  have hsum := (hs.add_right (x * ((d.g ^ k % d.p % d.q : Nat) : Int))).symm
  ring_nf at hsum ⊢
  exact hsum

/-- What Sign returns, Verify accepts, when `g` has an order dividing `q` (R200). -/
theorem verify_sign (d : Domain) (x k h : Nat) (hq : 0 < d.q) (hg : d.g ^ d.q % d.p = 1) :
    verify d (sign d x k h).y (sign d x k h).r (sign d x k h).s h = true := by
  have hr : (sign d x k h).r ≡ d.g ^ k [MOD d.p] := by rw [sign_r]; exact Nat.mod_modEq _ _
  have hy : (sign d x k h).y ≡ d.g ^ x [MOD d.p] := by rw [sign_y]; exact Nat.mod_modEq _ _
  have hexp := pow_modEq_pow_of_modEq hg (sign_exponents_modEq hq x k h)
  generalize hrho : (sign d x k h).r % d.q = rho at hexp
  rw [verify_iff, hrho, ← Nat.mul_mod]
  calc (sign d x k h).r ^ h ≡ (d.g ^ k) ^ h [MOD d.p] := hr.pow h
    _ = d.g ^ (k * h) := (pow_mul _ _ _).symm
    _ ≡ d.g ^ ((sign d x k h).s + x * rho) [MOD d.p] := hexp
    _ = d.g ^ (sign d x k h).s * (d.g ^ x) ^ rho := by rw [pow_add, pow_mul]
    _ ≡ d.g ^ (sign d x k h).s * (sign d x k h).y ^ rho [MOD d.p] := ((hy.pow rho).symm).mul_left _

/-! ## The sequences of commands -/

/-- The domain that a core holds in Z0, Z1 and Z2 (R199, R200). -/
def State.domain (s : State) : Domain := { p := zval s 0, q := zval s 1, g := zval s 2 }

/-- The digest in OUT0 as an integer (R199). -/
def State.digest (s : State) : Nat := ∑ i ∈ Finset.range 16, (byteAt s.out0 i).toNat * 256 ^ (15 - i)

/-- The commands run, put out no block and lead from `s` to `t`. -/
def RunsTo (commands : List Instr) (s t : State) : Prop :=
  runFeeds (commands.map fun i => (none, i)) s = some ([], t)

theorem RunsTo.concat {is : List Instr} {i : Instr} {s t u : State} (h : RunsTo is s t) (hexec : exec i t = .next u)
    (hnout : u.nout = 0) : RunsTo (is ++ [i]) s u := by
  have hlast : runFeeds [(none, i)] t = some ([], u) := runFeeds_cons_noOutput (D := none) [] hexec hnout
  rw [RunsTo] at h ⊢
  simp [runFeeds_append, h, hlast]

/-- The commands lead from `s` to a state whose Z registers hold the values `f`, with the digest and the error fields as
they were. -/
def LeadsTo (commands : List Instr) (s : State) (f : ZReg → Nat) : Prop :=
  ∃ t, RunsTo commands s t ∧ (∀ r, zval t r = f r) ∧ t.out0 = s.out0 ∧ t.err = s.err ∧ t.ecode = s.ecode

theorem leadsTo_nil (s : State) : LeadsTo [] s (zval s) := ⟨s, rfl, fun _ => rfl, rfl, rfl, rfl⟩

section LeadsTo
variable {is : List Instr} {s : State} {f : ZReg → Nat} (h : LeadsTo is s f)
include h

/-- One more command of the modular unit, which puts a value into one Z register. -/
theorem LeadsTo.concat {i : Instr} {zd : ZReg} {v : Nat}
    (hi : ∀ t, (∀ r, zval t r = f r) → t.out0 = s.out0 → WritesZ t zd (fun w => w = v) (exec i t)) :
    LeadsTo (is ++ [i]) s (Function.update f zd v) := by
  obtain ⟨t, hrun, hz, hout, herr, hcode⟩ := h
  obtain ⟨u, hexec, hv, hothers, hframe⟩ := hi t hz hout
  refine ⟨u, hrun.concat hexec (by rw [hframe]), fun r => ?_, ?_, ?_, ?_⟩
  · rw [Function.update_apply]
    split
    · rename_i heq; rw [heq, hv]
    · rw [zval, hothers r ‹_›, ← hz r, zval]
  · rw [hframe, ← hout]
  · rw [hframe, ← herr]
  · rw [hframe, ← hcode]

theorem LeadsTo.zldb (zd : ZReg) : LeadsTo (is ++ [.zldb zd]) s (Function.update f zd s.digest) :=
  h.concat fun t _ hout => by rw [State.digest, ← hout]; exact zldbResult t zd

theorem LeadsTo.mexp (zd za zb zm : ZReg) (hm : f zm ≠ 0) :
    LeadsTo (is ++ [.mexp zd za zb zm]) s (Function.update f zd (f za ^ f zb % f zm)) :=
  h.concat fun t hz _ => by simpa only [hz] using mexpResult t zd za zb zm (by rwa [hz])

theorem LeadsTo.mmul (zd za zb zm : ZReg) (hm : f zm ≠ 0) :
    LeadsTo (is ++ [.mmul zd za zb zm]) s (Function.update f zd (f za * f zb % f zm)) :=
  h.concat fun t hz _ => by simpa only [hz] using mmulResult t zd za zb zm (by rwa [hz])

theorem LeadsTo.mred (zd za zm : ZReg) (hm : f zm ≠ 0) :
    LeadsTo (is ++ [.mred zd za zm]) s (Function.update f zd (f za % f zm)) :=
  h.concat fun t hz _ => by simpa only [hz] using mredResult t zd za zm (by rwa [hz])

/-- The integer remainder of which MSUB's rule speaks is the value of its function (R195). -/
theorem LeadsTo.msub (zd za zb zm : ZReg) (hm : f zm ≠ 0) :
    LeadsTo (is ++ [.msub zd za zb zm]) s (Function.update f zd (subMod (f za) (f zb) (f zm))) := by
  refine h.concat fun t hz _ => ?_
  obtain ⟨u, ho, hdiff, hframe⟩ := msubResult t zd za zb zm (by rwa [hz])
  rw [hz, hz, hz, ← subMod_eq _ _ _ (Nat.pos_of_ne_zero hm)] at hdiff
  exact ⟨u, ho, Int.natCast_inj.mp hdiff, hframe⟩

end LeadsTo

section Sequences
variable {s : State} (hp : zval s 0 ≠ 0) (hq : zval s 1 ≠ 0)
include hp hq

/-- The commands of R199 compute Sign. -/
theorem runsTo_signCommands : ∃ t, RunsTo signCommands s t ∧
    sign s.domain (zval s 3) (zval s 4) s.digest = { y := zval t 4, r := zval t 6, s := zval t 5 } ∧
    t.err = s.err ∧ t.ecode = s.ecode := by
  have hr := ((leadsTo_nil s).zldb 5).mexp 6 2 4 0 (by simpa using hp)
  have hs := (((hr.mred 7 6 1 (by simpa using hq)).mmul 5 5 4 1 (by simpa using hq)).mmul 7 7 3 1
    (by simpa using hq)).msub 5 5 7 1 (by simpa using hq)
  obtain ⟨t, hrun, hz, -, herr, hcode⟩ := hs.mexp 4 2 3 0 (by simpa using hp)
  refine ⟨t, hrun, ?_, herr, hcode⟩
  simp [hz, sign, powMod_eq, mulMod, State.domain]

/-- The commands of R200 compute Verify. -/
theorem runsTo_verifyCommands : ∃ t, RunsTo verifyCommands s t ∧
    t.eq = verify s.domain (zval s 3) (zval s 4) (zval s 5) s.digest ∧ t.err = s.err ∧ t.ecode = s.ecode := by
  have hleft := (((leadsTo_nil s).zldb 6).mred 7 4 1 (by simpa using hq)).mexp 6 4 6 0 (by simpa using hp)
  obtain ⟨t, hrun, hz, -, herr, hcode⟩ := ((hleft.mexp 5 2 5 0 (by simpa using hp)).mexp 7 3 7 0
    (by simpa using hp)).mmul 5 5 7 0 (by simpa using hp)
  refine ⟨_, hrun.concat (zcmpResult t 6 5) rfl, ?_, herr, hcode⟩
  refine zval_beq_zval.symm.trans ?_
  simp [hz, verify, powMod_eq, mulMod, State.domain]

end Sequences

/-- Settles O36: the functions' equations, the sequences by definition, and their runs. -/
theorem signatureEquations : Obligations.SignatureEquations := by
  refine ⟨fun d hq => ⟨fun x k h => ⟨sign_r d x k h, sign_y d x k h, sign_s_eq hq x k h⟩, verify_iff d⟩,
    ⟨rfl, rfl⟩, fun s d h hd hp hq hh => ?_⟩
  rw [hd] at hp hq ⊢
  rw [hh]
  exact ⟨runsTo_signCommands hp.ne' hq.ne', runsTo_verifyCommands hp.ne' hq.ne'⟩

/-- Settles O37: the functions agree, and the second run reads what the first one wrote. -/
theorem signThenVerifyAccepts : Obligations.SignThenVerifyAccepts := by
  refine ⟨verify_sign, fun s t u bs hp hq hg hrun hout hu0 hu1 hu2 hu3 hu4 hu5 => ?_⟩
  obtain ⟨t', hrun', hsigned, -, -⟩ := runsTo_signCommands hp hq
  obtain ⟨-, rfl⟩ := Prod.mk.inj (Option.some.inj (hrun.symm.trans hrun'))
  obtain ⟨v, hrunv, heq, -, -⟩ := runsTo_verifyCommands (s := u) (by rwa [hu0]) (by rwa [hu1])
  have hdomain : u.domain = s.domain := by rw [State.domain, hu0, hu1, hu2, State.domain]
  have hdigest : u.digest = s.digest := by rw [State.digest, hout, State.digest]
  have haccepts := verify_sign s.domain (zval s 3) (zval s 4) s.digest (Nat.pos_of_ne_zero hq) hg
  rw [hsigned] at haccepts
  refine ⟨v, hrunv, ?_⟩
  rw [heq, hdomain, hdigest, hu3, hu4, hu5]
  exact haccepts

end Sys2Proof.Machine
end

section
/-! The invariant (R22, R30, R31, R36, R37, R39, R42, R190): which operations keep it, and that every step does. -/

namespace Sys2Proof.Machine

open Host Sys2Proof.Safety

/-! ## The values that commands and the host write (R54, R166, R190) -/

/-- A register below `2^m` stays below it when one of its words within `m` bits is written (R54). -/
theorem toNat_setWordAt_lt {n m i : Nat} {x : BitVec n} (v : Word) (hx : x.toNat < 2 ^ m) (hi : 32 * i + 32 ≤ m) :
    (setWordAt x i v).toNat < 2 ^ m := by
  apply Nat.lt_pow_two_of_testBit
  intro k hk
  rw [BitVec.testBit_toNat]
  by_cases hkn : k < n
  · rw [getLsbD_setWordAt x i v k hkn, if_neg (by omega), ← BitVec.testBit_toNat]
    exact Nat.testBit_eq_false_of_lt (hx.trans_le (Nat.pow_le_pow_right (by decide) hk))
  · exact BitVec.getLsbD_of_ge _ _ (by omega)

/-- TAIL answers only legal values of KEEPP and KEEPL (R30, R166). -/
theorem tail_legal {L base : BitVec 64} {kp : BitVec 5} {kl : BitVec 4} (h : tail L base = some (kp, kl)) :
    (kp = 0 ∨ 9 ≤ kp.toNat ∧ kp.toNat ≤ 16) ∧ kl.toNat ≤ 8 := by
  unfold tail at h
  split at h
  case isTrue hfinal =>
    obtain ⟨rfl, rfl⟩ := Prod.mk.inj (Option.some.inj h)
    constructor
    · split <;> decide
    · rw [BitVec.toNat_ofNat]
      omega
  case isFalse =>
    split at h
    case isTrue hprevious =>
      obtain ⟨rfl, rfl⟩ := Prod.mk.inj (Option.some.inj h)
      refine ⟨.inr ?_, by decide⟩
      rw [BitVec.toNat_ofNat]
      omega
    case isFalse => cases h

/-! ## The operations -/

/-- The fields that the invariant speaks of. -/
def invFields (s : State) :=
  (s.z, s.zsize, s.pend, s.cmd, s.done, s.err, s.ecode, s.nout, s.keepp, s.keepl)

section Operations
variable {s t : State} {n : BitVec 2} (h : Inv s)
include h

/-- The invariant does not look at any other field. -/
theorem inv_congr (heq : invFields t = invFields s) : Inv t := by
  simp only [invFields, Prod.mk.injEq] at heq
  obtain ⟨hz, hzsize, hpend, hcmd, hdone, herr, hecode, hnout, hkeepp, hkeepl⟩ := heq
  refine ⟨fun r => ?_, ?_, ?_, ?_⟩
  · have hfits := h.zFits r
    rwa [zval, State.modw, State.zWords, ← hz, ← hzsize] at hfits
  · rw [PendAgrees, hpend, hcmd, hdone]
    exact h.pendAgrees
  · rw [ErrAgrees, herr, hecode]
    exact h.errAgrees
  · rw [FieldsLegal, hnout, hkeepp, hkeepl]
    exact h.fieldsLegal

/-- The Z registers may change within MODW bits (R22, R190). -/
theorem inv_with_z {z : Vector ZValue 8} (hz : ∀ r : ZReg, z[r].toNat < 2 ^ s.modw) : Inv { s with z := z } :=
  ⟨hz, h.pendAgrees, h.errAgrees, h.fieldsLegal⟩

/-- The first error sets ERR and its code, which is 1 to 5; a later one changes nothing (R37, R231, R234). -/
theorem inv_recordError (e : ErrorCode) : Inv (recordError e s) := by
  have hcode : e.code ≠ 0 ∧ e.code.toNat ≤ 5 := by cases e <;> decide
  unfold recordError
  split
  · exact h
  · exact ⟨h.zFits, h.pendAgrees, ⟨⟨nofun, fun hzero => absurd hzero hcode.1⟩, hcode.2⟩, h.fieldsLegal⟩

/-! ### The host's writes and the reset -/

/-- A write to STATUS clears ERR and ECODE together, and sets no bit (R34). -/
theorem inv_writeStatus (v : Word) : Inv (s.writeStatus v) where
  zFits := h.zFits
  pendAgrees w hw := by
    obtain ⟨hcmd, hdone⟩ := h.pendAgrees w hw
    exact ⟨hcmd, by simp [hdone]⟩
  errAgrees := by
    rw [ErrAgrees, writeStatus_err, writeStatus_ecode]
    cases v.getLsbD 2 with
    | true => simp
    | false =>
      rw [Bool.not_false, Bool.and_true, if_neg Bool.false_ne_true]
      exact h.errAgrees
  fieldsLegal := h.fieldsLegal

/-- Acceptance sets CMD and PEND to the same word and clears DONE (R87). -/
theorem inv_accept (w : Word) : Inv (accept w s) where
  zFits := h.zFits
  pendAgrees _ hw := ⟨Option.some.inj hw, rfl⟩
  errAgrees := h.errAgrees
  fieldsLegal := h.fieldsLegal

theorem inv_writeWord (v : Word) (r : RegWord) : Inv (writeWord s v r) := by
  rcases writeWord_cases s v r with hw | ⟨-, hw⟩ | ⟨x, hw⟩ | ⟨x, hw⟩ | ⟨x, hw⟩ | ⟨x, hw⟩ | ⟨n, w, -, hlt, hw⟩
  case inr.inr.inr.inr.inr.inr =>
    rw [hw]
    refine inv_with_z h fun m => ?_
    rw [Fin.getElem_fin, Vector.getElem_set]
    split
    · exact toNat_setWordAt_lt v (h.zFits n) (by rw [State.modw]; omega)
    · exact h.zFits m
  all_goals
    rw [hw]
    exact inv_congr h rfl

theorem inv_busWrite (off : Offset) (v : Word) : Inv (busWrite off v s) := by
  rcases busWrite_cases off v s with ⟨-, hw⟩ | ⟨-, -, hw⟩ | ⟨-, -, -, hw⟩ | ⟨-, -, hw⟩ | ⟨-, -, -, -, hw⟩ <;> rw [hw]
  · exact inv_writeStatus h v
  · exact h
  · exact inv_recordError h .busy
  · exact inv_accept h v
  · exact inv_writeWord h v (regAt off)

omit h in
/-- The reset values are legal for every MODW (R44, R260). -/
theorem inv_resetEvent (s : State) : Inv (resetEvent s) where
  zFits r := by
    have hz : (resetEvent s).z[r] = 0#2048 := by simp
    rw [zval, hz, BitVec.toNat_zero]
    exact Nat.two_pow_pos _
  pendAgrees := invHoldsAtReset.pendAgrees
  errAgrees := invHoldsAtReset.errAgrees
  fieldsLegal := invHoldsAtReset.fieldsLegal

theorem inv_hostStep {op : HostOp} (hstep : hostStep op s = .next t) : Inv t := by
  rcases hostStep_next hstep with ⟨-, rfl⟩ | ⟨ops, vs, n, rfl⟩ | ⟨off, v, x, -, -, -, rfl⟩
  · exact inv_resetEvent s
  · exact inv_congr h rfl
  · exact inv_busWrite h off x

/-! ### The completions -/

/-- A completion leaves no word in flight (R42, R88). -/
theorem inv_finish (hn : n.toNat ≤ 2) : Inv (finish n s) where
  zFits := h.zFits
  pendAgrees w hw := by cases hw
  errAgrees := h.errAgrees
  fieldsLegal := ⟨hn, h.fieldsLegal.2⟩

theorem inv_raise (e : ErrorCode) : Inv (raise e s) := inv_recordError (inv_finish h (by decide)) e

/-- A command of the modular unit that puts a value of MODW bits into a Z register (R190). -/
theorem inv_finish_setZ {zd : ZReg} {v : Nat} (hv : v < 2 ^ s.modw) : Inv (finish 0 (setZ s zd v)) := by
  refine inv_finish (inv_with_z h fun r => ?_) (by decide)
  refine (zval_setZ s zd r v (lt_container_of_lt_modw hv)).trans_lt ?_
  split
  · exact hv
  · exact h.zFits r

/-- A key-using command keeps the invariant if it does so for each variant (R33). -/
theorem inv_withKeySize {f : KeySize → State} (hnext : withKeySize s f = .next t) (hf : ∀ ks, Inv (f ks)) : Inv t := by
  rcases withKeySize_cases s f with ⟨-, hraise⟩ | ⟨ks, -, hrun⟩
  · obtain rfl := Outcome.next.inj (hraise.symm.trans hnext)
    exact inv_raise h .ksize
  · obtain rfl := Outcome.next.inj (hrun.symm.trans hnext)
    exact hf ks

/-- A command with a modulus keeps the invariant: its value is below the modulus, which has MODW bits (R190, R191). -/
theorem inv_withModulus {zd zm : ZReg} {g : Nat → Nat} (hg : ∀ m, 0 < m → g m < m)
    (hnext : withModulus s zm (fun m => finish 0 (setZ s zd (g m))) = .next t) : Inv t := by
  rcases withModulus_cases s zm fun m => finish 0 (setZ s zd (g m)) with ⟨-, hraise⟩ | ⟨hpos, hrun⟩
  · obtain rfl := Outcome.next.inj (hraise.symm.trans hnext)
    exact inv_raise h .zeroMod
  · obtain rfl := Outcome.next.inj (hrun.symm.trans hnext)
    exact inv_finish_setZ h ((hg _ hpos).trans (h.zFits zm))

/-- CENCF puts out one block or two (R39, R163). -/
theorem inv_execCencf {nb : Fin 16} (hnext : execCencf nb s = .next t) : Inv t := by
  refine inv_withKeySize h hnext fun ks => ?_
  dsimp only
  split
  · exact inv_finish (inv_congr h rfl) (by decide)
  · exact inv_finish (inv_congr h rfl) (by decide)

/-- CDECF writes KEEP only as TAIL answers (R165). -/
theorem inv_execCdecf (hnext : execCdecf s = .next t) : Inv t := by
  refine inv_withKeySize h hnext fun ks => ?_
  dsimp only
  split
  case h_1 => exact inv_raise h .trailer
  case h_2 kp kl htail =>
    exact inv_finish ⟨h.zFits, h.pendAgrees, h.errAgrees, h.fieldsLegal.1, tail_legal htail⟩ (by decide)

theorem inv_exec {i : Instr} (hnext : exec i s = .next t) : Inv t := by
  cases i with
  | nop => obtain rfl := Outcome.next.inj hnext; exact inv_finish h (by decide)
  | enc | dec | cenc | cdec => exact inv_withKeySize h hnext fun ks => inv_finish (inv_congr h rfl) (by decide)
  | hinit | hblk | hfin nb | cinit | zcmp za zb =>
    obtain rfl := Outcome.next.inj hnext
    exact inv_finish (inv_congr h rfl) (by decide)
  | cencf nb => exact inv_execCencf h hnext
  | cdecf => exact inv_execCdecf h hnext
  | mexp zd za zb zm =>
    rw [exec_mexp_eq_withModulus] at hnext
    exact inv_withModulus h (fun m hm => powMod_eq _ _ m ▸ Nat.mod_lt _ hm) hnext
  | mmul zd za zb zm =>
    rw [exec_mmul_eq_withModulus] at hnext
    exact inv_withModulus h (fun m hm => Nat.mod_lt _ hm) hnext
  | msub zd za zb zm =>
    rw [exec_msub_eq_withModulus] at hnext
    exact inv_withModulus h (fun m hm => subMod_lt _ _ m hm) hnext
  | mred zd za zm =>
    rw [exec_mred_eq_withModulus] at hnext
    exact inv_withModulus h (fun m hm => Nat.mod_lt _ hm) hnext
  | zldb zd => obtain rfl := Outcome.next.inj hnext; exact inv_finish_setZ h (uintBe_out0_lt_modw s)

end Operations

/-- Settles O60: of the ways to step, the host's operations and the commands keep the invariant, and so does the error of
an illegal word. -/
theorem invKeptByStep : Obligations.InvKeptByStep := by
  intro s t h hstep
  rcases step_next hstep with rfl | ⟨-, op, ops, d, -, hhost⟩ | ⟨-, w, i, -, -, hexec⟩ | rfl
  · exact h
  · have hturn : Inv { s with hostOps := ops, delay := d } := inv_congr h rfl
    exact inv_hostStep hturn hhost
  · exact inv_exec h hexec
  · exact inv_raise h .illegal

end Sys2Proof.Machine
end

section
/-! The command NOP (R220). -/

namespace Sys2Proof.Machine

/-- NOP has no effect of its own: it is the completion of a command that produced no output (R88, R220). -/
theorem exec_nop (s : State) : exec .nop s = .next (finish 0 s) := rfl

/-- Settles O10: `finish` writes NOUT, DONE, the command in flight and the delay, and no register besides. -/
theorem nopResult : Obligations.NopResult := exec_nop

end Sys2Proof.Machine
end

section
/-! What stops the machine, and the recording of an error (R57, R61, R91, R230, R234, R235). -/

namespace Sys2Proof.Machine

open Host Sys2Proof.Safety

/-! ## The recording of an error (R234, R235) -/

theorem recordError_of_noErr (e : ErrorCode) {s : State} (herr : s.err = false) :
    recordError e s = { s with err := true, ecode := e.code } := if_neg (by simp [herr])

theorem recordError_of_err (e : ErrorCode) {s : State} (herr : s.err = true) : recordError e s = s := if_pos herr

/-- Settles O49: the two branches of the recording. -/
theorem firstErrorIsKept : Obligations.FirstErrorIsKept := fun e _ =>
  ⟨recordError_of_noErr e, recordError_of_err e⟩

/-- Both branches of the recording in one state: ERR is 1 after it, and ECODE the first code since the last clear. -/
theorem recordError_eq_update (e : ErrorCode) (s : State) :
    recordError e s = { s with err := true, ecode := if s.err then s.ecode else e.code } := by
  cases herr : s.err with
  | false => exact recordError_of_noErr e herr
  | true => rw [recordError_of_err e herr, if_pos rfl, ← herr]

/-- Settles O44: the lost write records E_BUSY and does nothing else. -/
theorem busyWritesAreLost : Obligations.BusyWritesAreLost := by
  intro s off v hb hstatus hres
  rw [busWrite_lost v hstatus hres hb, recordError_eq_update]
  rfl

/-! ## What stops the machine (R57, R91, R230) -/

/-- The host's step stops at an improper access and at a name without a value, and at nothing else. -/
theorem hostStep_answers_iff (op : HostOp) (s : State) : (∃ t, hostStep op s = .next t) ↔ opAnswered s op = true := by
  cases op with
  | write width off v =>
    cases hwf : (HostOp.write width off v).wellFormed with
    | false => simp [hostStep, opAnswered, hwf]
    | true => cases hv : hostValue s v <;> simp [hostStep, opAnswered, hwf, hv, Except.toBool]
  | read width off n => cases hwf : (HostOp.read width off n).wellFormed <;> simp [hostStep, opAnswered, hwf]
  | wait n => simp [hostStep, opAnswered, HostOp.wellFormed]
  | reset => simp [hostStep, opAnswered, HostOp.wellFormed]

/-- Of the state, only the values of the names decide whether an operation is answered. -/
theorem opAnswered_congr {s t : State} (h : t.hostVars = s.hostVars) (op : HostOp) :
    opAnswered t op = opAnswered s op := by
  have hvalue (v : HostVal) : hostValue t v = hostValue s v := by simp only [hostValue, h]
  simp only [opAnswered, hvalue]

/-- Settles O58: an idle core and a completion always answer, so that the host's operation decides alone. -/
theorem stopsOnlyOnHostMisuse : Obligations.StopsOnlyOnHostMisuse := by
  intro s
  rcases step_cases s with ⟨-, hnil, hstep⟩ | ⟨op, ops, d, hops, hturn, hstep⟩ | ⟨w, hp, hturn, hstep⟩
  · exact iff_of_true ⟨s, hstep⟩ (.inl hnil)
  · have hwaits : ¬ (s.pend ≠ none ∧ s.delay = 0) := by
      rintro ⟨hp, hdelay⟩
      simp [hp, hdelay] at hturn
    have hanswered : opAnswered { s with hostOps := ops, delay := d } op = opAnswered s op := opAnswered_congr rfl op
    rw [safeStep, hstep, hostStep_answers_iff, hanswered]
    simp [hops, hwaits]
  · obtain ⟨t, hengine, -⟩ := engineStep_completes w s
    refine iff_of_true ⟨t, hstep.trans hengine⟩ ?_
    rcases hturn with hdelay | hnil
    · exact .inr (.inr ⟨by simp [hp], hdelay⟩)
    · exact .inl hnil

end Sys2Proof.Machine
end

section
/-! The bytes of DIN from NB on (R271): PAD does not read them, and HFIN and CENCF read DIN through PAD alone. -/

namespace Sys2Proof.Machine

open Host

/-! ## PAD (R142) -/

section StaleBytes
variable {r : Fin 16} {D D' : Block} (hbytes : ∀ j, j < r.val → byteAt D j = byteAt D' j)
include hbytes

/-- Only the bytes before the marker come from the data block. -/
theorem markerBlock_eq_of_bytes : markerBlock D r = markerBlock D' r := by
  apply eq_of_byteAt
  intro j hj
  have hj16 : j < 16 := by omega
  rw [byteAt_markerBlock D r hj16, byteAt_markerBlock D' r hj16]
  by_cases hdata : j < r.val
  · rw [if_pos hdata, if_pos hdata, hbytes j hdata]
  · rw [if_neg hdata, if_neg hdata]

/-- Both shapes of PAD read the data through `markerBlock`. -/
theorem pad_eq_of_bytes (L : BitVec 64) : pad D r L = pad D' r L := by
  rw [pad, pad, markerBlock_eq_of_bytes hbytes]

end StaleBytes

/-! ## The commands (R146, R163) -/

/-- A command error does not look at DIN (R233). -/
theorem raise_with_din (e : ErrorCode) (s : State) (D : Block) :
    raise e { s with din := D } = { raise e s with din := D } := by
  rw [raise_eq_erred, raise_eq_erred]
  rfl

section Commands
variable {s t : State} {nb : Fin 16} {D : Block}

theorem exec_hfin_of_bytes (hbytes : ∀ j, j < nb.val → byteAt s.din j = byteAt D j)
    (hnext : exec (.hfin nb) s = .next t) : exec (.hfin nb) { s with din := D } = .next { t with din := D } := by
  rw [exec_hfin rfl, pad_eq_of_bytes hbytes] at hnext
  obtain rfl := Outcome.next.inj hnext
  exact exec_hfin rfl

/-- CENCF with a reserved KSIZE is a command error (R33, R236). -/
theorem exec_cencf_reserved (hks : selectKey s.ksize = none) : exec (.cencf nb) s = .next (raise .ksize s) :=
  withKeySize_none s _ hks

theorem exec_cencf_of_bytes (hbytes : ∀ j, j < nb.val → byteAt s.din j = byteAt D j)
    (hnext : exec (.cencf nb) s = .next t) : exec (.cencf nb) { s with din := D } = .next { t with din := D } := by
  cases hks : selectKey s.ksize with
  | none =>
    obtain rfl := Outcome.next.inj ((exec_cencf_reserved hks).symm.trans hnext)
    rw [← raise_with_din]
    exact exec_cencf_reserved (s := { s with din := D }) hks
  | some ks =>
    have hsame := pad_eq_of_bytes hbytes (s.len + BitVec.ofNat 64 nb.val)
    rcases hpad : pad D nb (s.len + BitVec.ofNat 64 nb.val) with ⟨B, _ | B'⟩
    · obtain rfl := Outcome.next.inj ((exec_cencf_oneBlock hks rfl (hsame.trans hpad)).symm.trans hnext)
      exact exec_cencf_oneBlock (s := { s with din := D }) hks rfl hpad
    · obtain rfl := Outcome.next.inj ((exec_cencf_twoBlocks hks rfl (hsame.trans hpad)).symm.trans hnext)
      exact exec_cencf_twoBlocks (s := { s with din := D }) hks rfl hpad

end Commands

/-- Settles O33: neither command reads DIN but through PAD, and PAD reads NB bytes of it. -/
theorem staleInputBytesIgnored : Obligations.StaleInputBytesIgnored := fun _ _ _ _ hbytes =>
  ⟨exec_hfin_of_bytes hbytes, exec_cencf_of_bytes hbytes⟩

end Sys2Proof.Machine
end
